-- ==== Sys2Proof/Word.lean ====
section
/-! DEFINITION. The word types of the core: the byte, the 16-bit token field and the 32-bit checksum
(spec/00_scope.md R9, R11). Every quantity of this hardware is unsigned (R11); positions, lengths and
counts are natural numbers (R12: "No operation wraps: a model over natural numbers is exact"; log 3). -/

namespace Sys2Proof

/-- A byte: BYTE = 8 bits (R9). -/
abbrev Byte := BitVec 8

/-- An `offset` or `length` field: OFFSET_BITS = LENGTH_BITS = 16 (R9). -/
abbrev Half := BitVec 16

/-- A checksum: CRC_BITS = 32 (R9). -/
abbrev Word32 := BitVec 32

end Sys2Proof
end

