-- ==== Sys2Proof/Syntax.lean ====
section
/-! DEFINITION. The token record (spec/30_encoding.md R90) and the instructions: one constructor for
each row of spec/opcode_table.json, the two token kinds (R96) and the nine operations (R104). -/

namespace Sys2Proof

/-- The token record of R90: "offset: unsigned 16-bit, length: unsigned 16-bit, symbol: unsigned
8-bit". There is no other field. -/
structure Token where
  offset : Half
  length : Half
  symbol : Byte
  deriving DecidableEq, Repr, Inhabited

/-- The instructions of the core. The tokens are the decoder's instructions (R15, R96), the operations
are what the host starts by a CMD write (R104). -/
inductive Instr where
  /-- LIT symbol: the token `(0, 0, symbol)` (R179). -/
  | lit (symbol : Byte)
  /-- MATCH offset, length, symbol: every token that is not a LIT (R180). -/
  | matchTok (offset length : Half) (symbol : Byte)
  /-- CRC32, CMD = 1 (R121). -/
  | crc32
  /-- FIND, CMD = 2 (R136). -/
  | find
  /-- ENCODE, CMD = 3 (R156). -/
  | encode
  /-- DECODE, CMD = 4 (R177). -/
  | decode
  /-- SERIALIZE, CMD = 5 (R196). -/
  | serialize
  /-- DESERIALIZE, CMD = 6 (R202). -/
  | deserialize
  /-- PACK, CMD = 7 (R225). -/
  | pack
  /-- UNPACK, CMD = 8 (R226). -/
  | unpack
  /-- CMP, CMD = 9 (R230). -/
  | cmp
  deriving DecidableEq, Repr

end Sys2Proof
end

