-- ==== Sys2Proof/Config.lean ====
section
/-! DEFINITION. What the spec leaves to an implementation (spec/00_scope.md R10), as plain data, and the
free values: values the spec calls unspecified (R29, R36, R252; U5 and U6 of 93_implementation_defined.md),
opaque constants of which nothing can be proved. -/

namespace Sys2Proof

/-- The four buffers: separate address spaces (R64). -/
inductive Space where
  | ib | tb | ob | fb
  deriving DecidableEq, Repr

/-- The build-time parameters of R10. `none` is the default "unbounded" (log 2). -/
structure Cfg where
  /-- IB_CAP, bytes. -/
  ibCap : Option Nat := none
  /-- TB_CAP, tokens. -/
  tbCap : Option Nat := none
  /-- OB_CAP, bytes. -/
  obCap : Option Nat := none
  /-- FB_CAP, bytes. -/
  fbCap : Option Nat := none
  /-- AW, the bit width of byte cursors and byte lengths. -/
  aw : Option Nat := none
  /-- TW, the bit width of token cursors and TB_LEN. -/
  tw : Option Nat := none
  deriving DecidableEq, Repr

/-- The width constraint of R10: `2^width` is greater than the capacity. -/
def Cfg.widthCovers : Option Nat → Option Nat → Bool
  | none, _ => true
  | some _, none => false
  | some w, some c => decide (c < 2 ^ w)

/-- R10's constraints: "`2^AW` greater than every byte capacity" and "`2^TW > TB_CAP`". -/
def Cfg.wf (c : Cfg) : Bool :=
  Cfg.widthCovers c.aw c.ibCap && Cfg.widthCovers c.aw c.obCap &&
  Cfg.widthCovers c.aw c.fbCap && Cfg.widthCovers c.tw c.tbCap

namespace Config

/-- A free number, by purpose and by the counter of State (log 9). -/
opaque freeNat : Nat → Nat → Nat

/-- A free bit string of the named width, by purpose and by the counter of State (log 9). -/
opaque freeBits : (width : Nat) → Nat → Nat → BitVec width

/-- What an element of a byte buffer holds that nothing has written since its contents became
unspecified: by buffer, epoch and index (log 4). -/
opaque freeByte : Space → Nat → Nat → Byte

/-- The same for an element of TB, by epoch and index (log 4). -/
opaque freeToken : Nat → Nat → Token

end Config

end Sys2Proof
end

