-- ==== Sys2Proof/WellFormed.lean ====
section
/-! DEFINITION. Which instruction terms the spec's notation admits (spec/30_encoding.md R102). -/

namespace Sys2Proof

/-- R102: `MATCH o, l, s` means `(o, l, s)` "with not (`o == 0 and l == 0`)"; the record `(0, 0, s)` is
LIT s. Every other term is well formed: all field values are admitted (R98). -/
def Instr.wellFormed : Instr → Bool
  | .matchTok offset length _ => !(offset == 0 && length == 0)
  | .lit _ => true
  | .crc32 => true
  | .find => true
  | .encode => true
  | .decode => true
  | .serialize => true
  | .deserialize => true
  | .pack => true
  | .unpack => true
  | .cmp => true

end Sys2Proof
end

