-- ==== Sys2Proof/Decode.lean ====
section
/-! DEFINITION. The encodings of spec/30_encoding.md and their decoding: byte order (R65 of
20_memory.md, R14 of 00_scope.md), the token as five bytes (R92, R94) and as one 40-bit word (R91), the
kind test (R96), the CMD codes (R104, R105); then the encoder, from the same tables. -/

namespace Sys2Proof

/-! ## Byte order -/

/-- The `n` little-endian bytes of `v`: what `MemWrite(S, addr, n, v)` stores (R14, R65). -/
def leBytes : Nat → Nat → List Byte
  | 0, _ => []
  | n + 1, v => BitVec.ofNat 8 v :: leBytes n (v / 256)

/-- The unsigned number that bytes form, little-endian: the value of `MemRead` (R14, R65). -/
def leNat : List Byte → Nat
  | [] => 0
  | b :: bs => b.toNat + 256 * leNat bs

/-! ## The token record -/

/-- The five bytes of a token in increasing address order (R92). -/
def recordBytes (t : Token) : List Byte :=
  leBytes 2 t.offset.toNat ++ leBytes 2 t.length.toNat ++ leBytes 1 t.symbol.toNat

/-- The token of five record bytes (R94). -/
def tokenOfBytes (b0 b1 b2 b3 b4 : Byte) : Token :=
  { offset := BitVec.ofNat 16 (leNat [b0, b1])
    length := BitVec.ofNat 16 (leNat [b2, b3])
    symbol := b4 }

/-- The token as the 40-bit word `W = symbol ++ length ++ offset` (R91). -/
def tokenWord (t : Token) : BitVec 40 := t.symbol ++ (t.length ++ t.offset)

/-- The token of a 40-bit word: `W[15:0]`, `W[31:16]`, `W[39:32]` (R91). -/
def tokenOfWord (w : BitVec 40) : Token :=
  { offset := w.extractLsb' 0 16, length := w.extractLsb' 16 16, symbol := w.extractLsb' 32 8 }

/-- The kind test of R96, in its order: "`offset == 0 and length == 0`" is LIT, "anything else" MATCH. -/
def decodeToken (t : Token) : Instr :=
  if t.offset = 0 ∧ t.length = 0 then .lit t.symbol else .matchTok t.offset t.length t.symbol

/-! ## Decoding -/

/-- Why bits decode to no instruction. -/
inductive Reject where
  /-- A CMD value of 0 or 10 to 15 (R105). -/
  | illegalCommand (code : BitVec 4)
  /-- Fewer than the five bytes a token takes (R101). -/
  | shortRecord (bytes : Nat)
  /-- More bytes than one instruction takes. -/
  | bytesLeftOver (bytes : Nat)
  deriving DecidableEq, Repr

/-- The operation a CMD value names (R104); the others are illegal (R105). -/
def decodeCommand (c : BitVec 4) : Except Reject Instr :=
  match c.toNat with
  | 1 => .ok .crc32
  | 2 => .ok .find
  | 3 => .ok .encode
  | 4 => .ok .decode
  | 5 => .ok .serialize
  | 6 => .ok .deserialize
  | 7 => .ok .pack
  | 8 => .ok .unpack
  | 9 => .ok .cmp
  | _ => .error (.illegalCommand c)

/-- One token from the front of a byte sequence, and the bytes after it; every token is exactly five
bytes (R101), and every five bytes are a token (R98). -/
def decodeRecord : List Byte → Except Reject (Instr × List Byte)
  | b0 :: b1 :: b2 :: b3 :: b4 :: rest => .ok (decodeToken (tokenOfBytes b0 b1 b2 b3 b4), rest)
  | bs => .error (.shortRecord bs.length)

/-- An encoded instruction: a value of CMD, or the bytes of a token record (R106: the two formats of
the opcode table). -/
inductive Code where
  | command (c : BitVec 4)
  | record (bytes : List Byte)
  deriving DecidableEq, Repr

/-- The instruction of an encoded instruction. -/
def decodeCode : Code → Except Reject Instr
  | .command c => decodeCommand c
  | .record bytes =>
    match decodeRecord bytes with
    | .ok (i, []) => .ok i
    | .ok (_, b :: bs) => .error (.bytesLeftOver (b :: bs).length)
    | .error r => .error r

/-- The instruction of a word numbered as the opcode table numbers it: a row of at most one byte is a
CMD value (`width_bits` 4), a longer one a token record (`width_bits` 40, bit 0 the least significant
bit of the record's first byte) (R106; log 16). -/
def decodeTableWord (nbits w : Nat) : Option Instr :=
  if nbits ≤ 8 then
    if w < 16 then (decodeCode (.command (BitVec.ofNat 4 w))).toOption else none
  else if w < 2 ^ 40 then (decodeCode (.record (leBytes 5 w))).toOption
  else none

/-! ## Encoding -/

/-- The token record an instruction is, if it is a token: `LIT s` is `(0, 0, s)`, `MATCH o, l, s` is
`(o, l, s)` (R102). -/
def tokenOf : Instr → Option Token
  | .lit s => some ⟨0, 0, s⟩
  | .matchTok o l s => some ⟨o, l, s⟩
  | .crc32 => none
  | .find => none
  | .encode => none
  | .decode => none
  | .serialize => none
  | .deserialize => none
  | .pack => none
  | .unpack => none
  | .cmp => none

/-- The encoding of an instruction: a token's five bytes (R92), an operation's CMD code (R104). -/
def encodeInstr : Instr → Code
  | .lit s => .record (recordBytes ⟨0, 0, s⟩)
  | .matchTok o l s => .record (recordBytes ⟨o, l, s⟩)
  | .crc32 => .command 1
  | .find => .command 2
  | .encode => .command 3
  | .decode => .command 4
  | .serialize => .command 5
  | .deserialize => .command 6
  | .pack => .command 7
  | .unpack => .command 8
  | .cmp => .command 9

end Sys2Proof
end

