-- ==== Sys2Proof/Machine/State.lean ====
section
/-! DEFINITION. The architectural state (spec/10_state.md R20 to R37, spec/20_memory.md R60 to R64), the
model's own fields beside it, the reasons to stop, and the state after reset (R36, R280). -/

namespace Sys2Proof.Machine

/-- STATUS.STATE (R24). -/
inductive RunState where
  /-- "no operation has been started since reset" -/
  | idle
  /-- "an operation is in progress" -/
  | busy
  /-- "the last operation ended without error; its outputs are valid" -/
  | done
  /-- "the last operation ended with the error kind in ERR; its outputs are not valid" -/
  | error
  deriving DecidableEq, Repr

/-- The error kinds of ERR (R25, R241 to R248). -/
inductive ErrKind where
  | none | truncatedFile | integrity | malformedRecord | invalidReference | io | capacity | illegalCommand
  deriving DecidableEq, Repr

/-- A buffer memory. `cells` lists the elements something has written, by strictly rising index; an
element that is not listed holds what nothing is known of: the free value selected by `epoch` (log 4). -/
structure Buf (α : Type) where
  cells : List (Nat × α) := []
  epoch : Nat := 0
  deriving DecidableEq, Repr

/-- The working registers: the cursors of R28, then the registers of R29. -/
structure Work where
  /-- POS, ENC's cursor into IB. -/
  pos : Nat := 0
  /-- TIX, DEC's cursor into TB: the token counter. -/
  tix : Nat := 0
  /-- RIX, FRM's record cursor. -/
  rix : Nat := 0
  /-- BIX, CRC's byte cursor. -/
  bix : Nat := 0
  /-- P, MF's candidate start index. -/
  p : Nat := 0
  /-- CRC, the running CRC register. -/
  crc : Word32 := 0
  /-- BITCNT, bit steps done for the current byte. -/
  bitcnt : BitVec 4 := 0
  /-- CRC_N, the number of bytes to sum. -/
  crcN : Nat := 0
  /-- DL, the match length of the current candidate. -/
  dl : Half := 0
  /-- LO, the last candidate to try. -/
  lo : Nat := 0
  /-- BEST_OFF. -/
  bestOff : Half := 0
  /-- BEST_LEN. -/
  bestLen : Half := 0
  /-- T_OFF, the offset of the token in hand. -/
  tOff : Half := 0
  /-- T_LEN, the length of the token in hand. -/
  tLen : Half := 0
  /-- T_SYM, the symbol of the token in hand. -/
  tSym : Byte := 0
  /-- START, the source index of the copy. -/
  start : Nat := 0
  /-- CPY, the copy counter. -/
  cpy : Half := 0
  /-- BODY_LEN, the length of the frame's body. -/
  bodyLen : Nat := 0
  /-- OPC, the code of the operation in progress. -/
  opc : BitVec 4 := 0
  /-- PHASE, the stage of PACK and UNPACK. -/
  phase : BitVec 1 := 0
  deriving DecidableEq, Repr

/-- The rows of the reference sequencings (the "state" columns of R124, R143, R167, R190, R201, R209),
before them `opStart`: an operation is latched in OPC and has not begun. CMP, which has no table, is
one row (log 20). -/
inductive Seq where
  | opStart
  | cInit | cByte | cBit | cFin
  | mInit | mCand | mExt | mUpd | mDone
  | eInit | eTest | eFind | eEmit | eDone
  | dInit | dFetch | dCheck | dCopy | dSym | dDone
  | sInit | sRec | sCrc | sTrl | sDone
  | xLen | xCrc | xCmp | xAlign | xRec | xDone
  | qCmp
  deriving DecidableEq, Repr

/-- How much one step of the core does. R6 makes the operation level normative and admits the reference
sequencing as a step relation; the model has both, and between them one that steps DEC token by token
(log 1). -/
inductive Grain where
  /-- one whole operation a step -/
  | operation
  /-- one instruction a step: an operation, but for DECODE and stage 1 of UNPACK one token -/
  | instruction
  /-- one row of a reference sequencing a step -/
  | micro
  deriving DecidableEq, Repr

/-- What an operation can declare as an output (R104): a register, or a buffer with its length. -/
inductive Output where
  | crcOut | crcStored | mf | eq | tb | ob | fb
  deriving DecidableEq, Repr

/-- The registers of the host's register map, indices 0 to 14 (R21 to R27, R30). -/
inductive Reg where
  | cmd | status | err | errInfo | window | posIn | ibLen | tbLen | obLen | fbLen
  | crcOut | crcStored | mfOff | mfLen | eq
  deriving DecidableEq, Repr

/-- The buffers of bytes (R60, R62, R63). -/
inductive ByteSpace where
  | ib | ob | fb
  deriving DecidableEq, Repr

/-- One move of the host: a register access, an access to one element of a buffer (R70), or reset
(R222, R231, R282). -/
inductive HostAct where
  | writeReg (r : Reg) (v : Nat)
  | readReg (r : Reg)
  | writeByte (b : ByteSpace) (i : Nat) (v : Byte)
  | readByte (b : ByteSpace) (i : Nat)
  | writeToken (i : Nat) (v : Token)
  | readToken (i : Nat)
  | reset
  deriving DecidableEq, Repr

/-- Whose turn a step is: the core's, or the host's with the move it makes (log 11). -/
inductive Turn where
  | core
  | host (a : HostAct)
  deriving DecidableEq, Repr

/-- What a read delivers to the host. -/
inductive BusData where
  | nothing
  | num (v : Nat)
  | byte (v : Byte)
  | token (v : Token)
  deriving DecidableEq, Repr

/-- The state of the core (R20), and the model's own fields after it. -/
structure State where
  /-- The parameters of R10: configuration, which no step changes (log 2). -/
  cfg : Cfg
  /-- STATUS.STATE (R24). -/
  status : RunState
  /-- ERR (R25). -/
  err : ErrKind
  /-- ERR_INFO (R26). -/
  errInfo : Nat
  /-- WINDOW (R22). -/
  window : Half
  /-- POS_IN (R23). -/
  posIn : Nat
  /-- IB_LEN (R30). -/
  ibLen : Nat
  /-- TB_LEN (R30). -/
  tbLen : Nat
  /-- OB_LEN (R30). -/
  obLen : Nat
  /-- FB_LEN (R30). -/
  fbLen : Nat
  /-- CRC_OUT (R27). -/
  crcOut : Word32
  /-- CRC_STORED (R27). -/
  crcStored : Word32
  /-- MF_OFF (R27). -/
  mfOff : Half
  /-- MF_LEN (R27). -/
  mfLen : Half
  /-- EQ (R27). -/
  eqFlag : BitVec 1
  /-- IB, the input byte buffer (R60). -/
  ib : Buf Byte
  /-- TB, the token buffer (R61). -/
  tb : Buf Token
  /-- OB, the output byte buffer (R62). -/
  ob : Buf Byte
  /-- FB, the frame buffer (R63). -/
  fb : Buf Byte
  /-- The working registers (R28, R29). -/
  work : Work
  /-- The row of the reference sequencing the core is in (log 1). -/
  seq : Seq
  /-- The model's own: how much one core step does (log 1). -/
  grain : Grain
  /-- The model's own: whose turns come next; when it is empty, the core's (log 11). -/
  agenda : List Turn
  /-- The model's own: what the last host read delivered (log 13). -/
  bus : BusData
  /-- The model's own: the counter that selects free values (log 9). -/
  freeCount : Nat
  deriving DecidableEq, Repr

/-- Why the machine stops with a fault. No instruction raises one. -/
inductive Fault where
  /-- Raised by a host access to an element of a buffer at or beyond its capacity, an address R60 to R63
  give no existence (log 14). Safe: the model stops where nothing is specified. -/
  | bufferIndex (b : Space) (i : Nat)
  deriving DecidableEq, Repr

/-- Why the model has no move. But for `notModelled`, no instruction raises one. -/
inductive Refusal where
  /-- Raised by an arm of exec that has no meaning yet; there is none. Safe. -/
  | notModelled (mnemonic : String)
  /-- Raised by a host access other than a read of STATUS or a write of CMD while the core is BUSY: "in a
  model the host has no move on those locations while BUSY" (R290; log 12). Safe. -/
  | hostAccessWhileBusy
  /-- Raised by a host write of a length above the buffer's capacity: "a state where it has done so is
  outside the model" (R288; log 12). Safe. -/
  | lengthAboveCapacity (b : Space)
  /-- Raised by a host write of a value its register's width cannot hold (R288; log 12). Safe. -/
  | valueTooWide (r : Reg)
  deriving DecidableEq, Repr

/-- What a step answers. -/
abbrev Result := Host.Outcome State Fault Refusal

/-- The state after reset, as the table of R36 gives it (also R280, V-RST-1). CMD has no reset value. The
buffers list nothing, so their contents are unspecified (log 4); the working registers, whose reset
values the spec does not give, are the zeros of `Work` (log 8). The last five fields are the model's own. -/
def State.reset : State :=
  { cfg := {}
    status := .idle
    err := .none
    errInfo := 0
    window := 4096
    posIn := 0
    ibLen := 0
    tbLen := 0
    obLen := 0
    fbLen := 0
    crcOut := 0
    crcStored := 0
    mfOff := 0
    mfLen := 0
    eqFlag := 0
    ib := {}
    tb := {}
    ob := {}
    fb := {}
    work := {}
    seq := .opStart
    grain := .operation
    agenda := []
    bus := .nothing
    freeCount := 1 }

end Sys2Proof.Machine
end

