-- ==== Sys2Proof/Machine/Ops.lean ====
section
/-! DEFINITION. The named operations over memories and registers: the canonical lists buffers are held
in, the four buffers' reads and writes, the free values, and the life of an operation (spec/10_state.md
R32): starting one, completing it, raising an error (spec/60_exceptions.md R251) and the start that is
the only way on from an error (R254). -/

namespace Sys2Proof.Machine

/-! ## Memories: lists of (index, element) with strictly rising indices -/

namespace Memory

/-- The element at an index, if something has written it. -/
def get? {α : Type} : List (Nat × α) → Nat → Option α
  | [], _ => none
  | (k, v) :: rest, a => if a = k then some v else get? rest a

/-- Store one element, keeping the indices rising. -/
def set {α : Type} : List (Nat × α) → Nat → α → List (Nat × α)
  | [], a, v => [(a, v)]
  | (k, w) :: rest, a, v =>
    if a < k then (a, v) :: (k, w) :: rest
    else if a = k then (a, v) :: rest
    else (k, w) :: set rest a v

/-- Store consecutive elements from an index upward. -/
def setAll {α : Type} : List (Nat × α) → Nat → List α → List (Nat × α)
  | m, _, [] => m
  | m, a, x :: xs => setAll (set m a x) (a + 1) xs

/-- The memory that holds exactly a sequence, from an index upward. -/
def cellsOf {α : Type} : Nat → List α → List (Nat × α)
  | _, [] => []
  | a, x :: xs => (a, x) :: cellsOf (a + 1) xs

/-- The elements below an index. -/
def below {α : Type} (m : List (Nat × α)) (n : Nat) : List (Nat × α) :=
  m.filter fun c => decide (c.1 < n)

/-- The canonical form: indices strictly rise. An unlisted element has no value here (log 4), so no entry
can equal what an unlisted one reads as. -/
abbrev wf {α : Type} (m : List (Nat × α)) : Prop := m.Pairwise fun x y => x.1 < y.1

end Memory

/-- The element of a buffer at an index: what was last written there (R71), else the free value of the
buffer's epoch (log 4). -/
def Buf.read {α : Type} (free : Nat → Nat → α) (b : Buf α) (i : Nat) : α :=
  (Memory.get? b.cells i).getD (free b.epoch i)

/-- Write one element (R70). -/
def Buf.write {α : Type} (b : Buf α) (i : Nat) (v : α) : Buf α :=
  { b with cells := Memory.set b.cells i v }

/-- Write consecutive elements. -/
def Buf.writeAll {α : Type} (b : Buf α) (i : Nat) (vs : List α) : Buf α :=
  { b with cells := Memory.setAll b.cells i vs }

/-- Make the buffer hold exactly a sequence. -/
def Buf.put {α : Type} (b : Buf α) (vs : List α) : Buf α :=
  { b with cells := Memory.cellsOf 0 vs }

/-- Leave the elements below a length as they are and the others unspecified (R200, U6; log 7). -/
def Buf.sealAt {α : Type} (b : Buf α) (len epoch : Nat) : Buf α :=
  { cells := Memory.below b.cells len, epoch := epoch }

/-- All contents unspecified (R252; log 5). -/
def Buf.forgotten {α : Type} (epoch : Nat) : Buf α :=
  { cells := [], epoch := epoch }

/-! ## Reading the four buffers -/

/-- `IB[i]`. -/
def State.ibAt (s : State) (i : Nat) : Byte := s.ib.read (Config.freeByte .ib) i

/-- `TB[i]`. -/
def State.tbAt (s : State) (i : Nat) : Token := s.tb.read Config.freeToken i

/-- `OB[i]`. -/
def State.obAt (s : State) (i : Nat) : Byte := s.ob.read (Config.freeByte .ob) i

/-- `FB[i]`. -/
def State.fbAt (s : State) (i : Nat) : Byte := s.fb.read (Config.freeByte .fb) i

/-! ## Capacities and `append` -/

/-- Whether a buffer of a length is full: `S_LEN = S_CAP` of R14 (a length is never above its capacity,
R288). -/
def full (cap : Option Nat) (len : Nat) : Bool :=
  match cap with
  | none => false
  | some c => decide (c ≤ len)

/-- Whether a length is above a capacity (R199, R207, R288). -/
def exceeds (cap : Option Nat) (len : Nat) : Bool :=
  match cap with
  | none => false
  | some c => decide (c < len)

/-- `append(S, b)` of R14: CAPACITY first if the buffer is full (R246). -/
def appendTo {α : Type} (cap : Option Nat) (xs : List α) (x : α) : Except ErrKind (List α) :=
  if full cap xs.length then .error .capacity else .ok (xs ++ [x])

/-! ## Free values (log 5, 6, 8, 9) -/

/-- A value cut to a register's width; `none` is the unbounded width (R10). -/
def fitWidth (width : Option Nat) (v : Nat) : Nat :=
  match width with
  | none => v
  | some w => v % 2 ^ w

/-- A free value of a length register: any value of its width, the capacity no bound, since "length
registers the operation declares as outputs may hold anything" (R252, U5; log 6). -/
def freeLength (width : Option Nat) (purpose count : Nat) : Nat :=
  fitWidth width (Config.freeNat purpose count)

/-- The working registers between operations, whose values are unspecified (R29; log 8). -/
def freeWork (c : Cfg) (n : Nat) : Work :=
  { pos := fitWidth c.aw (Config.freeNat 10 n)
    tix := fitWidth c.tw (Config.freeNat 11 n)
    rix := fitWidth c.tw (Config.freeNat 12 n)
    bix := fitWidth c.aw (Config.freeNat 13 n)
    p := fitWidth c.aw (Config.freeNat 14 n)
    crc := Config.freeBits 32 15 n
    bitcnt := Config.freeBits 4 16 n
    crcN := fitWidth c.aw (Config.freeNat 17 n)
    dl := Config.freeBits 16 18 n
    lo := fitWidth c.aw (Config.freeNat 19 n)
    bestOff := Config.freeBits 16 20 n
    bestLen := Config.freeBits 16 21 n
    tOff := Config.freeBits 16 22 n
    tLen := Config.freeBits 16 23 n
    tSym := Config.freeBits 8 24 n
    start := fitWidth c.aw (Config.freeNat 25 n)
    cpy := Config.freeBits 16 26 n
    bodyLen := fitWidth c.aw (Config.freeNat 27 n)
    opc := Config.freeBits 4 28 n
    phase := Config.freeBits 1 29 n }

/-! ## Writing whole results -/

/-- `TB[0 .. TB_LEN-1] <- tokens`. -/
def State.putTokens (s : State) (ts : List Token) : State :=
  { s with tb := s.tb.put ts, tbLen := ts.length }

/-- `OB[0 .. OB_LEN-1] <- bytes`. -/
def State.putOutput (s : State) (bs : List Byte) : State :=
  { s with ob := s.ob.put bs, obLen := bs.length }

/-- `FB[0 .. FB_LEN-1] <- bytes`: "truncate/create semantics" (R200). -/
def State.putFrame (s : State) (bs : List Byte) : State :=
  { s with fb := s.fb.put bs, fbLen := bs.length }

/-- `CRC_OUT <- computed; CRC_STORED <- stored` (R202). -/
def State.putSums (s : State) (computed stored : Word32) : State :=
  { s with crcOut := computed, crcStored := stored }

/-! ## The life of an operation (R32) -/

/-- The declared outputs of the operation with a code (R104). -/
def outputs (c : BitVec 4) : List Output :=
  match c.toNat with
  | 1 => [.crcOut]
  | 2 => [.mf]
  | 3 => [.tb]
  | 4 => [.ob]
  | 5 => [.fb, .crcOut]
  | 6 => [.tb, .crcOut, .crcStored]
  | 7 => [.tb, .fb, .crcOut]
  | 8 => [.tb, .crcOut, .crcStored, .ob]
  | 9 => [.eq]
  | _ => []

/-- What is unspecified after an operation, in a stage, raises an error: its declared outputs (R252) but
for the records of R248 and R208: the two checksums once check 1 has passed, and after a stage-1 error
of UNPACK everything stage 0 wrote (R226; log 5, 19). -/
def unspecified (c : BitVec 4) (phase : BitVec 1) (e : ErrKind) : List Output :=
  match c.toNat with
  | 6 => if e = .truncatedFile then [.tb, .crcOut, .crcStored] else [.tb]
  | 8 =>
    if phase = 1 then [.ob]
    else if e = .truncatedFile then [.tb, .crcOut, .crcStored, .ob]
    else [.tb, .ob]
  | _ => outputs c

/-- The start of an operation: "STATUS.STATE becomes BUSY, ERR becomes 0 (NONE), ERR_INFO becomes 0" and
the code is latched in OPC (R21, R32). -/
def State.startOp (s : State) (c : BitVec 4) : State :=
  { s with
    status := .busy
    err := .none
    errInfo := 0
    work := { s.work with opc := c }
    seq := .opStart }

/-- The end of an operation that raised nothing: STATUS.STATE is DONE and ERR 0 (R32). Elements of its
output buffers at or beyond their lengths are unspecified (R200, U6; log 7), and so are the working
registers (R29; log 8). -/
def State.complete (s : State) (c : BitVec 4) : State :=
  { s with
    status := .done
    err := .none
    errInfo := 0
    tb := if .tb ∈ outputs c then s.tb.sealAt s.tbLen s.freeCount else s.tb
    ob := if .ob ∈ outputs c then s.ob.sealAt s.obLen s.freeCount else s.ob
    fb := if .fb ∈ outputs c then s.fb.sealAt s.fbLen s.freeCount else s.fb
    work := freeWork s.cfg s.freeCount
    seq := .opStart
    freeCount := s.freeCount + 1 }

/-- Taking an error, the one exceptional event (R240): "the operation stops at that point; `ERR <- e`;
`ERR_INFO <-` the value of rule R248; `STATUS.STATE <- ERROR`. That is all." (R251). The outputs it
leaves unspecified become free values (R252; log 5, 6); of an output buffer that stays valid, the
elements beyond its length do (log 7). -/
def State.raise (s : State) (c : BitVec 4) (phase : BitVec 1) (e : ErrKind) (info : Nat) : State :=
  { s with
    status := .error
    err := e
    errInfo := info
    crcOut := if .crcOut ∈ unspecified c phase e then Config.freeBits 32 1 s.freeCount else s.crcOut
    crcStored :=
      if .crcStored ∈ unspecified c phase e then Config.freeBits 32 2 s.freeCount else s.crcStored
    tbLen := if .tb ∈ unspecified c phase e then freeLength s.cfg.tw 3 s.freeCount else s.tbLen
    obLen := if .ob ∈ unspecified c phase e then freeLength s.cfg.aw 4 s.freeCount else s.obLen
    fbLen := if .fb ∈ unspecified c phase e then freeLength s.cfg.aw 5 s.freeCount else s.fbLen
    tb :=
      if .tb ∈ unspecified c phase e then Buf.forgotten s.freeCount
      else if .tb ∈ outputs c then s.tb.sealAt s.tbLen s.freeCount
      else s.tb
    ob := if .ob ∈ unspecified c phase e then Buf.forgotten s.freeCount else s.ob
    fb := if .fb ∈ unspecified c phase e then Buf.forgotten s.freeCount else s.fb
    work := freeWork s.cfg s.freeCount
    seq := .opStart
    freeCount := s.freeCount + 1 }

/-- A command that names no operation: "No operation runs; no buffer, no length register and no result
register changes; STATUS.STATE = ERROR, ERR = 7, ERR_INFO = 0" (R247). -/
def State.rejectCommand (s : State) : State :=
  { s with status := .error, err := .illegalCommand, errInfo := 0 }

end Sys2Proof.Machine
end

