-- ==== Sys2Proof/Machine/Operands.lean ====
section
/-! DEFINITION. The operand forms: the sequences an operation declares as inputs
(spec/30_encoding.md R104), cut at the length registers (spec/10_state.md R30), and `MemRead` and
`MemWrite` (spec/00_scope.md R14). There is no other operand form (R81, R94). -/

namespace Sys2Proof.Machine

/-- `IB[0 .. IB_LEN-1]`. -/
def State.ibBytes (s : State) : List Byte := (List.range s.ibLen).map s.ibAt

/-- `TB[0 .. TB_LEN-1]`. -/
def State.tbTokens (s : State) : List Token := (List.range s.tbLen).map s.tbAt

/-- `OB[0 .. OB_LEN-1]`. -/
def State.obBytes (s : State) : List Byte := (List.range s.obLen).map s.obAt

/-- `FB[0 .. FB_LEN-1]`. -/
def State.fbBytes (s : State) : List Byte := (List.range s.fbLen).map s.fbAt

/-- `MemRead(S, addr, n)` on a sequence: "the unsigned number formed from the `n` bytes", little-endian
(R14). -/
def memRead (bs : List Byte) (addr n : Nat) : Nat := leNat ((bs.drop addr).take n)

/-- `MemRead(FB, addr, n)` on the buffer itself. -/
def State.fbRead (s : State) (addr n : Nat) : Nat :=
  leNat ((List.range n).map fun j => s.fbAt (addr + j))

/-- `MemWrite(FB, addr, n, v)` (R14). -/
def State.fbWrite (s : State) (addr n v : Nat) : State :=
  { s with fb := s.fb.writeAll addr (leBytes n v) }

end Sys2Proof.Machine
end

