-- ==== Sys2Proof/Machine/Checksum.lean ====
section
/-! DEFINITION. The CRC-32 generator, unit CRC (spec/40_checksum.md): the function `checksum` and the
operation CRC32. -/

namespace Sys2Proof.Machine

/-- POLY (R9). -/
def crcPoly : Word32 := 0xEDB88320

/-- CRC_INIT (R9). -/
def crcInit : Word32 := 0xFFFFFFFF

/-- CRC_XOROUT (R9). -/
def crcXorOut : Word32 := 0xFFFFFFFF

/-- One serial shift/xor step: bit 0 is tested, the shift is to the right with a zero into bit 31, the
polynomial is XORed in after the shift (R121, R123; log 18). -/
def crcBit (r : Word32) : Word32 :=
  if r.getLsbD 0 then (r >>> 1) ^^^ crcPoly else r >>> 1

/-- `n` steps. -/
def crcBits : Nat → Word32 → Word32
  | 0, r => r
  | n + 1, r => crcBits n (crcBit r)

/-- `crc_byte(r, b)` (R131): the byte enters bits 7:0, then eight steps (R121). -/
def crcByte (r : Word32) (b : Byte) : Word32 := crcBits 8 (r ^^^ b.setWidth 32)

/-- `crc_fold(r, S)` (R131), index 0 first (R122). -/
def crcFold (r : Word32) (bs : List Byte) : Word32 := bs.foldl crcByte r

/-- `checksum(S)` (R121). -/
def checksum (bs : List Byte) : Word32 := crcFold crcInit bs ^^^ crcXorOut

/-- CRC32: "CRC_OUT <- checksum(IB[0 .. IB_LEN-1]);  STATUS.STATE <- DONE" (R121). -/
def execCrc32 (s : State) : Result :=
  .next (({ s with crcOut := checksum s.ibBytes }).complete 1)

end Sys2Proof.Machine
end

