-- ==== Sys2Proof/Machine/Decoder.lean ====
section
/-! DEFINITION. The token decoder, unit DEC (spec/43_token_decoder.md): the two tokens LIT and MATCH, the
function `decode` and the operation DECODE. -/

namespace Sys2Proof.Machine

/-- LIT's effect on the output sequence: `append(OB, symbol)` (R179). -/
def litBytes (cap : Option Nat) (out : List Byte) (symbol : Byte) : Except ErrKind (List Byte) :=
  appendTo cap out symbol

/-- The copy loop of R180, byte by byte: each round reads `output[start + i]` from the output as it
stands, so it "may reference bytes appended earlier within this same copy loop" (R76). The index is in
range whenever the reference check has passed (R81); a read outside it would be the invalid reference
R82 forbids. -/
def copyRun (cap : Option Nat) : Nat → Nat → List Byte → Except ErrKind (List Byte)
  | 0, _, out => .ok out
  | count + 1, index, out =>
    match out[index]? with
    | none => .error .invalidReference
    | some b =>
      match appendTo cap out b with
      | .error e => .error e
      | .ok out' => copyRun cap count (index + 1) out'

/-- MATCH's effect on the output sequence (R180): the reference check before anything is appended (R178),
the copy, then the symbol. -/
def matchBytes (cap : Option Nat) (out : List Byte) (offset length : Half) (symbol : Byte) :
    Except ErrKind (List Byte) :=
  if offset = 0 ∨ offset.toNat > out.length then .error .invalidReference
  else
    match copyRun cap length.toNat (out.length - offset.toNat) out with
    | .error e => .error e
    | .ok out' => appendTo cap out' symbol

/-- One token's effect on the output sequence, by the kind test of R96. -/
def tokenBytes (cap : Option Nat) (out : List Byte) (t : Token) : Except ErrKind (List Byte) :=
  if t.offset = 0 ∧ t.length = 0 then litBytes cap out t.symbol
  else matchBytes cap out t.offset t.length t.symbol

/-- The index an error of a token carries: the token's own for INVALID_REFERENCE, 0 otherwise (R248). -/
def tokenErrInfo (e : ErrKind) (k : Nat) : Nat :=
  if e = .invalidReference then k else 0

/-- The loop of `decode` (R177) from token index `k`: "for each token in order", the first error ends it
(R185). -/
def decodeFrom (cap : Option Nat) : Nat → List Byte → List Token → Except (ErrKind × Nat) (List Byte)
  | _, out, [] => .ok out
  | k, out, t :: ts =>
    match tokenBytes cap out t with
    | .error e => .error (e, tokenErrInfo e k)
    | .ok out' => decodeFrom cap (k + 1) out' ts

/-- `decode(tokens)` (R177), with OB's capacity. -/
def decodeTokens (cap : Option Nat) (ts : List Token) : Except (ErrKind × Nat) (List Byte) :=
  decodeFrom cap 0 [] ts

/-- DECODE: "OB[0 .. OB_LEN-1] <- decode(TB[0 .. TB_LEN-1]);  STATUS.STATE <- DONE" (R177). -/
def execDecode (s : State) : Result :=
  match decodeTokens s.cfg.obCap s.tbTokens with
  | .error (e, k) => .next (s.raise 4 0 e k)
  | .ok bs => .next ((s.putOutput bs).complete 4)

/-! ## The tokens as instructions: one token of a running DECODE or UNPACK -/

/-- The operation, and its stage, whose token is executed: stage 1 of UNPACK, else DECODE (log 17). -/
def tokenOwner (s : State) : BitVec 4 × BitVec 1 :=
  if s.work.opc = 8 then (8, 1) else (4, 0)

/-- An error raised by the token at TIX (R185, R251). -/
def State.raiseToken (s : State) (e : ErrKind) : State :=
  s.raise (tokenOwner s).1 (tokenOwner s).2 e (tokenErrInfo e s.work.tix)

/-- The output after a token: the bytes from the old OB_LEN on are written, OB_LEN is the new length, TIX
goes up by one (R176), and the decoder is ready for the next token. The other working registers are left
as the reference sequencing (R190) leaves them (log 17). -/
def State.afterToken (s : State) (out : List Byte) (w : Work) : State :=
  { s with
    ob := s.ob.writeAll s.obLen (out.drop s.obLen)
    obLen := out.length
    work := { w with tix := s.work.tix + 1 }
    seq := .dFetch }

/-- LIT symbol (R179). -/
def execLit (symbol : Byte) (s : State) : Result :=
  match litBytes s.cfg.obCap s.obBytes symbol with
  | .error e => .next (s.raiseToken e)
  | .ok out => .next (s.afterToken out { s.work with tOff := 0, tLen := 0, tSym := symbol })

/-- MATCH offset, length, symbol (R180). -/
def execMatchTok (offset length : Half) (symbol : Byte) (s : State) : Result :=
  match matchBytes s.cfg.obCap s.obBytes offset length symbol with
  | .error e => .next (s.raiseToken e)
  | .ok out =>
    .next (s.afterToken out
      { s.work with
        tOff := offset
        tLen := length
        tSym := symbol
        start := s.obLen - offset.toNat
        cpy := length })

end Sys2Proof.Machine
end

