-- ==== Sys2Proof/Machine/MatchFinder.lean ====
section
/-! DEFINITION. The match finder, unit MF (spec/41_match_finder.md): the function `find_longest_match` and
the operation FIND. -/

namespace Sys2Proof.Machine

/-- The extension loop for candidate `p`, from a match length `dl` (R138): the three conditions in their
order, "`p+dl < position`", "`position+dl` is within buffer bounds", the bytes agree. Each round raises
`dl`, so `position - p` rounds are enough (R139). -/
def extendMatch (buffer : List Byte) (position p : Nat) : Nat → Nat → Nat
  | 0, dl => dl
  | rounds + 1, dl =>
    if p + dl < position ∧ position + dl < buffer.length ∧
        buffer[p + dl]? = buffer[position + dl]? then
      extendMatch buffer position p rounds (dl + 1)
    else dl

/-- The match length of candidate `p` (R138). -/
def matchLength (buffer : List Byte) (position p : Nat) : Nat :=
  extendMatch buffer position p (position - p) 0

/-- The candidate loop from `p` down over a number of candidates, with the best `(offset, length)` so
far: a candidate replaces it only when "strictly greater" (R140). -/
def scanCandidates (buffer : List Byte) (position : Nat) : Nat → Nat → Nat × Nat → Nat × Nat
  | 0, _, best => best
  | count + 1, p, best =>
    let dl := matchLength buffer position p
    scanCandidates buffer position count (p - 1)
      (if dl > best.2 then (position - p, dl) else best)

/-- `find_longest_match(buffer, position, window_size)` (R136): candidates from `position - 1` down to
`max(0, position - window_size)`, both inclusive, `min(position, window_size)` of them (R137); the
result is `(0, 0)` when none matches (R141). -/
def findLongestMatch (buffer : List Byte) (position window : Nat) : Nat × Nat :=
  scanCandidates buffer position (min position window) (position - 1) (0, 0)

/-- FIND: "(MF_OFF, MF_LEN) <- find_longest_match(IB[0 .. IB_LEN-1], POS_IN, WINDOW)",
"STATUS.STATE <- DONE" (R136). Both results fit 16 bits (R146). -/
def execFind (s : State) : Result :=
  let m := findLongestMatch s.ibBytes s.posIn s.window.toNat
  .next (({ s with mfOff := BitVec.ofNat 16 m.1, mfLen := BitVec.ofNat 16 m.2 }).complete 2)

end Sys2Proof.Machine
end

