-- ==== Sys2Proof/Machine/Encoder.lean ====
section
/-! DEFINITION. The token encoder, unit ENC (spec/42_token_encoder.md): the function `encode` and the
operation ENCODE. -/

namespace Sys2Proof.Machine

/-- The token `encode` emits at a position, and how far the cursor moves: a match only when
"`length > 0` AND `position + length < len(buffer)`" (R158), else a literal (R159); the advance of
R157. `none` at or past the end, where the loop has ended (R160). -/
def nextToken (buffer : List Byte) (window position : Nat) : Option (Token × Nat) :=
  let m := findLongestMatch buffer position window
  if m.2 > 0 ∧ position + m.2 < buffer.length then
    (buffer[position + m.2]?).map fun symbol =>
      (⟨BitVec.ofNat 16 m.1, BitVec.ofNat 16 m.2, symbol⟩, m.2 + 1)
  else
    (buffer[position]?).map fun symbol => (⟨0, 0, symbol⟩, 1)

/-- The encoder's loop (R156), `append` raising CAPACITY when TB is full (R161). Each round covers at
least one byte, so `buffer.length` rounds are enough (R160). -/
def encodeFrom (cap : Option Nat) (buffer : List Byte) (window : Nat) :
    Nat → Nat → List Token → Except ErrKind (List Token)
  | 0, _, tokens => .ok tokens
  | rounds + 1, position, tokens =>
    match nextToken buffer window position with
    | none => .ok tokens
    | some (t, advance) =>
      match appendTo cap tokens t with
      | .error e => .error e
      | .ok tokens' => encodeFrom cap buffer window rounds (position + advance) tokens'

/-- `encode(buffer, window_size)` (R156), with TB's capacity. -/
def encodeTokens (cap : Option Nat) (buffer : List Byte) (window : Nat) :
    Except ErrKind (List Token) :=
  encodeFrom cap buffer window buffer.length 0 []

/-- ENCODE: "TB[0 .. TB_LEN-1] <- encode(IB[0 .. IB_LEN-1], WINDOW);  STATUS.STATE <- DONE" (R156). -/
def execEncode (s : State) : Result :=
  match encodeTokens s.cfg.tbCap s.ibBytes s.window.toNat with
  | .error e => .next (s.raise 3 0 e 0)
  | .ok ts => .next ((s.putTokens ts).complete 3)

end Sys2Proof.Machine
end

