-- ==== Sys2Proof/Machine/Flags.lean ====
section
/-! DEFINITION. The flag-like state (spec/10_state.md R33): the codes of STATUS.STATE and ERR as the host
reads them, and the computation of EQ. There are no condition codes (R33). -/

namespace Sys2Proof.Machine

/-- STATUS.STATE as the host reads it (R24). -/
def RunState.code : RunState → BitVec 2
  | .idle => 0
  | .busy => 1
  | .done => 2
  | .error => 3

/-- ERR as the host reads it (R25). -/
def ErrKind.code : ErrKind → BitVec 3
  | .none => 0
  | .truncatedFile => 1
  | .integrity => 2
  | .malformedRecord => 3
  | .invalidReference => 4
  | .io => 5
  | .capacity => 6
  | .illegalCommand => 7

/-- The element-wise comparison of CMP, on sequences of one length (R230). -/
def sameBytes : List Byte → List Byte → Bool
  | [], [] => true
  | a :: as, b :: bs => decide (a = b) && sameBytes as bs
  | [], _ :: _ => false
  | _ :: _, [] => false

/-- EQ: the "length check", "then element-wise comparison" (R230). -/
def equalityFlag (a b : List Byte) : BitVec 1 :=
  if a.length ≠ b.length then 0 else if sameBytes a b then 1 else 0

end Sys2Proof.Machine
end

