-- ==== Sys2Proof/Machine/Framer.lean ====
section
/-! DEFINITION. The binary format framer, unit FRM (spec/44_framer.md): the functions `serialize` and
`deserialize` and the operations SERIALIZE and DESERIALIZE. -/

namespace Sys2Proof.Machine

/-- The record bytes of a token sequence, in token order with nothing between them (R197). -/
def bodyBytes (ts : List Token) : List Byte := ts.flatMap recordBytes

/-- The frame of a token sequence: the records, then the little-endian checksum of all and only the record
bytes (R93, R198). -/
def frameBytes (ts : List Token) : List Byte :=
  bodyBytes ts ++ leBytes 4 (checksum (bodyBytes ts)).toNat

/-- `serialize(tokens)` (R196) on a state: CAPACITY before anything is written when `5*N + 4 > FB_CAP`
(R199), else the frame to FB and its checksum to CRC_OUT. -/
def State.serializeFrom (s : State) (ts : List Token) : Except ErrKind State :=
  if exceeds s.cfg.fbCap (5 * ts.length + 4) then .error .capacity
  else .ok { s.putFrame (frameBytes ts) with crcOut := checksum (bodyBytes ts) }

/-- SERIALIZE: "serialize(TB[0 .. TB_LEN-1]);  STATUS.STATE <- DONE" (R196). -/
def execSerialize (s : State) : Result :=
  match s.serializeFrom s.tbTokens with
  | .error e => .next (s.raise 5 0 e 0)
  | .ok t => .next (t.complete 5)

/-- What `deserialize` finds in a frame. -/
inductive ReadBack where
  /-- check 1 fails: fewer than 4 bytes (R203) -/
  | truncated
  /-- a later check fails, the two checksums being known (R208) -/
  | failed (e : ErrKind) (computed stored : Word32)
  /-- the tokens of the frame, and the two checksums -/
  | tokens (ts : List Token) (computed stored : Word32)
  deriving DecidableEq, Repr

/-- "partitions `body` into consecutive 5-byte records" (R205); every five bytes are a token (R206). -/
def parseRecords : List Byte → List Token
  | b0 :: b1 :: b2 :: b3 :: b4 :: rest => tokenOfBytes b0 b1 b2 b3 b4 :: parseRecords rest
  | _ => []

/-- `deserialize(content)` (R202), with TB's capacity: the split of R204, then the checks in the order of
R203 and R250. -/
def deserialize (cap : Option Nat) (content : List Byte) : ReadBack :=
  if content.length < 4 then .truncated
  else
    let body := content.take (content.length - 4)
    let stored := BitVec.ofNat 32 (memRead content (content.length - 4) 4)
    let computed := checksum body
    if computed ≠ stored then .failed .integrity computed stored
    else if body.length % 5 ≠ 0 then .failed .malformedRecord computed stored
    else if exceeds cap (body.length / 5) then .failed .capacity computed stored
    else .tokens (parseRecords body) computed stored

/-- DESERIALIZE: "TB[0 .. TB_LEN-1] <- deserialize(FB[0 .. FB_LEN-1]);  STATUS.STATE <- DONE" (R202);
CRC_OUT and CRC_STORED are written whenever check 1 passes (R208). -/
def execDeserialize (s : State) : Result :=
  match deserialize s.cfg.tbCap s.fbBytes with
  | .truncated => .next (s.raise 6 0 .truncatedFile 0)
  | .failed e computed stored => .next ((s.putSums computed stored).raise 6 0 e 0)
  | .tokens ts computed stored => .next (((s.putSums computed stored).putTokens ts).complete 6)

end Sys2Proof.Machine
end

