-- ==== Sys2Proof/Machine/Composite.lean ====
section
/-! DEFINITION. The composite operations PACK and UNPACK and the comparison CMP
(spec/45_composite_ops.md). -/

namespace Sys2Proof.Machine

/-- PACK: `encode`, then `serialize` of its tokens (R225); the first error ends it (R227). -/
def execPack (s : State) : Result :=
  match encodeTokens s.cfg.tbCap s.ibBytes s.window.toNat with
  | .error e => .next (s.raise 7 0 e 0)
  | .ok ts =>
    match (s.putTokens ts).serializeFrom ts with
    | .error e => .next ((s.putTokens ts).raise 7 1 e 0)
    | .ok t => .next (t.complete 7)

/-- Stage 0 of UNPACK, `deserialize` (R226): the state that enters stage 1, or the state after the error. -/
def State.unpackStage0 (s : State) : Except State State :=
  match deserialize s.cfg.tbCap s.fbBytes with
  | .truncated => .error (s.raise 8 0 .truncatedFile 0)
  | .failed e computed stored => .error ((s.putSums computed stored).raise 8 0 e 0)
  | .tokens ts computed stored => .ok ((s.putSums computed stored).putTokens ts)

/-- UNPACK: `deserialize`, then `decode` of its tokens (R226); "no byte is decoded from a frame whose
checksum does not verify". After an error in stage 1 the outputs of stage 0 are valid. -/
def execUnpack (s : State) : Result :=
  match s.unpackStage0 with
  | .error t => .next t
  | .ok t =>
    match decodeTokens t.cfg.obCap t.tbTokens with
    | .error (e, k) => .next (t.raise 8 1 e k)
    | .ok bs => .next ((t.putOutput bs).complete 8)

/-- CMP: EQ is 1 when IB and OB hold equal sequences, else 0 (R230). -/
def execCmp (s : State) : Result :=
  .next (({ s with eqFlag := equalityFlag s.ibBytes s.obBytes }).complete 9)

end Sys2Proof.Machine
end

