-- ==== Sys2Proof/Machine/Dispatch.lean ====
section
/-! DEFINITION. The dispatch: one arm per constructor of Instr. -/

namespace Sys2Proof.Machine

def exec (i : Instr) (s : State) : Host.Outcome State Fault Refusal :=
  match i with
  | .lit symbol => Sys2Proof.Machine.execLit symbol s
  | .matchTok offset length symbol => Sys2Proof.Machine.execMatchTok offset length symbol s
  | .crc32 => Sys2Proof.Machine.execCrc32 s
  | .find => Sys2Proof.Machine.execFind s
  | .encode => Sys2Proof.Machine.execEncode s
  | .decode => Sys2Proof.Machine.execDecode s
  | .serialize => Sys2Proof.Machine.execSerialize s
  | .deserialize => Sys2Proof.Machine.execDeserialize s
  | .pack => Sys2Proof.Machine.execPack s
  | .unpack => Sys2Proof.Machine.execUnpack s
  | .cmp => Sys2Proof.Machine.execCmp s

end Sys2Proof.Machine
end

