-- ==== Sys2Proof/Machine/HostPort.lean ====
section
/-! DEFINITION. The host's moves: the register map (spec/10_state.md R21 to R27, R30, R37), single elements of
the buffers (20_memory.md R70), the CMD write (R21, R32, R247) and reset (70_reset_and_hazards.md R280,
R281), with the moves the spec excludes refused by name (R288, R290; log 12). -/

namespace Sys2Proof.Machine

/-- The index of a register in the register map (R21 to R27, R30). Other indices do not exist (U20). -/
def Reg.index : Reg → Nat
  | .cmd => 0
  | .status => 1
  | .err => 2
  | .errInfo => 3
  | .window => 4
  | .posIn => 5
  | .ibLen => 6
  | .tbLen => 7
  | .obLen => 8
  | .fbLen => 9
  | .crcOut => 10
  | .crcStored => 11
  | .mfOff => 12
  | .mfLen => 13
  | .eq => 14

/-- The space a byte buffer is (R64). -/
def ByteSpace.space : ByteSpace → Space
  | .ib => .ib
  | .ob => .ob
  | .fb => .fb

/-- The capacity of a byte buffer (R60, R62, R63). -/
def ByteSpace.cap (c : Cfg) : ByteSpace → Option Nat
  | .ib => c.ibCap
  | .ob => c.obCap
  | .fb => c.fbCap

/-- Whether a number fits a register's width (R10, R22, R23). -/
def fits (width : Option Nat) (v : Nat) : Bool :=
  match width with
  | none => true
  | some w => decide (v < 2 ^ w)

/-- What a read of a register delivers. CMD "reads return an unspecified value" (R21; log 10). -/
def State.readReg (s : State) : Reg → Nat
  | .cmd => (Config.freeBits 4 6 s.freeCount).toNat
  | .status => s.status.code.toNat
  | .err => s.err.code.toNat
  | .errInfo => s.errInfo
  | .window => s.window.toNat
  | .posIn => s.posIn
  | .ibLen => s.ibLen
  | .tbLen => s.tbLen
  | .obLen => s.obLen
  | .fbLen => s.fbLen
  | .crcOut => s.crcOut.toNat
  | .crcStored => s.crcStored.toNat
  | .mfOff => s.mfOff.toNat
  | .mfLen => s.mfLen.toNat
  | .eq => s.eqFlag.toNat

/-- A register read: the value goes to the host, and nothing else changes (R71); a read of CMD takes a
free value of its own (log 10). -/
def State.deliverReg (s : State) (r : Reg) : State :=
  { s with
    bus := .num (s.readReg r)
    freeCount := if r = .cmd then s.freeCount + 1 else s.freeCount }

/-- A CMD write of a 4-bit value: ignored while BUSY (R21, R290), else the start of the operation it
names, else ILLEGAL_COMMAND (R32, R247). DESIGN CHOICE: it does so too in a state that is not well formed,
a length above its capacity after an error, to which R288 gives no meaning (log 28). -/
def State.writeCommand (s : State) (c : BitVec 4) : State :=
  if s.status = .busy then s
  else
    match decodeCommand c with
    | .ok _ => s.startOp c
    | .error _ => s.rejectCommand

/-- A length register write, at most the capacity and within the width (R30, R288). -/
def writeLength (b : Space) (r : Reg) (width cap : Option Nat) (v : Nat) (t : State) : Result :=
  if exceeds cap v then .refused (.lengthAboveCapacity b)
  else if fits width v then .next t
  else .refused (.valueTooWide r)

/-- A register write while the core is not BUSY (R37). A write of a register that is host read-only is
ignored (U20 of 93_implementation_defined.md for the bits of STATUS above STATE; R24 to R27, by which only
the core writes these; log 27). -/
def State.writeReg (s : State) (r : Reg) (v : Nat) : Result :=
  match r with
  | .cmd => if v < 16 then .next (s.writeCommand (BitVec.ofNat 4 v)) else .refused (.valueTooWide .cmd)
  | .window =>
    if v < 65536 then .next { s with window := BitVec.ofNat 16 v } else .refused (.valueTooWide .window)
  | .posIn => if fits s.cfg.aw v then .next { s with posIn := v } else .refused (.valueTooWide .posIn)
  | .ibLen => writeLength .ib .ibLen s.cfg.aw s.cfg.ibCap v { s with ibLen := v }
  | .tbLen => writeLength .tb .tbLen s.cfg.tw s.cfg.tbCap v { s with tbLen := v }
  | .obLen => writeLength .ob .obLen s.cfg.aw s.cfg.obCap v { s with obLen := v }
  | .fbLen => writeLength .fb .fbLen s.cfg.aw s.cfg.fbCap v { s with fbLen := v }
  | .status | .err | .errInfo | .crcOut | .crcStored | .mfOff | .mfLen | .eq => .next s

/-- One byte of a byte buffer (R70). -/
def State.byteAt (s : State) (b : ByteSpace) (i : Nat) : Byte :=
  match b with
  | .ib => s.ibAt i
  | .ob => s.obAt i
  | .fb => s.fbAt i

/-- Write one byte of a byte buffer (R70). -/
def State.setByte (s : State) (b : ByteSpace) (i : Nat) (v : Byte) : State :=
  match b with
  | .ib => { s with ib := s.ib.write i v }
  | .ob => { s with ob := s.ob.write i v }
  | .fb => { s with fb := s.fb.write i v }

/-- Reset "puts the core into the state of R36", in every state, BUSY included (R280 to R282). Buffer
contents become unspecified anew; the configuration and what belongs to the host stay (log 21). -/
def State.resetCore (s : State) : State :=
  { State.reset with
    cfg := s.cfg
    ib := { cells := [], epoch := s.freeCount }
    tb := { cells := [], epoch := s.freeCount }
    ob := { cells := [], epoch := s.freeCount }
    fb := { cells := [], epoch := s.freeCount }
    grain := s.grain
    agenda := s.agenda
    bus := s.bus
    freeCount := s.freeCount + 1 }

/-- A host move while the core is not BUSY. A buffer has no elements at or beyond its capacity (log 14). -/
def hostMove (s : State) : HostAct → Result
  | .writeReg r v => s.writeReg r v
  | .readReg r => .next (s.deliverReg r)
  | .writeByte b i v =>
    if full (b.cap s.cfg) i then .fault (.bufferIndex b.space i) else .next (s.setByte b i v)
  | .readByte b i =>
    if full (b.cap s.cfg) i then .fault (.bufferIndex b.space i)
    else .next { s with bus := .byte (s.byteAt b i) }
  | .writeToken i v =>
    if full s.cfg.tbCap i then .fault (.bufferIndex .tb i)
    else .next { s with tb := s.tb.write i v }
  | .readToken i =>
    if full s.cfg.tbCap i then .fault (.bufferIndex .tb i) else .next { s with bus := .token (s.tbAt i) }
  | .reset => .next s.resetCore

/-- The moves the host has while the core is BUSY: reading STATUS, a CMD write (which is ignored), reset
(R231, R281, R290). -/
def HostAct.allowedWhileBusy : HostAct → Bool
  | .readReg .status => true
  | .writeReg .cmd _ => true
  | .reset => true
  | _ => false

/-- A host move. -/
def hostStep (s : State) (a : HostAct) : Result :=
  if s.status = .busy ∧ a.allowedWhileBusy = false then .refused .hostAccessWhileBusy
  else hostMove s a

end Sys2Proof.Machine
end

