-- ==== Sys2Proof/Machine/Sequencer.lean ====
section
/-! DEFINITION. The reference sequencings, one row a step: CRC (spec/40_checksum.md R124), MF
(41_match_finder.md R143), ENC (42_token_encoder.md R167), DEC (43_token_decoder.md R190), FRM
(44_framer.md R201, R209), joined by OPC and PHASE (10_state.md R29; 45_composite_ops.md R225, R226) as
caller and callee (R7). "One correct realisation"; nothing of it is observable (R6; log 1, 20). -/

namespace Sys2Proof.Machine

/-- `S[i]` of R124: "IB for CRC32 and FB inside the framer". -/
def State.crcSource (s : State) (i : Nat) : Byte := if s.work.opc = 1 then s.ibAt i else s.fbAt i

/-- MF's `position`: "POS_IN (FIND) or POS (ENC)" (R143). -/
def State.mfPosition (s : State) : Nat := if s.work.opc = 2 then s.posIn else s.work.pos

/-- `append(TB, token)` and the cursor's advance, E_EMIT of R167. -/
def State.emitToken (s : State) (t : Token) (advance : Nat) : State :=
  if full s.cfg.tbCap s.tbLen then s.raise s.work.opc 0 .capacity 0
  else
    { s with
      tb := s.tb.write s.tbLen t
      tbLen := s.tbLen + 1
      work := { s.work with pos := s.work.pos + advance }
      seq := .eTest }

/-- `append(OB, b)` of DEC, then the registers and the row that follow (R190). -/
def State.emitByte (s : State) (b : Byte) (w : Work) (next : Seq) : State :=
  if full s.cfg.obCap s.obLen then s.raiseToken .capacity
  else { s with ob := s.ob.write s.obLen b, obLen := s.obLen + 1, work := w, seq := next }

/-- D_INIT (R190). -/
def State.beginTokens (s : State) : State :=
  { s with obLen := 0, work := { s.work with tix := 0 }, seq := .dFetch }

/-- D_DONE (R190), for DECODE and for stage 1 of UNPACK. -/
def State.finishTokens (s : State) : State := s.complete (tokenOwner s).1

/-- The first row of the operation in OPC; PHASE is 0 in the first stage of PACK and UNPACK (R225, R226).
A code that names no operation is rejected as R247 says (log 15). -/
def seqStart (s : State) : State :=
  match s.work.opc.toNat with
  | 1 => { s with work := { s.work with crcN := s.ibLen }, seq := .cInit }
  | 2 => { s with seq := .mInit }
  | 3 => { s with seq := .eInit }
  | 4 => { s with seq := .dInit }
  | 5 => { s with seq := .sInit }
  | 6 => { s with seq := .xLen }
  | 7 => { s with work := { s.work with phase := 0 }, seq := .eInit }
  | 8 => { s with work := { s.work with phase := 0 }, seq := .xLen }
  | 9 => { s with seq := .qCmp }
  | _ => s.rejectCommand

/-- C_FIN (R124): the result goes to CRC_OUT and to its user (R130): the end of CRC32, S_TRL of the
serializer, X_CMP of the deserializer. -/
def seqCrcDone (s : State) : State :=
  let t := { s with crcOut := s.work.crc ^^^ crcXorOut }
  match s.work.opc.toNat with
  | 1 => t.complete 1
  | 5 => { t with seq := .sTrl }
  | 7 => { t with seq := .sTrl }
  | _ => { t with seq := .xCmp }

/-- M_EXT (R143). -/
def seqExtend (s : State) : State :=
  let position := s.mfPosition
  let dl := s.work.dl.toNat
  if s.work.p + dl < position ∧ position + dl < s.ibLen ∧
      s.ibAt (s.work.p + dl) = s.ibAt (position + dl) then
    { s with work := { s.work with dl := s.work.dl + 1 } }
  else { s with seq := .mUpd }

/-- M_UPD (R143): "strictly greater" (R140), then the next candidate while P is above LO. -/
def seqUpdate (s : State) : State :=
  let w :=
    if s.work.dl.toNat > s.work.bestLen.toNat then
      { s.work with
        bestLen := s.work.dl
        bestOff := BitVec.ofNat 16 (s.mfPosition - s.work.p) }
    else s.work
  if w.p = w.lo then { s with work := w, seq := .mDone }
  else { s with work := { w with p := w.p - 1 }, seq := .mCand }

/-- E_EMIT (R167). -/
def seqEmit (s : State) : State :=
  let l := s.work.bestLen.toNat
  if l > 0 ∧ s.work.pos + l < s.ibLen then
    s.emitToken ⟨s.work.bestOff, s.work.bestLen, s.ibAt (s.work.pos + l)⟩ (l + 1)
  else s.emitToken ⟨0, 0, s.ibAt s.work.pos⟩ 1

/-- S_REC (R201): the five bytes of the record at `5*RIX`. -/
def seqRecord (s : State) : State :=
  if s.work.rix = s.tbLen then { s with seq := .sCrc }
  else
    let t := s.tbAt s.work.rix
    { s with
      fb := s.fb.writeAll (5 * s.work.rix) (recordBytes t)
      work :=
        { s.work with tOff := t.offset, tLen := t.length, tSym := t.symbol, rix := s.work.rix + 1 } }

/-- X_REC (R209): the token of the five bytes at `5*RIX` (R94). -/
def seqParse (s : State) : State :=
  if 5 * s.work.rix = s.work.bodyLen then { s with seq := .xDone }
  else
    let a := 5 * s.work.rix
    let t := tokenOfBytes (s.fbAt a) (s.fbAt (a + 1)) (s.fbAt (a + 2)) (s.fbAt (a + 3)) (s.fbAt (a + 4))
    { s with
      tb := s.tb.write s.work.rix t
      work :=
        { s.work with tOff := t.offset, tLen := t.length, tSym := t.symbol, rix := s.work.rix + 1 } }

/-- One row of the reference sequencing. -/
def microStep (s : State) : State :=
  match s.seq with
  | .opStart => seqStart s
  -- CRC, R124
  | .cInit => { s with work := { s.work with crc := crcInit, bix := 0 }, seq := .cByte }
  | .cByte =>
    if s.work.bix = s.work.crcN then { s with seq := .cFin }
    else
      { s with
        work :=
          { s.work with
            crc := s.work.crc ^^^ (s.crcSource s.work.bix).setWidth 32
            bitcnt := 0 }
        seq := .cBit }
  | .cBit =>
    if s.work.bitcnt + 1 = 8 then
      { s with
        work :=
          { s.work with
            crc := crcBit s.work.crc
            bitcnt := s.work.bitcnt + 1
            bix := s.work.bix + 1 }
        seq := .cByte }
    else { s with work := { s.work with crc := crcBit s.work.crc, bitcnt := s.work.bitcnt + 1 } }
  | .cFin => seqCrcDone s
  -- MF, R143
  | .mInit =>
    let w :=
      { s.work with bestOff := 0, bestLen := 0, lo := s.mfPosition - s.window.toNat }
    if s.mfPosition = 0 ∨ s.window = 0 then { s with work := w, seq := .mDone }
    else { s with work := { w with p := s.mfPosition - 1 }, seq := .mCand }
  | .mCand => { s with work := { s.work with dl := 0 }, seq := .mExt }
  | .mExt => seqExtend s
  | .mUpd => seqUpdate s
  | .mDone =>
    if s.work.opc = 2 then
      ({ s with mfOff := s.work.bestOff, mfLen := s.work.bestLen }).complete 2
    else { s with seq := .eEmit }
  -- ENC, R167
  | .eInit => { s with tbLen := 0, work := { s.work with pos := 0 }, seq := .eTest }
  | .eTest => if s.work.pos = s.ibLen then { s with seq := .eDone } else { s with seq := .eFind }
  | .eFind => { s with seq := .mInit }
  | .eEmit => seqEmit s
  | .eDone =>
    if s.work.opc = 7 then { s with work := { s.work with phase := 1 }, seq := .sInit }
    else s.complete s.work.opc
  -- DEC, R190
  | .dInit => s.beginTokens
  | .dFetch =>
    if s.work.tix = s.tbLen then { s with seq := .dDone }
    else
      let t := s.tbAt s.work.tix
      { s with
        work := { s.work with tOff := t.offset, tLen := t.length, tSym := t.symbol }
        seq := if t.offset = 0 ∧ t.length = 0 then .dSym else .dCheck }
  | .dCheck =>
    if s.work.tOff = 0 ∨ s.work.tOff.toNat > s.obLen then s.raiseToken .invalidReference
    else
      { s with
        work := { s.work with start := s.obLen - s.work.tOff.toNat, cpy := 0 }
        seq := .dCopy }
  | .dCopy =>
    if s.work.cpy = s.work.tLen then { s with seq := .dSym }
    else
      s.emitByte (s.obAt (s.work.start + s.work.cpy.toNat)) { s.work with cpy := s.work.cpy + 1 }
        .dCopy
  | .dSym => s.emitByte s.work.tSym { s.work with tix := s.work.tix + 1 } .dFetch
  | .dDone => s.finishTokens
  -- FRM serialize, R201
  | .sInit =>
    if exceeds s.cfg.fbCap (5 * s.tbLen + 4) then s.raise s.work.opc s.work.phase .capacity 0
    else { s with work := { s.work with rix := 0, bodyLen := 5 * s.tbLen }, seq := .sRec }
  | .sRec => seqRecord s
  | .sCrc => { s with work := { s.work with crcN := s.work.bodyLen }, seq := .cInit }
  | .sTrl =>
    { s.fbWrite s.work.bodyLen 4 s.crcOut.toNat with fbLen := s.work.bodyLen + 4, seq := .sDone }
  | .sDone => s.complete s.work.opc
  -- FRM deserialize, R209
  | .xLen =>
    if s.fbLen < 4 then s.raise s.work.opc 0 .truncatedFile 0
    else { s with work := { s.work with bodyLen := s.fbLen - 4 }, seq := .xCrc }
  | .xCrc =>
    { s with
      crcStored := BitVec.ofNat 32 (s.fbRead s.work.bodyLen 4)
      work := { s.work with crcN := s.work.bodyLen }
      seq := .cInit }
  | .xCmp =>
    if s.crcOut ≠ s.crcStored then s.raise s.work.opc 0 .integrity 0 else { s with seq := .xAlign }
  | .xAlign =>
    if s.work.bodyLen % 5 ≠ 0 then s.raise s.work.opc 0 .malformedRecord 0
    else if exceeds s.cfg.tbCap (s.work.bodyLen / 5) then s.raise s.work.opc 0 .capacity 0
    else { s with work := { s.work with rix := 0 }, seq := .xRec }
  | .xRec => seqParse s
  | .xDone =>
    let t := { s with tbLen := s.work.rix }
    if s.work.opc = 8 then { t with work := { s.work with phase := 1 }, seq := .dInit }
    else t.complete s.work.opc
  -- CMP (R230) has no table
  | .qCmp => ({ s with eqFlag := equalityFlag s.ibBytes s.obBytes }).complete 9

end Sys2Proof.Machine
end

