-- ==== Sys2Proof/Machine/Fetch.lean ====
section
/-! DEFINITION. What the next step does: whose turn it is, and in the core's turn which instruction is
fetched, the operation latched in OPC (spec/10_state.md R21, R29) or the token at TIX (R28;
43_token_decoder.md R176), or which row of the reference sequencing follows (log 1, 11). -/

namespace Sys2Proof.Machine

/-- Whose turn the next step is: the head of the agenda, the core's when it is empty (log 11). -/
def State.turn (s : State) : Turn := s.agenda.headD .core

/-- The state with the turn taken off the agenda. -/
def State.popTurn (s : State) : State := { s with agenda := s.agenda.tail }

/-- What the core does in its turn. -/
inductive Move where
  /-- execute a decoded instruction -/
  | run (i : Instr)
  /-- go to a state: a row of the sequencing, an idle turn, the end of a token sequence -/
  | goto (t : State)
  deriving DecidableEq, Repr

/-- The instruction fetch of an operation: the code in OPC, decoded; a code that names no operation is
rejected as R247 says (log 15). -/
def fetchOperation (s : State) : Move :=
  match decodeCommand s.work.opc with
  | .ok i => .run i
  | .error _ => .goto s.rejectCommand

/-- The instruction fetch of a token: `TB[TIX]`, decoded, until TIX reaches TB_LEN (R176, D_FETCH of
R190). -/
def fetchToken (s : State) : Move :=
  if s.work.tix = s.tbLen then .goto s.finishTokens else .run (decodeToken (s.tbAt s.work.tix))

/-- The start of an operation when instructions are stepped: DECODE and UNPACK go to their first token,
UNPACK through its stage 0; every other operation is one instruction. -/
def fetchStepped (s : State) : Move :=
  if s.work.opc = 4 then .goto s.beginTokens
  else if s.work.opc = 8 then
    match s.unpackStage0 with
    | .error t => .goto t
    | .ok t => .goto { t with work := { t.work with phase := 1 } }.beginTokens
  else fetchOperation s

/-- The core's turn: nothing unless BUSY ("After reset the core does nothing until the host writes CMD",
R280), else by the grain (log 1). A state between two tokens goes on token by token at any grain but
`micro`, and one inside a sequencing goes on row by row. -/
def coreMove (s : State) : Move :=
  if s.status ≠ .busy then .goto s
  else
    match s.grain, s.seq with
    | .micro, _ => .goto (microStep s)
    | .operation, .opStart => fetchOperation s
    | .instruction, .opStart => fetchStepped s
    | _, .dFetch => fetchToken s
    | _, _ => .goto (microStep s)

/-- Place a word where the next step fetches its instruction (log 16). A row of at most one byte is a CMD
value: the state is as the host's CMD write leaves it, at the grain at which the operation is one
instruction. A longer row is a token record: it is stored at `TB[TIX]`, inside the token sequence of a
running DECODE. -/
def State.placeWord (s : State) (nbits w : Nat) : State :=
  let agenda := if s.agenda = [] then [] else .core :: s.agenda
  if nbits ≤ 8 then
    { s.startOp (BitVec.ofNat 4 w) with grain := .operation, agenda := agenda }
  else
    let t := s.startOp 4
    { t with
      tb := s.tb.write s.work.tix (tokenOfWord (BitVec.ofNat 40 w))
      tbLen := max s.tbLen (s.work.tix + 1)
      seq := .dFetch
      grain := if s.grain = .micro then .instruction else s.grain
      agenda := agenda }

end Sys2Proof.Machine
end

