-- ==== Sys2Proof/Machine/Step.lean ====
section
/-! DEFINITION. One step of the machine: the turn at the head of the agenda, the host's or the core's. -/

namespace Sys2Proof.Machine

/-- One step. -/
def step (s : State) : Host.Outcome State Fault Refusal :=
  match s.turn with
  | .host a => hostStep s.popTurn a
  | .core =>
    match coreMove s.popTurn with
    | .run i => exec i s.popTurn
    | .goto t => .next t

/-- The state whose next step fetches and runs the instruction of a word (log 16). -/
def State.withFetchWord (s : State) (nbits w : Nat) : State := s.placeWord nbits w

end Sys2Proof.Machine
end

