-- ==== Sys2Proof/Safety.lean ====
section
/-! DEFINITION. The terms in which claims are stated: how an operation ends, what it keeps, well-formed
states (spec/70_reset_and_hazards.md R288) and the invariant of every step. -/

namespace Sys2Proof.Machine

/-! ## How an operation ends (R32) -/

/-- DONE, with no error recorded. -/
def State.EndsDone (t : State) : Prop :=
  t.status = .done ∧ t.err = .none ∧ t.errInfo = 0

/-- ERROR, with a kind and its information (R251). -/
def State.EndsError (t : State) (e : ErrKind) (info : Nat) : Prop :=
  t.status = .error ∧ t.err = e ∧ t.errInfo = info

/-! ## What a step keeps: each buffer with its length, element by element, and each result register -/

/-- IB and IB_LEN. -/
def KeepsIb (s t : State) : Prop := t.ibLen = s.ibLen ∧ ∀ a, t.ibAt a = s.ibAt a

/-- TB and TB_LEN. -/
def KeepsTb (s t : State) : Prop := t.tbLen = s.tbLen ∧ ∀ a, t.tbAt a = s.tbAt a

/-- OB and OB_LEN. -/
def KeepsOb (s t : State) : Prop := t.obLen = s.obLen ∧ ∀ a, t.obAt a = s.obAt a

/-- FB and FB_LEN. -/
def KeepsFb (s t : State) : Prop := t.fbLen = s.fbLen ∧ ∀ a, t.fbAt a = s.fbAt a

/-- CRC_OUT. -/
def KeepsCrcOut (s t : State) : Prop := t.crcOut = s.crcOut

/-- CRC_STORED. -/
def KeepsCrcStored (s t : State) : Prop := t.crcStored = s.crcStored

/-- MF_OFF and MF_LEN. -/
def KeepsFind (s t : State) : Prop := t.mfOff = s.mfOff ∧ t.mfLen = s.mfLen

/-- EQ. -/
def KeepsEq (s t : State) : Prop := t.eqFlag = s.eqFlag

/-- What no operation and no token writes (R35, R37): WINDOW, POS_IN, IB and IB_LEN, and the model's own
configuration, grain, agenda and bus. -/
def KeepsControl (s t : State) : Prop :=
  t.window = s.window ∧ t.posIn = s.posIn ∧ KeepsIb s t ∧
  t.cfg = s.cfg ∧ t.grain = s.grain ∧ t.agenda = s.agenda ∧ t.bus = s.bus

/-- What a declared output (R104) stands for. -/
def Output.Kept (o : Output) (s t : State) : Prop :=
  match o with
  | .crcOut => KeepsCrcOut s t
  | .crcStored => KeepsCrcStored s t
  | .mf => KeepsFind s t
  | .eq => KeepsEq s t
  | .tb => KeepsTb s t
  | .ob => KeepsOb s t
  | .fb => KeepsFb s t

/-- The frame of an operation with a list of outputs: everything else is kept (R35). -/
def KeepsAllBut (outs : List Output) (s t : State) : Prop :=
  KeepsControl s t ∧ ∀ o : Output, o ∉ outs → o.Kept s t

/-- What an error raised by a token keeps: everything but OB and OB_LEN, of TB the tokens of the sequence
(R252, and R226 for a token of UNPACK). -/
def KeepsDecoderInputs (s t : State) : Prop :=
  KeepsControl s t ∧ KeepsFb s t ∧ KeepsFind s t ∧ KeepsEq s t ∧ KeepsCrcOut s t ∧ KeepsCrcStored s t ∧
  t.tbLen = s.tbLen ∧ ∀ k, k < s.tbLen → t.tbAt k = s.tbAt k

/-! ## The declared inputs and outputs of R104, as values -/

/-- Two states agree on the declared inputs of the operation with a code (R104), and on the parameters. -/
def InputsAgree (c : BitVec 4) (s s' : State) : Prop :=
  s.cfg = s'.cfg ∧
  match c.toNat with
  | 1 => s.ibBytes = s'.ibBytes
  | 2 => s.ibBytes = s'.ibBytes ∧ s.posIn = s'.posIn ∧ s.window = s'.window
  | 3 => s.ibBytes = s'.ibBytes ∧ s.window = s'.window
  | 4 => s.tbTokens = s'.tbTokens
  | 5 => s.tbTokens = s'.tbTokens
  | 6 => s.fbBytes = s'.fbBytes
  | 7 => s.ibBytes = s'.ibBytes ∧ s.window = s'.window
  | 8 => s.fbBytes = s'.fbBytes
  | 9 => s.ibBytes = s'.ibBytes ∧ s.obBytes = s'.obBytes
  | _ => True

/-- Two states hold one value of an output: a register, or a buffer's sequence. -/
def Output.SameValue (o : Output) (t t' : State) : Prop :=
  match o with
  | .crcOut => t.crcOut = t'.crcOut
  | .crcStored => t.crcStored = t'.crcStored
  | .mf => t.mfOff = t'.mfOff ∧ t.mfLen = t'.mfLen
  | .eq => t.eqFlag = t'.eqFlag
  | .tb => t.tbTokens = t'.tbTokens
  | .ob => t.obBytes = t'.obBytes
  | .fb => t.fbBytes = t'.fbBytes

/-! ## The units' functions, said without their loops -/

/-- The three conditions of R142 on a match length `dl` of candidate `p`. -/
def Agrees (buffer : List Byte) (position p dl : Nat) : Prop :=
  dl ≤ position - p ∧ dl ≤ buffer.length - position ∧
  ∀ j, j < dl → buffer[p + j]? = buffer[position + j]?

/-- `L` is `L(p)` of R142: the largest `dl` the conditions admit. -/
def IsMatchLength (buffer : List Byte) (position p L : Nat) : Prop :=
  Agrees buffer position p L ∧ ∀ dl, Agrees buffer position p dl → dl ≤ L

/-- The candidate set of R137: `max(0, position - window_size) <= p <= position - 1`. -/
def Candidate (position window p : Nat) : Prop := position - window ≤ p ∧ p < position

/-- `tokens` is what the encoder's policy gives from a position (R156 to R160): at each position below the
end, a match token when the match finder's answer has a length above 0 and ends before the buffer does
(R158), else a literal (R159), and the cursor moves past what the token covers (R157). -/
def EncodesFrom (buffer : List Byte) (window : Nat) : Nat → List Token → Prop
  | position, [] => position = buffer.length
  | position, t :: ts =>
    let m := findLongestMatch buffer position window
    position < buffer.length ∧
    if m.2 > 0 ∧ position + m.2 < buffer.length then
      t.offset.toNat = m.1 ∧ t.length.toNat = m.2 ∧ buffer[position + m.2]? = some t.symbol ∧
        EncodesFrom buffer window (position + m.2 + 1) ts
    else
      t.offset = 0 ∧ t.length = 0 ∧ buffer[position]? = some t.symbol ∧
        EncodesFrom buffer window (position + 1) ts

/-- The output after one token, by the closed form of R183; none where R178's check fails. -/
def replayToken (out : List Byte) (t : Token) : Option (List Byte) :=
  if t.offset = 0 ∧ t.length = 0 then some (out ++ [t.symbol])
  else if t.offset = 0 ∨ out.length < t.offset.toNat then none
  else
    some (out ++
      (List.range t.length.toNat).map
        (fun i => out.getD (out.length - t.offset.toNat + i % t.offset.toNat) 0) ++ [t.symbol])

/-- The output of a token sequence; none if a token's reference is invalid. -/
def replay : List Byte → List Token → Option (List Byte)
  | out, [] => some out
  | out, t :: ts => (replayToken out t).bind fun out' => replay out' ts

/-! ## States -/

/-- The four buffers have the canonical form. -/
def State.MemoryWf (s : State) : Prop :=
  Memory.wf s.ib.cells ∧ Memory.wf s.tb.cells ∧ Memory.wf s.ob.cells ∧ Memory.wf s.fb.cells

/-- Every length is at most its capacity (R30, R288). -/
def State.LengthsLegal (s : State) : Prop :=
  exceeds s.cfg.ibCap s.ibLen = false ∧ exceeds s.cfg.tbCap s.tbLen = false ∧
  exceeds s.cfg.obCap s.obLen = false ∧ exceeds s.cfg.fbCap s.fbLen = false

/-- A well-formed start state (R288): the status, the lengths, the widths (R10). WINDOW holds a value of
its width by its type. -/
def State.WellFormedStart (s : State) : Prop :=
  s.status ≠ .busy ∧ s.LengthsLegal ∧ s.cfg.wf = true ∧ fits s.cfg.aw s.posIn = true

/-- ERR and ERR_INFO as R25 and R26 bind them: ERR is 0 in every state but ERROR, where it is a kind;
ERR_INFO is 0 but for INVALID_REFERENCE. -/
def State.ErrorRegsLegal (s : State) : Prop :=
  (s.status = .error ↔ s.err ≠ .none) ∧ (s.err ≠ .invalidReference → s.errInfo = 0)

/-- The core is about to run the operation with a code: BUSY, the code latched, nothing begun, no host
move waiting (R32, R290). -/
def State.Latched (s : State) (c : BitVec 4) : Prop :=
  s.status = .busy ∧ s.seq = .opStart ∧ s.work.opc = c ∧ s.agenda = []

/-- What the reference sequencing of FRM keeps while it runs, so that the length it writes at its end is
legal: the serializer's frame fits FB (R199), the deserializer's records fit TB (R207). -/
def State.SeqLegal (s : State) : Prop :=
  match s.seq with
  | .sRec | .sCrc | .sTrl => exceeds s.cfg.fbCap (s.work.bodyLen + 4) = false
  | .cInit | .cByte | .cBit | .cFin =>
    (s.work.opc = 5 ∨ s.work.opc = 7) → exceeds s.cfg.fbCap (s.work.bodyLen + 4) = false
  | .xLen | .xCrc => s.work.opc ≠ 5 ∧ s.work.opc ≠ 7
  | .xRec => 5 * s.work.rix ≤ s.work.bodyLen ∧ s.work.bodyLen % 5 = 0 ∧
      exceeds s.cfg.tbCap (s.work.bodyLen / 5) = false
  | .xDone => exceeds s.cfg.tbCap s.work.rix = false
  | _ => True

/-- Every element of TB's sequence has been written, so that none of them is a free value. -/
def State.TokensWritten (s : State) : Prop :=
  ∀ k, k < s.tbLen → (Memory.get? s.tb.cells k).isSome = true

/-- What stage 0 of UNPACK leaves to stage 1 (R226): while the records are read back, every token up to RIX
is written; while stage 1 decodes, every token of TB is. -/
def State.StageLegal (s : State) : Prop :=
  s.status = .busy →
    match s.seq with
    | .xRec | .xDone => ∀ k, k < s.work.rix → (Memory.get? s.tb.cells k).isSome = true
    | .dInit | .dFetch | .dCheck | .dCopy | .dSym | .dDone => s.work.opc = 8 → s.TokensWritten
    | _ => True

/-- The invariant of every step: canonical memories (R71), IB_LEN legal (R30; the core never writes it), the
error registers (R25, R26), ERR never IO (R245), and what the sequencing needs. The other lengths are no part of
it: after an error they "may hold anything" (R252). -/
def State.Inv (s : State) : Prop :=
  s.MemoryWf ∧ exceeds s.cfg.ibCap s.ibLen = false ∧ s.ErrorRegsLegal ∧ s.err ≠ .io ∧ s.SeqLegal

end Sys2Proof.Machine
end

