-- ==== Sys2Proof/Certificates/Slice0/Obligations.lean ====
section
/-! DEFINITION. The statements for the provers. Every statement about a free value holds for every value of
it; hypotheses are about the state and the operands alone unless the docstring says otherwise. -/

open Sys2Proof Sys2Proof.Machine

/-! ## Encodings -/

/-- Decoding an encoded instruction gives it back, for every well-formed instruction and every value of
every field. -/
def Obligations.DecodeInvertsEncode : Prop :=
  ∀ i : Instr, i.wellFormed = true → decodeCode (encodeInstr i) = .ok i

/-- What decodes to an instruction is that instruction's encoding, and the instruction is well formed: no
instruction has two encodings. -/
def Obligations.EncodeInvertsDecode : Prop :=
  ∀ (code : Code) (i : Instr), decodeCode code = .ok i → encodeInstr i = code ∧ i.wellFormed = true

/-- R96: the kind test on the 40-bit word. LIT is `W & 0x00FFFFFFFF == 0`, one word for each symbol; every
other word is a MATCH with the fields of R91. -/
def Obligations.TokenKindIsDecidedByOffsetAndLength : Prop :=
  ∀ w : BitVec 40,
    decodeToken (tokenOfWord w) =
      (if w &&& 0x00FFFFFFFF = 0 then .lit (w.extractLsb' 32 8)
       else .matchTok (w.extractLsb' 0 16) (w.extractLsb' 16 16) (w.extractLsb' 32 8)) ∧
    ((∃ s, decodeToken (tokenOfWord w) = .lit s) ↔ ∃ s : Byte, w = s ++ (0 : BitVec 32))

/-- The word view of a token and its five bytes are one encoding: the word's little-endian bytes are the
record, and the fields read from either are the token. -/
def Obligations.WordAndRecordAreOneEncoding : Prop :=
  ∀ t : Token,
    leBytes 5 (tokenWord t).toNat = recordBytes t ∧ tokenOfWord (tokenWord t) = t ∧
    decodeCode (.record (recordBytes t)) = .ok (decodeToken t)

/-- Words written out from the spec's encodings decode to the instructions they stand for. That a table word
of at most 8 bits is a CMD value is the model's choice (log 16). -/
def Obligations.SampleWordsDecode : Prop :=
  decodeTableWord 40 0x4100000000 = some (.lit 0x41) ∧
  decodeTableWord 40 0xEFABCD1234 = some (.matchTok 0x1234 0xABCD 0xEF) ∧
  decodeCode (.record [0x34, 0x12, 0xCD, 0xAB, 0xEF]) = .ok (.matchTok 0x1234 0xABCD 0xEF) ∧
  decodeTableWord 8 1 = some .crc32 ∧ decodeTableWord 8 6 = some .deserialize ∧
  decodeTableWord 8 9 = some .cmp ∧ decodeTableWord 8 0 = none ∧ decodeTableWord 8 10 = none

/-! ## The step -/

/-- In the core's turn, a BUSY core runs the instruction it fetches: the operation latched in OPC, or the
token at TIX, on the state with the turn taken; after the last token the operation completes. -/
def Obligations.StepRunsTheDecodedInstruction : Prop :=
  ∀ s : State, s.turn = .core → s.status = .busy →
    (∀ i, s.seq = .opStart → decodeCommand s.work.opc = .ok i →
      (s.grain = .operation ∨ s.grain = .instruction ∧ s.work.opc ≠ 4 ∧ s.work.opc ≠ 8) →
      step s = exec i s.popTurn) ∧
    (s.seq = .dFetch → s.grain ≠ .micro → s.work.tix ≠ s.tbLen →
      step s = exec (decodeToken (s.tbAt s.work.tix)) s.popTurn) ∧
    (s.seq = .dFetch → s.grain ≠ .micro → s.work.tix = s.tbLen →
      step s = .next s.popTurn.finishTokens)

/-- A word placed for the next step is what the next step decodes and runs, whatever the state. -/
def Obligations.PlacedWordRunsNext : Prop :=
  ∀ (s : State) (nbits w : Nat) (i : Instr), decodeTableWord nbits w = some i →
    step (s.withFetchWord nbits w) = exec i (s.withFetchWord nbits w).popTurn

/-- R32: STATUS.STATE moves only by a legal CMD write, an illegal CMD write, the end of an operation, or
reset. -/
def Obligations.StatusMovesOnlyAsListed : Prop :=
  ∀ s t : State, step s = .next t →
    t.status = s.status ∨
    (s.status ≠ .busy ∧ t.status = .busy ∧ t.err = .none ∧ t.errInfo = 0 ∧
      ∃ v, s.turn = .host (.writeReg .cmd v) ∧ 1 ≤ v ∧ v ≤ 9 ∧ t.work.opc = BitVec.ofNat 4 v) ∨
    (s.status ≠ .busy ∧ t.EndsError .illegalCommand 0 ∧
      ∃ v, s.turn = .host (.writeReg .cmd v) ∧ (v = 0 ∨ 10 ≤ v)) ∨
    (s.status = .busy ∧ s.turn = .core ∧ t.EndsDone) ∨
    (s.status = .busy ∧ s.turn = .core ∧ t.status = .error ∧ t.err ≠ .none ∧
      (t.err ≠ .invalidReference → t.errInfo = 0)) ∨
    (s.turn = .host .reset ∧ t.status = .idle)

/-! ## Reset and the host -/

/-- Reset, in every state, gives the registers of R36 and empty sequences (R280); the reset state itself has
the same registers; and in every state that is not BUSY, after reset, DONE or ERROR, the core does nothing in
its turns until the host writes CMD. That reset keeps the parameters is the model's choice (log 2, 21), and so
are the turns, by which the step of the reset state is itself (log 11). -/
def Obligations.ResetGivesTheResetState : Prop :=
  (∀ s : State, ∃ t, hostStep s .reset = .next t ∧
    t.status = .idle ∧ t.err = .none ∧ t.errInfo = 0 ∧ t.window = 4096 ∧ t.posIn = 0 ∧
    t.ibLen = 0 ∧ t.tbLen = 0 ∧ t.obLen = 0 ∧ t.fbLen = 0 ∧ t.crcOut = 0 ∧ t.crcStored = 0 ∧
    t.mfOff = 0 ∧ t.mfLen = 0 ∧ t.eqFlag = 0 ∧ t.cfg = s.cfg ∧
    (t.turn = .core → step t = .next t.popTurn)) ∧
  (∀ s : State, s.status ≠ .busy → s.turn = .core → step s = .next s.popTurn) ∧
  State.reset.status = .idle ∧ State.reset.err = .none ∧ State.reset.errInfo = 0 ∧
  State.reset.window = 4096 ∧ State.reset.posIn = 0 ∧ State.reset.ibBytes = [] ∧
  State.reset.tbTokens = [] ∧ State.reset.obBytes = [] ∧ State.reset.fbBytes = [] ∧
  State.reset.crcOut = 0 ∧ State.reset.crcStored = 0 ∧ State.reset.mfOff = 0 ∧
  State.reset.mfLen = 0 ∧ State.reset.eqFlag = 0 ∧ step State.reset = .next State.reset

/-- A CMD write of 1 to 9 while not BUSY starts that operation: BUSY, ERR and ERR_INFO cleared, the code
latched, nothing else changed; an earlier error is gone. That it does so with a length above its capacity too is
the model's choice (log 28). -/
def Obligations.LegalCommandStartsTheOperation : Prop :=
  ∀ (s : State) (v : Nat), s.status ≠ .busy → 1 ≤ v → v ≤ 9 →
    ∃ t, hostStep s (.writeReg .cmd v) = .next t ∧
      t.status = .busy ∧ t.err = .none ∧ t.errInfo = 0 ∧ t.work.opc = BitVec.ofNat 4 v ∧
      t.seq = .opStart ∧ (∃ i, decodeCommand t.work.opc = .ok i) ∧ KeepsAllBut [] s t

/-- R247: a CMD write of 0 or of 10 to 15 while not BUSY raises ILLEGAL_COMMAND and changes nothing else. -/
def Obligations.IllegalCommandChangesNothingElse : Prop :=
  ∀ (s : State) (v : Nat), s.status ≠ .busy → (v = 0 ∨ 10 ≤ v ∧ v ≤ 15) →
    ∃ t, hostStep s (.writeReg .cmd v) = .next t ∧
      t.EndsError .illegalCommand 0 ∧ t.err.code = 7 ∧ KeepsAllBut [] s t

/-- R290: while BUSY the host may read STATUS, a CMD write is ignored, and every other move but reset does
not exist. -/
def Obligations.HostHasNoMoveWhileBusy : Prop :=
  ∀ s : State, s.status = .busy →
    (∃ t, hostStep s (.readReg .status) = .next t ∧ t.bus = .num 1 ∧ { t with bus := s.bus } = s) ∧
    (∀ v, v < 16 → hostStep s (.writeReg .cmd v) = .next s) ∧
    (∀ a, a ≠ .readReg .status → (∀ v, a ≠ .writeReg .cmd v) → a ≠ .reset →
      hostStep s a = .refused .hostAccessWhileBusy)

/-- A host write and then a host read of one location delivers the value written: each register the host may
write and read, at every value its width and its capacity admit, and each buffer element below the capacity,
where a read of any other element delivers what it did before. That an index between length and capacity is
an ordinary location is the model's inference (log 14). -/
def Obligations.HostReadsBackWhatItWrote : Prop :=
  ∀ s : State, s.status ≠ .busy →
    (∀ v, v < 65536 → ∃ t u, hostStep s (.writeReg .window v) = .next t ∧
      hostStep t (.readReg .window) = .next u ∧ u.bus = .num v) ∧
    (∀ v, fits s.cfg.aw v = true → ∃ t u, hostStep s (.writeReg .posIn v) = .next t ∧
      hostStep t (.readReg .posIn) = .next u ∧ u.bus = .num v) ∧
    (∀ v, fits s.cfg.aw v = true → exceeds s.cfg.ibCap v = false →
      ∃ t u, hostStep s (.writeReg .ibLen v) = .next t ∧
        hostStep t (.readReg .ibLen) = .next u ∧ u.bus = .num v) ∧
    (∀ v, fits s.cfg.tw v = true → exceeds s.cfg.tbCap v = false →
      ∃ t u, hostStep s (.writeReg .tbLen v) = .next t ∧
        hostStep t (.readReg .tbLen) = .next u ∧ u.bus = .num v) ∧
    (∀ v, fits s.cfg.aw v = true → exceeds s.cfg.obCap v = false →
      ∃ t u, hostStep s (.writeReg .obLen v) = .next t ∧
        hostStep t (.readReg .obLen) = .next u ∧ u.bus = .num v) ∧
    (∀ v, fits s.cfg.aw v = true → exceeds s.cfg.fbCap v = false →
      ∃ t u, hostStep s (.writeReg .fbLen v) = .next t ∧
        hostStep t (.readReg .fbLen) = .next u ∧ u.bus = .num v) ∧
    (∀ (b : ByteSpace) (i j : Nat) (v : Byte),
      full (b.cap s.cfg) i = false → full (b.cap s.cfg) j = false →
      ∃ t u, hostStep s (.writeByte b i v) = .next t ∧ hostStep t (.readByte b j) = .next u ∧
        u.bus = .byte (if j = i then v else s.byteAt b j)) ∧
    (∀ (i j : Nat) (v : Token), full s.cfg.tbCap i = false → full s.cfg.tbCap j = false →
      ∃ t u, hostStep s (.writeToken i v) = .next t ∧ hostStep t (.readToken j) = .next u ∧
        u.bus = .token (if j = i then v else s.tbAt j))

/-- What a host read of each register delivers (R21 to R27, R30), and that it changes nothing else (R71): but
for `bus`, where the model holds what was delivered (log 13), the state is the same. A read of CMD delivers
some value of 4 bits and moves the counter of free values (log 9, 10). -/
def Obligations.HostReadsDeliverTheRegister : Prop :=
  ∀ s : State, s.status ≠ .busy →
    hostStep s (.readReg .status) = .next { s with bus := .num s.status.code.toNat } ∧
    hostStep s (.readReg .err) = .next { s with bus := .num s.err.code.toNat } ∧
    hostStep s (.readReg .errInfo) = .next { s with bus := .num s.errInfo } ∧
    hostStep s (.readReg .window) = .next { s with bus := .num s.window.toNat } ∧
    hostStep s (.readReg .posIn) = .next { s with bus := .num s.posIn } ∧
    hostStep s (.readReg .ibLen) = .next { s with bus := .num s.ibLen } ∧
    hostStep s (.readReg .tbLen) = .next { s with bus := .num s.tbLen } ∧
    hostStep s (.readReg .obLen) = .next { s with bus := .num s.obLen } ∧
    hostStep s (.readReg .fbLen) = .next { s with bus := .num s.fbLen } ∧
    hostStep s (.readReg .crcOut) = .next { s with bus := .num s.crcOut.toNat } ∧
    hostStep s (.readReg .crcStored) = .next { s with bus := .num s.crcStored.toNat } ∧
    hostStep s (.readReg .mfOff) = .next { s with bus := .num s.mfOff.toNat } ∧
    hostStep s (.readReg .mfLen) = .next { s with bus := .num s.mfLen.toNat } ∧
    hostStep s (.readReg .eq) = .next { s with bus := .num s.eqFlag.toNat } ∧
    ∃ t v, hostStep s (.readReg .cmd) = .next t ∧ t.bus = .num v ∧ v < 16 ∧
      { t with bus := s.bus, freeCount := s.freeCount } = s

/-- A host write of a register or of a buffer element changes that register or buffer and nothing else, and a
host read of a buffer element changes nothing but what was delivered (R70, R71). -/
def Obligations.HostAccessChangesOneLocation : Prop :=
  ∀ s : State, s.status ≠ .busy →
    (∀ v t, hostStep s (.writeReg .window v) = .next t → { t with window := s.window } = s) ∧
    (∀ v t, hostStep s (.writeReg .posIn v) = .next t → { t with posIn := s.posIn } = s) ∧
    (∀ v t, hostStep s (.writeReg .ibLen v) = .next t → { t with ibLen := s.ibLen } = s) ∧
    (∀ v t, hostStep s (.writeReg .tbLen v) = .next t → { t with tbLen := s.tbLen } = s) ∧
    (∀ v t, hostStep s (.writeReg .obLen v) = .next t → { t with obLen := s.obLen } = s) ∧
    (∀ v t, hostStep s (.writeReg .fbLen v) = .next t → { t with fbLen := s.fbLen } = s) ∧
    (∀ i v, full s.cfg.ibCap i = false →
      ∃ t, hostStep s (.writeByte .ib i v) = .next t ∧ { t with ib := s.ib } = s) ∧
    (∀ i v, full s.cfg.obCap i = false →
      ∃ t, hostStep s (.writeByte .ob i v) = .next t ∧ { t with ob := s.ob } = s) ∧
    (∀ i v, full s.cfg.fbCap i = false →
      ∃ t, hostStep s (.writeByte .fb i v) = .next t ∧ { t with fb := s.fb } = s) ∧
    (∀ i v, full s.cfg.tbCap i = false →
      ∃ t, hostStep s (.writeToken i v) = .next t ∧ { t with tb := s.tb } = s) ∧
    (∀ b i, full (ByteSpace.cap s.cfg b) i = false →
      hostStep s (.readByte b i) = .next { s with bus := .byte (s.byteAt b i) }) ∧
    (∀ i, full s.cfg.tbCap i = false →
      hostStep s (.readToken i) = .next { s with bus := .token (s.tbAt i) })

/-- A host write of a register the host may only read is ignored: U20's word for the bits of STATUS above
STATE, and for the rest the model's inference from R24 to R27 and R37 (log 27). -/
def Obligations.ReadOnlyRegistersIgnoreHostWrites : Prop :=
  ∀ (s : State) (r : Reg) (v : Nat), s.status ≠ .busy →
    r ∈ [Reg.status, .err, .errInfo, .crcOut, .crcStored, .mfOff, .mfLen, .eq] →
    hostStep s (.writeReg r v) = .next s

/-- A host write of a length above the buffer's capacity is no move of the model (R288); at the capacity it is
one, if the width holds it. -/
def Obligations.LengthsAboveCapacityAreRefused : Prop :=
  ∀ (s : State) (v : Nat), s.status ≠ .busy →
    (exceeds s.cfg.ibCap v = true →
      hostStep s (.writeReg .ibLen v) = .refused (.lengthAboveCapacity .ib)) ∧
    (exceeds s.cfg.tbCap v = true →
      hostStep s (.writeReg .tbLen v) = .refused (.lengthAboveCapacity .tb)) ∧
    (exceeds s.cfg.obCap v = true →
      hostStep s (.writeReg .obLen v) = .refused (.lengthAboveCapacity .ob)) ∧
    (exceeds s.cfg.fbCap v = true →
      hostStep s (.writeReg .fbLen v) = .refused (.lengthAboveCapacity .fb)) ∧
    (s.cfg.ibCap = some v → fits s.cfg.aw v = true →
      hostStep s (.writeReg .ibLen v) = .next { s with ibLen := v }) ∧
    (s.cfg.tbCap = some v → fits s.cfg.tw v = true →
      hostStep s (.writeReg .tbLen v) = .next { s with tbLen := v }) ∧
    (s.cfg.obCap = some v → fits s.cfg.aw v = true →
      hostStep s (.writeReg .obLen v) = .next { s with obLen := v }) ∧
    (s.cfg.fbCap = some v → fits s.cfg.aw v = true →
      hostStep s (.writeReg .fbLen v) = .next { s with fbLen := v })

/-! ## CRC -/

/-- R121: CRC32 leaves the checksum of `IB[0 .. IB_LEN-1]` in CRC_OUT and ends DONE; the function is the
pseudocode of the rule. -/
def Obligations.Crc32LeavesTheChecksum : Prop :=
  decodeCommand 1 = .ok .crc32 ∧
  (∀ bytes : List Byte, checksum bytes =
    bytes.foldl (fun (crc : Word32) (b : Byte) =>
      (fun c : Word32 => if c.getLsbD 0 then (c >>> 1) ^^^ 0xEDB88320 else c >>> 1)^[8]
        (crc ^^^ b.setWidth 32)) 0xFFFFFFFF ^^^ 0xFFFFFFFF) ∧
  ∀ s : State, ∃ t, exec .crc32 s = .next t ∧ t.EndsDone ∧
    t.crcOut = checksum ((List.range s.ibLen).map s.ibAt) ∧ KeepsAllBut [.crcOut] s t ∧
    (s.ibLen = 0 → t.crcOut = 0) ∧ (s.ibLen = 1 → s.ibAt 0 = 0x41 → t.crcOut = 0xD3D99E8B)

/-- The table-driven update of R125 is the eight bit steps. -/
def Obligations.TableDrivenCrcIsTheSameFunction : Prop :=
  ∀ (crc : Word32) (b : Byte),
    crcByte crc b = (crc >>> 8) ^^^ crcBits 8 ((crc ^^^ b.setWidth 32) &&& 0xFF)

/-- Changing one byte of a sequence, in any of its bits, changes the checksum. -/
def Obligations.ChecksumDetectsAnyChangeOfOneByte : Prop :=
  ∀ (before after : List Byte) (b b' : Byte),
    checksum (before ++ b :: after) = checksum (before ++ b' :: after) → b = b'

/-! ## MF -/

/-- R137, R140, R141: FIND's length is the longest over the candidates, its offset names the nearest
candidate of that length, and both are 0 when no candidate matches. -/
def Obligations.FindNamesTheNearestLongestMatch : Prop :=
  ∀ s : State, ∃ t, exec .find s = .next t ∧ t.EndsDone ∧ KeepsAllBut [.mf] s t ∧
    (∀ p L, Candidate s.posIn s.window.toNat p → IsMatchLength s.ibBytes s.posIn p L →
      L ≤ t.mfLen.toNat) ∧
    (t.mfLen = 0 → t.mfOff = 0) ∧
    (t.mfLen ≠ 0 → ∃ p, Candidate s.posIn s.window.toNat p ∧ t.mfOff.toNat = s.posIn - p ∧
      IsMatchLength s.ibBytes s.posIn p t.mfLen.toNat ∧
      ∀ q L, Candidate s.posIn s.window.toNat q → p < q → IsMatchLength s.ibBytes s.posIn q L →
        L < t.mfLen.toNat)

/-- The bounds on a match that R146 derives, and that no field is truncated. -/
def Obligations.MatchFitsWindowHistoryAndBuffer : Prop :=
  ∀ (buffer : List Byte) (position : Nat) (window : Half),
    let m := findLongestMatch buffer position window.toNat
    (m.2 = 0 → m.1 = 0) ∧
    (m.2 > 0 → m.2 ≤ m.1 ∧ m.1 ≤ min window.toNat position ∧ position + m.2 ≤ buffer.length) ∧
    m.1 < 65536 ∧ m.2 < 65536

/-! ## ENC -/

/-- R157 to R159: ENCODE's tokens are what the encoder's policy gives, when they fit TB; when they do not,
CAPACITY. -/
def Obligations.EncodeFollowsThePolicy : Prop :=
  ∀ s : State, ∃ ts, EncodesFrom s.ibBytes s.window.toNat 0 ts ∧
    (exceeds s.cfg.tbCap ts.length = false → ∃ t, exec .encode s = .next t ∧ t.EndsDone ∧
      t.tbTokens = ts ∧ t.tbLen = ts.length ∧ KeepsAllBut [.tb] s t) ∧
    (exceeds s.cfg.tbCap ts.length = true → ∃ t, exec .encode s = .next t ∧
      t.EndsError .capacity 0 ∧ KeepsAllBut [.tb] s t)

/-- ENCODE completes whenever TB has room for one token for each byte of input. -/
def Obligations.EncodeCompletesWhenTokensFit : Prop :=
  ∀ s : State, exceeds s.cfg.tbCap s.ibLen = false →
    ∃ t, exec .encode s = .next t ∧ t.EndsDone ∧ t.tbLen ≤ s.ibLen ∧ KeepsAllBut [.tb] s t

/-- What every encoding looks like: the tokens cover the input exactly, there are at most as many as bytes,
the first is a literal, and a match never exceeds its offset, nor its offset the window. -/
def Obligations.EncodingCoversTheInput : Prop :=
  ∀ (buffer : List Byte) (window : Half) (ts : List Token), EncodesFrom buffer window.toNat 0 ts →
    (ts.map fun t => t.length.toNat + 1).sum = buffer.length ∧ ts.length ≤ buffer.length ∧
    (∀ t, ts.head? = some t → t.offset = 0 ∧ t.length = 0) ∧
    ∀ t ∈ ts, (t.offset = 0 ∧ t.length = 0) ∨
      (1 ≤ t.length.toNat ∧ t.length.toNat ≤ t.offset.toNat ∧ t.offset.toNat ≤ window.toNat)

/-- With WINDOW = 0 every token is a literal and there is one for each byte. -/
def Obligations.ZeroWindowEncodesLiterals : Prop :=
  ∀ s : State, s.window = 0 → exceeds s.cfg.tbCap s.ibLen = false →
    ∃ t, exec .encode s = .next t ∧ t.EndsDone ∧ t.tbTokens = s.ibBytes.map fun b => ⟨0, 0, b⟩

/-! ## DEC -/

/-- R179: LIT appends its symbol, at any point of a sequence; CAPACITY if OB is full, with OB_LEN legal (R30).
After an error of stage 1 of UNPACK the tokens are kept if they are written, which they are in every state of
stage 1 (UnpackDecodesWrittenTokens). -/
def Obligations.LitAppendsItsSymbol : Prop :=
  ∀ (s : State) (symbol : Byte),
    decodeToken ⟨0, 0, symbol⟩ = .lit symbol ∧
    encodeInstr (.lit symbol) = .record [0, 0, 0, 0, symbol] ∧
    (full s.cfg.obCap s.obLen = false → ∃ t, exec (.lit symbol) s = .next t ∧
      t.obLen = s.obLen + 1 ∧ t.obAt s.obLen = symbol ∧ (∀ a, a ≠ s.obLen → t.obAt a = s.obAt a) ∧
      t.work.tix = s.work.tix + 1 ∧ t.work.opc = s.work.opc ∧ t.seq = .dFetch ∧
      t.status = s.status ∧ t.err = s.err ∧ t.errInfo = s.errInfo ∧ KeepsAllBut [.ob] s t) ∧
    (full s.cfg.obCap s.obLen = true → exceeds s.cfg.obCap s.obLen = false →
      (s.work.opc = 8 → s.TokensWritten) →
      ∃ t, exec (.lit symbol) s = .next t ∧ t.EndsError .capacity 0 ∧ KeepsDecoderInputs s t)

/-- R178, R180: MATCH first checks its reference, then copies byte by byte from bytes it may itself have
appended, then appends its symbol; the copy in the closed form of R183. An error of stage 1 of UNPACK keeps
the tokens if they are written, as in LitAppendsItsSymbol. -/
def Obligations.MatchCopiesThenAppendsItsSymbol : Prop :=
  ∀ (s : State) (offset length : Half) (symbol : Byte),
    (offset ≠ 0 ∨ length ≠ 0 →
      decodeToken ⟨offset, length, symbol⟩ = .matchTok offset length symbol) ∧
    ((Instr.matchTok offset length symbol).wellFormed = true → offset = 0 ∨ s.obLen < offset.toNat →
      (s.work.opc = 8 → s.TokensWritten) →
      ∃ t, exec (.matchTok offset length symbol) s = .next t ∧
        t.EndsError .invalidReference s.work.tix ∧ t.err.code = 4 ∧ KeepsDecoderInputs s t) ∧
    (offset ≠ 0 → offset.toNat ≤ s.obLen →
      exceeds s.cfg.obCap (s.obLen + length.toNat + 1) = false →
      ∃ t, exec (.matchTok offset length symbol) s = .next t ∧
        t.obLen = s.obLen + length.toNat + 1 ∧
        (∀ i, i < length.toNat →
          t.obAt (s.obLen + i) = s.obAt (s.obLen - offset.toNat + i % offset.toNat)) ∧
        t.obAt (s.obLen + length.toNat) = symbol ∧
        (∀ a, a < s.obLen ∨ s.obLen + length.toNat + 1 ≤ a → t.obAt a = s.obAt a) ∧
        t.work.tix = s.work.tix + 1 ∧ t.work.opc = s.work.opc ∧ t.seq = .dFetch ∧
        t.status = s.status ∧ t.err = s.err ∧ t.errInfo = s.errInfo ∧ KeepsAllBut [.ob] s t) ∧
    (offset ≠ 0 → offset.toNat ≤ s.obLen →
      exceeds s.cfg.obCap (s.obLen + length.toNat + 1) = true →
      exceeds s.cfg.obCap s.obLen = false → (s.work.opc = 8 → s.TokensWritten) →
      ∃ t, exec (.matchTok offset length symbol) s = .next t ∧
        t.EndsError .capacity 0 ∧ KeepsDecoderInputs s t)

/-- The term `MATCH 0, 0, s`, which is no token's kind (R96), raises INVALID_REFERENCE: the model's choice
(log 17). -/
def Obligations.IllFormedMatchRaisesInvalidReference : Prop :=
  ∀ (s : State) (symbol : Byte),
    (Instr.matchTok 0 0 symbol).wellFormed = false ∧
    ∃ t, exec (.matchTok 0 0 symbol) s = .next t ∧ t.EndsError .invalidReference s.work.tix

/-- R181: a MATCH of length 0 that passes the check does what LIT does, but for the working registers; one
that does not raises INVALID_REFERENCE although no byte would have been read. -/
def Obligations.ZeroLengthMatchActsAsLit : Prop :=
  ∀ (s : State) (offset : Half) (symbol : Byte), offset ≠ 0 →
    (offset.toNat ≤ s.obLen → ∃ t u, exec (.matchTok offset 0 symbol) s = .next t ∧
      exec (.lit symbol) s = .next u ∧ { t with work := u.work } = u) ∧
    (s.obLen < offset.toNat → ∃ t, exec (.matchTok offset 0 symbol) s = .next t ∧
      t.EndsError .invalidReference s.work.tix)

/-- DECODE of a sequence whose references are all valid leaves in OB what the closed form gives, when it
fits; when it does not, CAPACITY. -/
def Obligations.DecodeReplaysTheTokens : Prop :=
  ∀ (s : State) (out : List Byte), replay [] s.tbTokens = some out →
    (exceeds s.cfg.obCap out.length = false → ∃ t, exec .decode s = .next t ∧ t.EndsDone ∧
      t.obBytes = out ∧ t.obLen = out.length ∧
      t.obLen = (s.tbTokens.map fun k => k.length.toNat + 1).sum ∧ KeepsAllBut [.ob] s t) ∧
    (exceeds s.cfg.obCap out.length = true → ∃ t, exec .decode s = .next t ∧
      t.EndsError .capacity 0 ∧ KeepsAllBut [.ob] s t)

/-- R185: DECODE ends at the first token whose reference is invalid, with its index, whatever follows. -/
def Obligations.DecodeReportsTheFirstBadToken : Prop :=
  ∀ (s : State) (before after : List Token) (bad : Token) (out : List Byte),
    s.tbTokens = before ++ bad :: after → replay [] before = some out →
    exceeds s.cfg.obCap out.length = false → replayToken out bad = none →
    ∃ t, exec .decode s = .next t ∧ t.EndsError .invalidReference before.length ∧
      t.err.code = 4 ∧ KeepsAllBut [.ob] s t

/-- Decoding an encoding restores the input, for every input and every WINDOW. -/
def Obligations.EncodeThenDecodeRestoresTheInput : Prop :=
  ∀ s : State, exceeds s.cfg.tbCap s.ibLen = false → exceeds s.cfg.obCap s.ibLen = false →
    ∃ t u, exec .encode s = .next t ∧ t.EndsDone ∧ exec .decode t = .next u ∧ u.EndsDone ∧
      u.obBytes = s.ibBytes ∧ u.obLen = s.ibLen

/-! ## FRM -/

/-- R197, R198: SERIALIZE writes record `k` at `FB[5k .. 5k+4]` and after the records the little-endian
checksum of all and only the record bytes; CAPACITY when the frame does not fit FB. -/
def Obligations.SerializeWritesTheFrame : Prop :=
  ∀ s : State,
    (exceeds s.cfg.fbCap (5 * s.tbLen + 4) = false → ∃ t, exec .serialize s = .next t ∧ t.EndsDone ∧
      t.fbLen = 5 * s.tbLen + 4 ∧
      (∀ k, k < s.tbLen → t.fbRead (5 * k) 2 = (s.tbAt k).offset.toNat ∧
        t.fbRead (5 * k + 2) 2 = (s.tbAt k).length.toNat ∧
        t.fbAt (5 * k + 4) = (s.tbAt k).symbol) ∧
      t.crcOut = checksum ((List.range (5 * s.tbLen)).map t.fbAt) ∧
      t.fbRead (5 * s.tbLen) 4 = t.crcOut.toNat ∧ KeepsAllBut [.fb, .crcOut] s t) ∧
    (exceeds s.cfg.fbCap (5 * s.tbLen + 4) = true → ∃ t, exec .serialize s = .next t ∧
      t.EndsError .capacity 0 ∧ KeepsAllBut [.fb, .crcOut] s t)

/-- R203 to R205: DESERIALIZE's checks in their order, each with its error and what it records, and the
tokens when all pass. -/
def Obligations.DeserializeChecksInOrder : Prop :=
  ∀ s : State, ∃ t, exec .deserialize s = .next t ∧ KeepsAllBut [.tb, .crcOut, .crcStored] s t ∧
    (s.fbLen < 4 → t.EndsError .truncatedFile 0) ∧
    (4 ≤ s.fbLen →
      let computed := checksum ((List.range (s.fbLen - 4)).map s.fbAt)
      let stored := s.fbRead (s.fbLen - 4) 4
      let n := (s.fbLen - 4) / 5
      (t.err ≠ .capacity → t.crcOut = computed ∧ t.crcStored.toNat = stored) ∧
      (computed.toNat ≠ stored → t.EndsError .integrity 0) ∧
      (computed.toNat = stored → (s.fbLen - 4) % 5 ≠ 0 → t.EndsError .malformedRecord 0) ∧
      (computed.toNat = stored → (s.fbLen - 4) % 5 = 0 → exceeds s.cfg.tbCap n = true →
        t.EndsError .capacity 0) ∧
      (computed.toNat = stored → (s.fbLen - 4) % 5 = 0 → exceeds s.cfg.tbCap n = false →
        t.EndsDone ∧ t.tbLen = n ∧
        ∀ k, k < n → (t.tbAt k).offset.toNat = s.fbRead (5 * k) 2 ∧
          (t.tbAt k).length.toNat = s.fbRead (5 * k + 2) 2 ∧
          (t.tbAt k).symbol = s.fbAt (5 * k + 4)))

/-- DESERIALIZE and UNPACK record both checksums whenever check 1 passes, whatever error follows, CAPACITY
included (R27 and R208 against the table of R248: the model's choice, log 19). -/
def Obligations.ChecksumsAreRecordedOnceCheckOnePasses : Prop :=
  ∀ s : State, 4 ≤ s.fbLen →
    ∃ t u, exec .deserialize s = .next t ∧ exec .unpack s = .next u ∧
      t.crcOut = checksum ((List.range (s.fbLen - 4)).map s.fbAt) ∧
      t.crcStored.toNat = s.fbRead (s.fbLen - 4) 4 ∧
      u.crcOut = t.crcOut ∧ u.crcStored = t.crcStored

/-- DESERIALIZE of a frame SERIALIZE wrote restores the tokens, for every token sequence. -/
def Obligations.SerializeThenDeserializeRestoresTheTokens : Prop :=
  ∀ s : State, exceeds s.cfg.fbCap (5 * s.tbLen + 4) = false → exceeds s.cfg.tbCap s.tbLen = false →
    ∃ t u, exec .serialize s = .next t ∧ t.EndsDone ∧ exec .deserialize t = .next u ∧ u.EndsDone ∧
      u.tbTokens = s.tbTokens ∧ u.crcOut = u.crcStored

/-- Different token sequences have different frames. -/
def Obligations.FramesAreInjective : Prop :=
  ∀ ts ts' : List Token, frameBytes ts = frameBytes ts' → ts = ts'

/-- After SERIALIZE, changing any one byte of the frame, in body or trailer, makes DESERIALIZE end with
INTEGRITY. -/
def Obligations.AnyCorruptByteRaisesIntegrity : Prop :=
  ∀ (s : State) (i : Nat) (b : Byte), exceeds s.cfg.fbCap (5 * s.tbLen + 4) = false →
    i < 5 * s.tbLen + 4 →
    ∃ t, exec .serialize s = .next t ∧ t.EndsDone ∧
      (b ≠ t.fbAt i → ∃ u, exec .deserialize { t with fb := t.fb.write i b } = .next u ∧
        u.EndsError .integrity 0)

/-! ## PACK, UNPACK, CMP -/

/-- R225: PACK is ENCODE then SERIALIZE, identical in every output; the first error ends it. -/
def Obligations.PackIsEncodeThenSerialize : Prop :=
  ∀ s : State, ∃ v, exec .pack s = .next v ∧ KeepsAllBut [.tb, .fb, .crcOut] s v ∧
    (exceeds s.cfg.tbCap s.ibLen = false → exceeds s.cfg.fbCap (5 * s.ibLen + 4) = false →
      v.EndsDone) ∧
    ∃ t, exec .encode s = .next t ∧
      (t.status = .error → v.EndsError t.err t.errInfo ∧ t.err = .capacity) ∧
      (t.status = .done → ∃ u, exec .serialize t = .next u ∧
        v.status = u.status ∧ v.err = u.err ∧ v.errInfo = u.errInfo ∧
        (u.status = .error → u.err = .capacity) ∧
        (u.status = .done → v.tbTokens = u.tbTokens ∧ v.fbBytes = u.fbBytes ∧ v.crcOut = u.crcOut))

/-- R226: UNPACK is DESERIALIZE then DECODE; no byte is decoded from a frame that fails a check, and after
an error in stage 1 the outputs of stage 0 are valid. The checksums after CAPACITY of stage 0 are left to
ChecksumsAreRecordedOnceCheckOnePasses. -/
def Obligations.UnpackIsDeserializeThenDecode : Prop :=
  ∀ s : State, ∃ v, exec .unpack s = .next v ∧ KeepsAllBut [.tb, .crcOut, .crcStored, .ob] s v ∧
    (∀ ts x y out, deserialize s.cfg.tbCap s.fbBytes = .tokens ts x y → replay [] ts = some out →
      exceeds s.cfg.obCap out.length = false →
      v.EndsDone ∧ v.tbTokens = ts ∧ v.crcOut = x ∧ v.crcStored = y ∧ v.obBytes = out) ∧
    ∃ t, exec .deserialize s = .next t ∧
      (t.status = .error → v.EndsError t.err t.errInfo ∧
        (t.err = .truncatedFile ∨ t.err = .integrity ∨ t.err = .malformedRecord ∨ t.err = .capacity) ∧
        (t.err ≠ .truncatedFile → t.err ≠ .capacity →
          v.crcOut = t.crcOut ∧ v.crcStored = t.crcStored)) ∧
      (t.status = .done → v.tbTokens = t.tbTokens ∧ v.crcOut = t.crcOut ∧
        v.crcStored = t.crcStored ∧ ∃ u, exec .decode t = .next u ∧
          v.status = u.status ∧ v.err = u.err ∧ v.errInfo = u.errInfo ∧
          (u.status = .error → u.err = .invalidReference ∨ u.err = .capacity) ∧
          (u.status = .done → v.obBytes = u.obBytes))

/-- UNPACK of what PACK made restores the input, for every input and every WINDOW, and CMP then says
equal. -/
def Obligations.PackThenUnpackRestoresTheInput : Prop :=
  ∀ s : State, exceeds s.cfg.tbCap s.ibLen = false → exceeds s.cfg.fbCap (5 * s.ibLen + 4) = false →
    exceeds s.cfg.obCap s.ibLen = false →
    ∃ t u v, exec .pack s = .next t ∧ t.EndsDone ∧ exec .unpack t = .next u ∧ u.EndsDone ∧
      u.obBytes = s.ibBytes ∧ u.obLen = s.ibLen ∧ exec .cmp u = .next v ∧ v.eqFlag = 1

/-- R230: EQ is 1 exactly when the lengths are equal and every byte is. -/
def Obligations.CmpComparesLengthsThenBytes : Prop :=
  decodeCommand 9 = .ok .cmp ∧
  ∀ s : State, ∃ t, exec .cmp s = .next t ∧ t.EndsDone ∧ KeepsAllBut [.eq] s t ∧
    t.eqFlag = (if s.ibLen = s.obLen ∧ ∀ i, i < s.ibLen → s.ibAt i = s.obAt i then 1 else 0)

/-! ## Rules of the whole machine -/

/-- No instruction stops the machine: every one answers a next state in every state. -/
def Obligations.EveryInstructionAnswersANextState : Prop :=
  ∀ (i : Instr) (s : State), ∃ t, exec i s = .next t

/-- R35: an operation writes its declared outputs and keeps everything else, whether it ends DONE or
ERROR; and it ends one or the other. -/
def Obligations.OperationsKeepWhatTheyDoNotDeclare : Prop :=
  ∀ (c : BitVec 4) (i : Instr) (s t : State), decodeCommand c = .ok i → exec i s = .next t →
    KeepsAllBut (outputs c) s t ∧
    (t.EndsDone ∨ t.status = .error ∧ t.err ≠ .none ∧ t.err ≠ .io ∧ t.err ≠ .illegalCommand)

/-- R8: the end of an operation, and its outputs if it ends DONE, depend on its declared inputs alone: not
on any other register, not on buffer elements at or beyond the lengths, not on anything an earlier
operation left in the working registers. -/
def Obligations.OperationsDependOnDeclaredInputsOnly : Prop :=
  ∀ (c : BitVec 4) (i : Instr) (s s' t t' : State), decodeCommand c = .ok i → InputsAgree c s s' →
    exec i s = .next t → exec i s' = .next t' →
    t.status = t'.status ∧ t.err = t'.err ∧ t.errInfo = t'.errInfo ∧
    (t.status = .done → ∀ o ∈ outputs c, o.SameValue t t')

/-- The reset state meets the invariant. -/
def Obligations.InvariantHoldsAtReset : Prop := State.reset.Inv ∧ State.reset.WellFormedStart

/-- Every step from a state that meets the invariant, the host's moves and every grain of the core's
included, gives a state that meets it: canonical memories, IB_LEN within its capacity, ERR 0 but in ERROR, ERR
never IO. -/
def Obligations.EveryStepKeepsTheInvariant : Prop :=
  ∀ s t : State, s.Inv → step s = .next t → t.Inv

/-- Every length within its capacity stays so in every step, of host or core at any grain, but for a step of the
core that ends an operation in ERROR, after which TB_LEN, OB_LEN and FB_LEN may hold anything (R252). So after a
step from legal lengths to a state that is not ERROR, DONE included, all are legal (R30). -/
def Obligations.LengthsStayLegalUnlessAnOperationFails : Prop :=
  ∀ s t : State, s.SeqLegal → step s = .next t →
    (exceeds s.cfg.ibCap s.ibLen = false → exceeds t.cfg.ibCap t.ibLen = false) ∧
    (exceeds s.cfg.tbCap s.tbLen = false → exceeds t.cfg.tbCap t.tbLen = false ∨
      s.turn = .core ∧ s.status = .busy ∧ t.status = .error) ∧
    (exceeds s.cfg.obCap s.obLen = false → exceeds t.cfg.obCap t.obLen = false ∨
      s.turn = .core ∧ s.status = .busy ∧ t.status = .error) ∧
    (exceeds s.cfg.fbCap s.fbLen = false → exceeds t.cfg.fbCap t.fbLen = false ∨
      s.turn = .core ∧ s.status = .busy ∧ t.status = .error)

/-- The tokens that stage 1 of UNPACK decodes have all been written: at reset and in every step, host moves and
every grain included. So the premise on OPC = 8 in the statements of LIT and MATCH holds in every state of a
run. -/
def Obligations.UnpackDecodesWrittenTokens : Prop :=
  State.reset.StageLegal ∧
  (∀ s t : State, s.StageLegal → step s = .next t → t.StageLegal) ∧
  ∀ s : State, s.StageLegal → s.status = .busy → s.seq = .dFetch → s.work.opc = 8 → s.TokensWritten

/-! ## The reference sequencings meet the operations: from a latched operation, at whichever grain, running
the core ends in exactly the state the operation's meaning gives -/

/-- CRC32 by its reference sequencing (R124). The number of steps, `9n + 4`, is the model's: the `9n + 3` rows of
R124's table and one row before them that the model adds (`opStart`, log 1); R6 lets no claim about the hardware
depend on it. At a coarser grain CRC32 is one step (log 1). -/
def Obligations.SequencedCrc32MeetsTheOperation : Prop :=
  ∀ s : State, s.Latched 1 →
    (s.grain = .micro → core.run (9 * s.ibLen + 4) s = exec .crc32 s) ∧
    (s.grain ≠ .micro → core.run 1 s = exec .crc32 s)

/-- R143: FIND by its reference sequencing. -/
def Obligations.SequencedFindMeetsTheOperation : Prop :=
  ∀ s : State, s.Latched 2 → ∃ k, core.run (k + 1) s = exec .find s

/-- R167: ENCODE by its reference sequencing. -/
def Obligations.SequencedEncodeMeetsTheOperation : Prop :=
  ∀ s : State, s.Latched 3 → s.MemoryWf → ∃ k, core.run (k + 1) s = exec .encode s

/-- R176, R190: DECODE token by token, and by its reference sequencing. Token by token it takes one step to
begin, one for each token it executes and one to end; that number is of the model's instruction grain (log 1),
and R6 lets no claim about the hardware depend on it. -/
def Obligations.SequencedDecodeMeetsTheOperation : Prop :=
  ∀ s : State, s.Latched 4 → s.MemoryWf →
    (∃ k, core.run (k + 1) s = exec .decode s) ∧
    ∀ t, s.grain = .instruction → exec .decode s = .next t → t.status = .done →
      core.run (s.tbLen + 2) s = .next t

/-- R201: SERIALIZE by its reference sequencing. -/
def Obligations.SequencedSerializeMeetsTheOperation : Prop :=
  ∀ s : State, s.Latched 5 → s.MemoryWf → ∃ k, core.run (k + 1) s = exec .serialize s

/-- R209: DESERIALIZE by its reference sequencing. -/
def Obligations.SequencedDeserializeMeetsTheOperation : Prop :=
  ∀ s : State, s.Latched 6 → s.MemoryWf → ∃ k, core.run (k + 1) s = exec .deserialize s

/-- R6, R296: every operation ends after finitely many steps at every grain, in the state its meaning gives:
the levels agree on everything. -/
def Obligations.EverySequencingMeetsItsOperation : Prop :=
  ∀ (c : BitVec 4) (i : Instr) (s : State), decodeCommand c = .ok i → s.Latched c → s.MemoryWf →
    ∃ k, core.run (k + 1) s = exec i s
end

