-- ==== Sys2Proof/Laws/Memory.lean ====
section
/-! SUPPORT. Memories and buffers: read after write, and that every operation keeps the canonical form
(log 4). -/

namespace Sys2Proof.Machine

variable {α : Type}

namespace Memory

/-! ## Reads -/

@[simp] theorem get?_nil (a : Nat) : get? ([] : List (Nat × α)) a = none := rfl

@[simp] theorem get?_cons (k : Nat) (v : α) (m : List (Nat × α)) (a : Nat) :
    get? ((k, v) :: m) a = if a = k then some v else get? m a := rfl

/-- A read after a store gives what was stored there, and what was there elsewhere. -/
@[simp] theorem get?_set (m : List (Nat × α)) (a : Nat) (v : α) (b : Nat) :
    get? (set m a v) b = if b = a then some v else get? m b := by
  induction m with
  | nil => rfl
  | cons c m ih =>
    obtain ⟨k, w⟩ := c
    unfold set
    split
    · simp
    · split
      · next h => subst h; simp only [get?_cons]; split <;> simp_all
      · next h => simp only [get?_cons, ih]; split <;> split <;> simp_all

theorem get?_setAll (m : List (Nat × α)) (a : Nat) (xs : List α) (b : Nat) :
    get? (setAll m a xs) b = if a ≤ b then (xs[b - a]?).or (get? m b) else get? m b := by
  induction xs generalizing m a with
  | nil => simp [setAll]
  | cons x xs ih =>
    rw [setAll, ih]
    rcases Nat.lt_trichotomy b a with h | h | h
    · simp [get?_set, show ¬ a + 1 ≤ b by omega, show ¬ a ≤ b by omega, show b ≠ a by omega]
    · subst h; simp [show ¬ b + 1 ≤ b by omega]
    · have e : b - a = (b - (a + 1)) + 1 := by omega
      simp [get?_set, show a + 1 ≤ b by omega, show a ≤ b by omega, show b ≠ a by omega, e]

theorem get?_cellsOf (a : Nat) (xs : List α) (b : Nat) :
    get? (cellsOf a xs) b = if a ≤ b then xs[b - a]? else none := by
  induction xs generalizing a with
  | nil => simp [cellsOf]
  | cons x xs ih =>
    rw [cellsOf, get?_cons, ih]
    rcases Nat.lt_trichotomy b a with h | h | h
    · simp [show ¬ a + 1 ≤ b by omega, show ¬ a ≤ b by omega, show b ≠ a by omega]
    · subst h; simp
    · have e : b - a = (b - (a + 1)) + 1 := by omega
      simp [show a + 1 ≤ b by omega, show a ≤ b by omega, show b ≠ a by omega, e]

@[simp] theorem get?_below (m : List (Nat × α)) (n b : Nat) :
    get? (below m n) b = if b < n then get? m b else none := by
  induction m with
  | nil => simp [below]
  | cons c m ih =>
    obtain ⟨k, w⟩ := c
    simp only [below, List.filter_cons, decide_eq_true_eq] at ih ⊢
    by_cases hk : k < n
    · rw [if_pos hk, get?_cons, get?_cons, ih]
      split
      · next h => rw [if_pos (h ▸ hk)]
      · rfl
    · rw [if_neg hk, ih, get?_cons]
      split
      · rw [if_neg (by omega)]
      · rfl

/-! ## The canonical form -/

theorem mem_set_key {m : List (Nat × α)} {a : Nat} {v : α} {c : Nat × α} (h : c ∈ set m a v) :
    c.1 = a ∨ c ∈ m := by
  induction m with
  | nil => simp [set] at h; simp [h]
  | cons d m ih =>
    obtain ⟨k, w⟩ := d
    unfold set at h
    split at h
    · simp only [List.mem_cons] at h ⊢; rcases h with h | h | h <;> simp [h]
    · split at h
      · simp only [List.mem_cons] at h ⊢; rcases h with h | h <;> simp [h]
      · simp only [List.mem_cons] at h ⊢
        rcases h with h | h
        · simp [h]
        · rcases ih h with h | h <;> simp [h]

theorem wf_set {m : List (Nat × α)} (h : wf m) (a : Nat) (v : α) : wf (set m a v) := by
  induction m with
  | nil => simp [set, wf]
  | cons c m ih =>
    obtain ⟨k, w⟩ := c
    obtain ⟨hk, hm⟩ := List.pairwise_cons.1 h
    unfold set
    split
    · next ha =>
      refine List.pairwise_cons.2 ⟨fun x hx => ?_, h⟩
      rcases List.mem_cons.1 hx with rfl | hx
      · exact ha
      · exact Nat.lt_trans ha (hk x hx)
    · split
      · next _ he => subst he; exact List.pairwise_cons.2 ⟨hk, hm⟩
      · next h1 h2 =>
        refine List.pairwise_cons.2 ⟨fun x hx => ?_, ih hm⟩
        rcases mem_set_key hx with hx | hx
        · simp only [hx]; omega
        · exact hk x hx

theorem wf_setAll {m : List (Nat × α)} (h : wf m) (a : Nat) (xs : List α) : wf (setAll m a xs) := by
  induction xs generalizing m a with
  | nil => exact h
  | cons x xs ih => exact ih (wf_set h a x) (a + 1)

theorem le_of_mem_cellsOf {a : Nat} {xs : List α} {c : Nat × α} (h : c ∈ cellsOf a xs) : a ≤ c.1 := by
  induction xs generalizing a with
  | nil => simp [cellsOf] at h
  | cons x xs ih =>
    rcases List.mem_cons.1 h with rfl | h
    · exact Nat.le_refl _
    · exact Nat.le_trans (Nat.le_succ a) (ih h)

@[simp] theorem wf_cellsOf (a : Nat) (xs : List α) : wf (cellsOf a xs) := by
  induction xs generalizing a with
  | nil => simp [cellsOf, wf]
  | cons x xs ih => exact List.pairwise_cons.2 ⟨fun c hc => le_of_mem_cellsOf hc, ih (a + 1)⟩

theorem wf_below {m : List (Nat × α)} (h : wf m) (n : Nat) : wf (below m n) :=
  List.Pairwise.filter _ h

theorem get?_eq_none_of_lt {m : List (Nat × α)} {b : Nat} (h : ∀ c ∈ m, b < c.1) :
    get? m b = none := by
  induction m with
  | nil => rfl
  | cons c m ih =>
    have hc := h c (by simp)
    obtain ⟨k, w⟩ := c
    rw [get?_cons, if_neg (by omega)]
    exact ih fun d hd => h d (by simp [hd])

/-- Equal memories are equal data: two canonical memories that read alike are one list. -/
theorem ext_of_wf {m m' : List (Nat × α)} (h : wf m) (h' : wf m') (e : ∀ a, get? m a = get? m' a) :
    m = m' := by
  induction m generalizing m' with
  | nil =>
    cases m' with
    | nil => rfl
    | cons c m' => obtain ⟨k, w⟩ := c; have := e k; simp at this
  | cons c m ih =>
    obtain ⟨k, w⟩ := c
    obtain ⟨hk, hm⟩ := List.pairwise_cons.1 h
    cases m' with
    | nil => have := e k; simp at this
    | cons c' m' =>
      obtain ⟨k', w'⟩ := c'
      obtain ⟨hk', hm'⟩ := List.pairwise_cons.1 h'
      have hkk : k = k' := by
        rcases Nat.lt_trichotomy k k' with g | g | g
        · have := e k
          rw [get?_cons, if_pos rfl, get?_cons, if_neg (by omega),
            get?_eq_none_of_lt fun d hd => Nat.lt_trans g (hk' d hd)] at this
          simp at this
        · exact g
        · have := e k'
          rw [get?_cons, if_neg (by omega), get?_eq_none_of_lt fun d hd => Nat.lt_trans g (hk d hd),
            get?_cons, if_pos rfl] at this
          simp at this
      subst hkk
      have hw : w = w' := by have := e k; simpa using this
      subst hw
      rw [ih hm hm' fun a => ?_]
      have := e a
      simp only [get?_cons] at this
      split at this
      · next h => rw [h, get?_eq_none_of_lt hk, get?_eq_none_of_lt hk']
      · exact this

end Memory

/-! ## Buffers -/

section Buffer

variable (free : Nat → Nat → α)

@[simp] theorem Buf.read_write (b : Buf α) (i : Nat) (v : α) (j : Nat) :
    (b.write i v).read free j = if j = i then v else b.read free j := by
  simp only [Buf.read, Buf.write, Memory.get?_set]; split <;> rfl

@[simp] theorem Buf.read_forgotten (n i : Nat) : (Buf.forgotten n).read free i = free n i := rfl

theorem Buf.read_put (b : Buf α) (vs : List α) (i : Nat) :
    (b.put vs).read free i = (vs[i]?).getD (free b.epoch i) := by
  simp [Buf.read, Buf.put, Memory.get?_cellsOf]

theorem Buf.read_sealAt (b : Buf α) (len n i : Nat) :
    (b.sealAt len n).read free i = if i < len then (Memory.get? b.cells i).getD (free n i) else free n i := by
  simp only [Buf.read, Buf.sealAt, Memory.get?_below]; split <;> rfl

theorem Buf.read_writeAll (b : Buf α) (i : Nat) (vs : List α) (j : Nat) :
    (b.writeAll i vs).read free j = if i ≤ j then (vs[j - i]?).getD (b.read free j) else b.read free j := by
  simp only [Buf.read, Buf.writeAll, Memory.get?_setAll]
  split
  · cases vs[j - i]? <;> simp
  · rfl

/-- The sequence a buffer holds after it was made to hold one. -/
theorem Buf.map_read_put (b : Buf α) (vs : List α) :
    (List.range vs.length).map ((b.put vs).read free) = vs := by
  apply List.ext_getElem
  · simp
  · intro i h1 h2
    simp only [List.getElem_map, List.getElem_range, Buf.read_put]
    rw [List.getElem?_eq_getElem h2]; rfl

/-- The same after the elements beyond the sequence became unspecified. -/
theorem Buf.map_read_sealAt_put (b : Buf α) (vs : List α) (n : Nat) :
    (List.range vs.length).map (((b.put vs).sealAt vs.length n).read free) = vs := by
  apply List.ext_getElem
  · simp
  · intro i h1 h2
    simp only [List.getElem_map, List.getElem_range, Buf.read_sealAt, h2, if_true, Buf.put,
      Memory.get?_cellsOf]
    simp [List.getElem?_eq_getElem h2]

end Buffer

end Sys2Proof.Machine
end

