-- ==== Sys2Proof/Laws/State.lean ====
section
/-! SUPPORT. The fields of a state after each named update: one lemma per field per update, each true by
unfolding the update once. -/

namespace Sys2Proof.Machine

variable (s : State)

/-! ### startOp -/

@[simp] theorem State.startOp_cfg (c : BitVec 4) : (s.startOp c).cfg = s.cfg := rfl
@[simp] theorem State.startOp_status (c : BitVec 4) : (s.startOp c).status = .busy := rfl
@[simp] theorem State.startOp_err (c : BitVec 4) : (s.startOp c).err = .none := rfl
@[simp] theorem State.startOp_errInfo (c : BitVec 4) : (s.startOp c).errInfo = 0 := rfl
@[simp] theorem State.startOp_window (c : BitVec 4) : (s.startOp c).window = s.window := rfl
@[simp] theorem State.startOp_posIn (c : BitVec 4) : (s.startOp c).posIn = s.posIn := rfl
@[simp] theorem State.startOp_ibLen (c : BitVec 4) : (s.startOp c).ibLen = s.ibLen := rfl
@[simp] theorem State.startOp_tbLen (c : BitVec 4) : (s.startOp c).tbLen = s.tbLen := rfl
@[simp] theorem State.startOp_obLen (c : BitVec 4) : (s.startOp c).obLen = s.obLen := rfl
@[simp] theorem State.startOp_fbLen (c : BitVec 4) : (s.startOp c).fbLen = s.fbLen := rfl
@[simp] theorem State.startOp_crcOut (c : BitVec 4) : (s.startOp c).crcOut = s.crcOut := rfl
@[simp] theorem State.startOp_crcStored (c : BitVec 4) :
    (s.startOp c).crcStored =
      s.crcStored := rfl
@[simp] theorem State.startOp_mfOff (c : BitVec 4) : (s.startOp c).mfOff = s.mfOff := rfl
@[simp] theorem State.startOp_mfLen (c : BitVec 4) : (s.startOp c).mfLen = s.mfLen := rfl
@[simp] theorem State.startOp_eqFlag (c : BitVec 4) : (s.startOp c).eqFlag = s.eqFlag := rfl
@[simp] theorem State.startOp_ib (c : BitVec 4) : (s.startOp c).ib = s.ib := rfl
@[simp] theorem State.startOp_tb (c : BitVec 4) : (s.startOp c).tb = s.tb := rfl
@[simp] theorem State.startOp_ob (c : BitVec 4) : (s.startOp c).ob = s.ob := rfl
@[simp] theorem State.startOp_fb (c : BitVec 4) : (s.startOp c).fb = s.fb := rfl
@[simp] theorem State.startOp_work (c : BitVec 4) :
    (s.startOp c).work =
      { s.work with opc := c } := rfl
@[simp] theorem State.startOp_seq (c : BitVec 4) : (s.startOp c).seq = .opStart := rfl
@[simp] theorem State.startOp_grain (c : BitVec 4) : (s.startOp c).grain = s.grain := rfl
@[simp] theorem State.startOp_agenda (c : BitVec 4) : (s.startOp c).agenda = s.agenda := rfl
@[simp] theorem State.startOp_bus (c : BitVec 4) : (s.startOp c).bus = s.bus := rfl
@[simp] theorem State.startOp_freeCount (c : BitVec 4) :
    (s.startOp c).freeCount =
      s.freeCount := rfl

/-! ### complete -/

@[simp] theorem State.complete_cfg (c : BitVec 4) : (s.complete c).cfg = s.cfg := rfl
@[simp] theorem State.complete_status (c : BitVec 4) : (s.complete c).status = .done := rfl
@[simp] theorem State.complete_err (c : BitVec 4) : (s.complete c).err = .none := rfl
@[simp] theorem State.complete_errInfo (c : BitVec 4) : (s.complete c).errInfo = 0 := rfl
@[simp] theorem State.complete_window (c : BitVec 4) : (s.complete c).window = s.window := rfl
@[simp] theorem State.complete_posIn (c : BitVec 4) : (s.complete c).posIn = s.posIn := rfl
@[simp] theorem State.complete_ibLen (c : BitVec 4) : (s.complete c).ibLen = s.ibLen := rfl
@[simp] theorem State.complete_tbLen (c : BitVec 4) : (s.complete c).tbLen = s.tbLen := rfl
@[simp] theorem State.complete_obLen (c : BitVec 4) : (s.complete c).obLen = s.obLen := rfl
@[simp] theorem State.complete_fbLen (c : BitVec 4) : (s.complete c).fbLen = s.fbLen := rfl
@[simp] theorem State.complete_crcOut (c : BitVec 4) : (s.complete c).crcOut = s.crcOut := rfl
@[simp] theorem State.complete_crcStored (c : BitVec 4) :
    (s.complete c).crcStored =
      s.crcStored := rfl
@[simp] theorem State.complete_mfOff (c : BitVec 4) : (s.complete c).mfOff = s.mfOff := rfl
@[simp] theorem State.complete_mfLen (c : BitVec 4) : (s.complete c).mfLen = s.mfLen := rfl
@[simp] theorem State.complete_eqFlag (c : BitVec 4) : (s.complete c).eqFlag = s.eqFlag := rfl
@[simp] theorem State.complete_ib (c : BitVec 4) : (s.complete c).ib = s.ib := rfl
@[simp] theorem State.complete_tb (c : BitVec 4) :
    (s.complete c).tb =
      if .tb ∈ outputs c then s.tb.sealAt s.tbLen s.freeCount else s.tb := rfl
@[simp] theorem State.complete_ob (c : BitVec 4) :
    (s.complete c).ob =
      if .ob ∈ outputs c then s.ob.sealAt s.obLen s.freeCount else s.ob := rfl
@[simp] theorem State.complete_fb (c : BitVec 4) :
    (s.complete c).fb =
      if .fb ∈ outputs c then s.fb.sealAt s.fbLen s.freeCount else s.fb := rfl
@[simp] theorem State.complete_work (c : BitVec 4) :
    (s.complete c).work =
      freeWork s.cfg s.freeCount := rfl
@[simp] theorem State.complete_seq (c : BitVec 4) : (s.complete c).seq = .opStart := rfl
@[simp] theorem State.complete_grain (c : BitVec 4) : (s.complete c).grain = s.grain := rfl
@[simp] theorem State.complete_agenda (c : BitVec 4) : (s.complete c).agenda = s.agenda := rfl
@[simp] theorem State.complete_bus (c : BitVec 4) : (s.complete c).bus = s.bus := rfl
@[simp] theorem State.complete_freeCount (c : BitVec 4) :
    (s.complete c).freeCount =
      s.freeCount + 1 := rfl

/-! ### raise -/

@[simp] theorem State.raise_cfg (c : BitVec 4) (p : BitVec 1) (e : ErrKind) (k : Nat) :
    (s.raise c p e k).cfg =
      s.cfg := rfl
@[simp] theorem State.raise_status (c : BitVec 4) (p : BitVec 1) (e : ErrKind) (k : Nat) :
    (s.raise c p e k).status =
      .error := rfl
@[simp] theorem State.raise_err (c : BitVec 4) (p : BitVec 1) (e : ErrKind) (k : Nat) :
    (s.raise c p e k).err =
      e := rfl
@[simp] theorem State.raise_errInfo (c : BitVec 4) (p : BitVec 1) (e : ErrKind) (k : Nat) :
    (s.raise c p e k).errInfo =
      k := rfl
@[simp] theorem State.raise_window (c : BitVec 4) (p : BitVec 1) (e : ErrKind) (k : Nat) :
    (s.raise c p e k).window =
      s.window := rfl
@[simp] theorem State.raise_posIn (c : BitVec 4) (p : BitVec 1) (e : ErrKind) (k : Nat) :
    (s.raise c p e k).posIn =
      s.posIn := rfl
@[simp] theorem State.raise_ibLen (c : BitVec 4) (p : BitVec 1) (e : ErrKind) (k : Nat) :
    (s.raise c p e k).ibLen =
      s.ibLen := rfl
@[simp] theorem State.raise_tbLen (c : BitVec 4) (p : BitVec 1) (e : ErrKind) (k : Nat) :
    (s.raise c p e k).tbLen =
      if .tb ∈ unspecified c p e then freeLength s.cfg.tw 3 s.freeCount else s.tbLen := rfl
@[simp] theorem State.raise_obLen (c : BitVec 4) (p : BitVec 1) (e : ErrKind) (k : Nat) :
    (s.raise c p e k).obLen =
      if .ob ∈ unspecified c p e then freeLength s.cfg.aw 4 s.freeCount else s.obLen := rfl
@[simp] theorem State.raise_fbLen (c : BitVec 4) (p : BitVec 1) (e : ErrKind) (k : Nat) :
    (s.raise c p e k).fbLen =
      if .fb ∈ unspecified c p e then freeLength s.cfg.aw 5 s.freeCount else s.fbLen := rfl
@[simp] theorem State.raise_crcOut (c : BitVec 4) (p : BitVec 1) (e : ErrKind) (k : Nat) :
    (s.raise c p e k).crcOut =
      if .crcOut ∈ unspecified c p e then Config.freeBits 32 1 s.freeCount else s.crcOut := rfl
@[simp] theorem State.raise_crcStored (c : BitVec 4) (p : BitVec 1) (e : ErrKind) (k : Nat) :
    (s.raise c p e k).crcStored =
      if .crcStored ∈ unspecified c p e then Config.freeBits 32 2 s.freeCount else s.crcStored := rfl
@[simp] theorem State.raise_mfOff (c : BitVec 4) (p : BitVec 1) (e : ErrKind) (k : Nat) :
    (s.raise c p e k).mfOff =
      s.mfOff := rfl
@[simp] theorem State.raise_mfLen (c : BitVec 4) (p : BitVec 1) (e : ErrKind) (k : Nat) :
    (s.raise c p e k).mfLen =
      s.mfLen := rfl
@[simp] theorem State.raise_eqFlag (c : BitVec 4) (p : BitVec 1) (e : ErrKind) (k : Nat) :
    (s.raise c p e k).eqFlag =
      s.eqFlag := rfl
@[simp] theorem State.raise_ib (c : BitVec 4) (p : BitVec 1) (e : ErrKind) (k : Nat) :
    (s.raise c p e k).ib =
      s.ib := rfl
@[simp] theorem State.raise_tb (c : BitVec 4) (p : BitVec 1) (e : ErrKind) (k : Nat) :
    (s.raise c p e k).tb =
      if .tb ∈ unspecified c p e then Buf.forgotten s.freeCount
      else if .tb ∈ outputs c then s.tb.sealAt s.tbLen s.freeCount else s.tb := rfl
@[simp] theorem State.raise_ob (c : BitVec 4) (p : BitVec 1) (e : ErrKind) (k : Nat) :
    (s.raise c p e k).ob =
      if .ob ∈ unspecified c p e then Buf.forgotten s.freeCount else s.ob := rfl
@[simp] theorem State.raise_fb (c : BitVec 4) (p : BitVec 1) (e : ErrKind) (k : Nat) :
    (s.raise c p e k).fb =
      if .fb ∈ unspecified c p e then Buf.forgotten s.freeCount else s.fb := rfl
@[simp] theorem State.raise_work (c : BitVec 4) (p : BitVec 1) (e : ErrKind) (k : Nat) :
    (s.raise c p e k).work =
      freeWork s.cfg s.freeCount := rfl
@[simp] theorem State.raise_seq (c : BitVec 4) (p : BitVec 1) (e : ErrKind) (k : Nat) :
    (s.raise c p e k).seq =
      .opStart := rfl
@[simp] theorem State.raise_grain (c : BitVec 4) (p : BitVec 1) (e : ErrKind) (k : Nat) :
    (s.raise c p e k).grain =
      s.grain := rfl
@[simp] theorem State.raise_agenda (c : BitVec 4) (p : BitVec 1) (e : ErrKind) (k : Nat) :
    (s.raise c p e k).agenda =
      s.agenda := rfl
@[simp] theorem State.raise_bus (c : BitVec 4) (p : BitVec 1) (e : ErrKind) (k : Nat) :
    (s.raise c p e k).bus =
      s.bus := rfl
@[simp] theorem State.raise_freeCount (c : BitVec 4) (p : BitVec 1) (e : ErrKind) (k : Nat) :
    (s.raise c p e k).freeCount =
      s.freeCount + 1 := rfl

/-! ### rejectCommand -/

@[simp] theorem State.rejectCommand_cfg : (s.rejectCommand).cfg = s.cfg := rfl
@[simp] theorem State.rejectCommand_status : (s.rejectCommand).status = .error := rfl
@[simp] theorem State.rejectCommand_err : (s.rejectCommand).err = .illegalCommand := rfl
@[simp] theorem State.rejectCommand_errInfo : (s.rejectCommand).errInfo = 0 := rfl
@[simp] theorem State.rejectCommand_window : (s.rejectCommand).window = s.window := rfl
@[simp] theorem State.rejectCommand_posIn : (s.rejectCommand).posIn = s.posIn := rfl
@[simp] theorem State.rejectCommand_ibLen : (s.rejectCommand).ibLen = s.ibLen := rfl
@[simp] theorem State.rejectCommand_tbLen : (s.rejectCommand).tbLen = s.tbLen := rfl
@[simp] theorem State.rejectCommand_obLen : (s.rejectCommand).obLen = s.obLen := rfl
@[simp] theorem State.rejectCommand_fbLen : (s.rejectCommand).fbLen = s.fbLen := rfl
@[simp] theorem State.rejectCommand_crcOut : (s.rejectCommand).crcOut = s.crcOut := rfl
@[simp] theorem State.rejectCommand_crcStored : (s.rejectCommand).crcStored = s.crcStored := rfl
@[simp] theorem State.rejectCommand_mfOff : (s.rejectCommand).mfOff = s.mfOff := rfl
@[simp] theorem State.rejectCommand_mfLen : (s.rejectCommand).mfLen = s.mfLen := rfl
@[simp] theorem State.rejectCommand_eqFlag : (s.rejectCommand).eqFlag = s.eqFlag := rfl
@[simp] theorem State.rejectCommand_ib : (s.rejectCommand).ib = s.ib := rfl
@[simp] theorem State.rejectCommand_tb : (s.rejectCommand).tb = s.tb := rfl
@[simp] theorem State.rejectCommand_ob : (s.rejectCommand).ob = s.ob := rfl
@[simp] theorem State.rejectCommand_fb : (s.rejectCommand).fb = s.fb := rfl
@[simp] theorem State.rejectCommand_work : (s.rejectCommand).work = s.work := rfl
@[simp] theorem State.rejectCommand_seq : (s.rejectCommand).seq = s.seq := rfl
@[simp] theorem State.rejectCommand_grain : (s.rejectCommand).grain = s.grain := rfl
@[simp] theorem State.rejectCommand_agenda : (s.rejectCommand).agenda = s.agenda := rfl
@[simp] theorem State.rejectCommand_bus : (s.rejectCommand).bus = s.bus := rfl
@[simp] theorem State.rejectCommand_freeCount : (s.rejectCommand).freeCount = s.freeCount := rfl

/-! ### putTokens -/

@[simp] theorem State.putTokens_cfg (ts : List Token) : (s.putTokens ts).cfg = s.cfg := rfl
@[simp] theorem State.putTokens_status (ts : List Token) : (s.putTokens ts).status = s.status := rfl
@[simp] theorem State.putTokens_err (ts : List Token) : (s.putTokens ts).err = s.err := rfl
@[simp] theorem State.putTokens_errInfo (ts : List Token) :
    (s.putTokens ts).errInfo =
      s.errInfo := rfl
@[simp] theorem State.putTokens_window (ts : List Token) : (s.putTokens ts).window = s.window := rfl
@[simp] theorem State.putTokens_posIn (ts : List Token) : (s.putTokens ts).posIn = s.posIn := rfl
@[simp] theorem State.putTokens_ibLen (ts : List Token) : (s.putTokens ts).ibLen = s.ibLen := rfl
@[simp] theorem State.putTokens_tbLen (ts : List Token) : (s.putTokens ts).tbLen = ts.length := rfl
@[simp] theorem State.putTokens_obLen (ts : List Token) : (s.putTokens ts).obLen = s.obLen := rfl
@[simp] theorem State.putTokens_fbLen (ts : List Token) : (s.putTokens ts).fbLen = s.fbLen := rfl
@[simp] theorem State.putTokens_crcOut (ts : List Token) : (s.putTokens ts).crcOut = s.crcOut := rfl
@[simp] theorem State.putTokens_crcStored (ts : List Token) :
    (s.putTokens ts).crcStored =
      s.crcStored := rfl
@[simp] theorem State.putTokens_mfOff (ts : List Token) : (s.putTokens ts).mfOff = s.mfOff := rfl
@[simp] theorem State.putTokens_mfLen (ts : List Token) : (s.putTokens ts).mfLen = s.mfLen := rfl
@[simp] theorem State.putTokens_eqFlag (ts : List Token) : (s.putTokens ts).eqFlag = s.eqFlag := rfl
@[simp] theorem State.putTokens_ib (ts : List Token) : (s.putTokens ts).ib = s.ib := rfl
@[simp] theorem State.putTokens_tb (ts : List Token) : (s.putTokens ts).tb = s.tb.put ts := rfl
@[simp] theorem State.putTokens_ob (ts : List Token) : (s.putTokens ts).ob = s.ob := rfl
@[simp] theorem State.putTokens_fb (ts : List Token) : (s.putTokens ts).fb = s.fb := rfl
@[simp] theorem State.putTokens_work (ts : List Token) : (s.putTokens ts).work = s.work := rfl
@[simp] theorem State.putTokens_seq (ts : List Token) : (s.putTokens ts).seq = s.seq := rfl
@[simp] theorem State.putTokens_grain (ts : List Token) : (s.putTokens ts).grain = s.grain := rfl
@[simp] theorem State.putTokens_agenda (ts : List Token) : (s.putTokens ts).agenda = s.agenda := rfl
@[simp] theorem State.putTokens_bus (ts : List Token) : (s.putTokens ts).bus = s.bus := rfl
@[simp] theorem State.putTokens_freeCount (ts : List Token) :
    (s.putTokens ts).freeCount =
      s.freeCount := rfl

/-! ### putOutput -/

@[simp] theorem State.putOutput_cfg (bs : List Byte) : (s.putOutput bs).cfg = s.cfg := rfl
@[simp] theorem State.putOutput_status (bs : List Byte) : (s.putOutput bs).status = s.status := rfl
@[simp] theorem State.putOutput_err (bs : List Byte) : (s.putOutput bs).err = s.err := rfl
@[simp] theorem State.putOutput_errInfo (bs : List Byte) :
    (s.putOutput bs).errInfo =
      s.errInfo := rfl
@[simp] theorem State.putOutput_window (bs : List Byte) : (s.putOutput bs).window = s.window := rfl
@[simp] theorem State.putOutput_posIn (bs : List Byte) : (s.putOutput bs).posIn = s.posIn := rfl
@[simp] theorem State.putOutput_ibLen (bs : List Byte) : (s.putOutput bs).ibLen = s.ibLen := rfl
@[simp] theorem State.putOutput_tbLen (bs : List Byte) : (s.putOutput bs).tbLen = s.tbLen := rfl
@[simp] theorem State.putOutput_obLen (bs : List Byte) : (s.putOutput bs).obLen = bs.length := rfl
@[simp] theorem State.putOutput_fbLen (bs : List Byte) : (s.putOutput bs).fbLen = s.fbLen := rfl
@[simp] theorem State.putOutput_crcOut (bs : List Byte) : (s.putOutput bs).crcOut = s.crcOut := rfl
@[simp] theorem State.putOutput_crcStored (bs : List Byte) :
    (s.putOutput bs).crcStored =
      s.crcStored := rfl
@[simp] theorem State.putOutput_mfOff (bs : List Byte) : (s.putOutput bs).mfOff = s.mfOff := rfl
@[simp] theorem State.putOutput_mfLen (bs : List Byte) : (s.putOutput bs).mfLen = s.mfLen := rfl
@[simp] theorem State.putOutput_eqFlag (bs : List Byte) : (s.putOutput bs).eqFlag = s.eqFlag := rfl
@[simp] theorem State.putOutput_ib (bs : List Byte) : (s.putOutput bs).ib = s.ib := rfl
@[simp] theorem State.putOutput_tb (bs : List Byte) : (s.putOutput bs).tb = s.tb := rfl
@[simp] theorem State.putOutput_ob (bs : List Byte) : (s.putOutput bs).ob = s.ob.put bs := rfl
@[simp] theorem State.putOutput_fb (bs : List Byte) : (s.putOutput bs).fb = s.fb := rfl
@[simp] theorem State.putOutput_work (bs : List Byte) : (s.putOutput bs).work = s.work := rfl
@[simp] theorem State.putOutput_seq (bs : List Byte) : (s.putOutput bs).seq = s.seq := rfl
@[simp] theorem State.putOutput_grain (bs : List Byte) : (s.putOutput bs).grain = s.grain := rfl
@[simp] theorem State.putOutput_agenda (bs : List Byte) : (s.putOutput bs).agenda = s.agenda := rfl
@[simp] theorem State.putOutput_bus (bs : List Byte) : (s.putOutput bs).bus = s.bus := rfl
@[simp] theorem State.putOutput_freeCount (bs : List Byte) :
    (s.putOutput bs).freeCount =
      s.freeCount := rfl

/-! ### putFrame -/

@[simp] theorem State.putFrame_cfg (bs : List Byte) : (s.putFrame bs).cfg = s.cfg := rfl
@[simp] theorem State.putFrame_status (bs : List Byte) : (s.putFrame bs).status = s.status := rfl
@[simp] theorem State.putFrame_err (bs : List Byte) : (s.putFrame bs).err = s.err := rfl
@[simp] theorem State.putFrame_errInfo (bs : List Byte) : (s.putFrame bs).errInfo = s.errInfo := rfl
@[simp] theorem State.putFrame_window (bs : List Byte) : (s.putFrame bs).window = s.window := rfl
@[simp] theorem State.putFrame_posIn (bs : List Byte) : (s.putFrame bs).posIn = s.posIn := rfl
@[simp] theorem State.putFrame_ibLen (bs : List Byte) : (s.putFrame bs).ibLen = s.ibLen := rfl
@[simp] theorem State.putFrame_tbLen (bs : List Byte) : (s.putFrame bs).tbLen = s.tbLen := rfl
@[simp] theorem State.putFrame_obLen (bs : List Byte) : (s.putFrame bs).obLen = s.obLen := rfl
@[simp] theorem State.putFrame_fbLen (bs : List Byte) : (s.putFrame bs).fbLen = bs.length := rfl
@[simp] theorem State.putFrame_crcOut (bs : List Byte) : (s.putFrame bs).crcOut = s.crcOut := rfl
@[simp] theorem State.putFrame_crcStored (bs : List Byte) :
    (s.putFrame bs).crcStored =
      s.crcStored := rfl
@[simp] theorem State.putFrame_mfOff (bs : List Byte) : (s.putFrame bs).mfOff = s.mfOff := rfl
@[simp] theorem State.putFrame_mfLen (bs : List Byte) : (s.putFrame bs).mfLen = s.mfLen := rfl
@[simp] theorem State.putFrame_eqFlag (bs : List Byte) : (s.putFrame bs).eqFlag = s.eqFlag := rfl
@[simp] theorem State.putFrame_ib (bs : List Byte) : (s.putFrame bs).ib = s.ib := rfl
@[simp] theorem State.putFrame_tb (bs : List Byte) : (s.putFrame bs).tb = s.tb := rfl
@[simp] theorem State.putFrame_ob (bs : List Byte) : (s.putFrame bs).ob = s.ob := rfl
@[simp] theorem State.putFrame_fb (bs : List Byte) : (s.putFrame bs).fb = s.fb.put bs := rfl
@[simp] theorem State.putFrame_work (bs : List Byte) : (s.putFrame bs).work = s.work := rfl
@[simp] theorem State.putFrame_seq (bs : List Byte) : (s.putFrame bs).seq = s.seq := rfl
@[simp] theorem State.putFrame_grain (bs : List Byte) : (s.putFrame bs).grain = s.grain := rfl
@[simp] theorem State.putFrame_agenda (bs : List Byte) : (s.putFrame bs).agenda = s.agenda := rfl
@[simp] theorem State.putFrame_bus (bs : List Byte) : (s.putFrame bs).bus = s.bus := rfl
@[simp] theorem State.putFrame_freeCount (bs : List Byte) :
    (s.putFrame bs).freeCount =
      s.freeCount := rfl

/-! ### putSums -/

@[simp] theorem State.putSums_cfg (x y : Word32) : (s.putSums x y).cfg = s.cfg := rfl
@[simp] theorem State.putSums_status (x y : Word32) : (s.putSums x y).status = s.status := rfl
@[simp] theorem State.putSums_err (x y : Word32) : (s.putSums x y).err = s.err := rfl
@[simp] theorem State.putSums_errInfo (x y : Word32) : (s.putSums x y).errInfo = s.errInfo := rfl
@[simp] theorem State.putSums_window (x y : Word32) : (s.putSums x y).window = s.window := rfl
@[simp] theorem State.putSums_posIn (x y : Word32) : (s.putSums x y).posIn = s.posIn := rfl
@[simp] theorem State.putSums_ibLen (x y : Word32) : (s.putSums x y).ibLen = s.ibLen := rfl
@[simp] theorem State.putSums_tbLen (x y : Word32) : (s.putSums x y).tbLen = s.tbLen := rfl
@[simp] theorem State.putSums_obLen (x y : Word32) : (s.putSums x y).obLen = s.obLen := rfl
@[simp] theorem State.putSums_fbLen (x y : Word32) : (s.putSums x y).fbLen = s.fbLen := rfl
@[simp] theorem State.putSums_crcOut (x y : Word32) : (s.putSums x y).crcOut = x := rfl
@[simp] theorem State.putSums_crcStored (x y : Word32) : (s.putSums x y).crcStored = y := rfl
@[simp] theorem State.putSums_mfOff (x y : Word32) : (s.putSums x y).mfOff = s.mfOff := rfl
@[simp] theorem State.putSums_mfLen (x y : Word32) : (s.putSums x y).mfLen = s.mfLen := rfl
@[simp] theorem State.putSums_eqFlag (x y : Word32) : (s.putSums x y).eqFlag = s.eqFlag := rfl
@[simp] theorem State.putSums_ib (x y : Word32) : (s.putSums x y).ib = s.ib := rfl
@[simp] theorem State.putSums_tb (x y : Word32) : (s.putSums x y).tb = s.tb := rfl
@[simp] theorem State.putSums_ob (x y : Word32) : (s.putSums x y).ob = s.ob := rfl
@[simp] theorem State.putSums_fb (x y : Word32) : (s.putSums x y).fb = s.fb := rfl
@[simp] theorem State.putSums_work (x y : Word32) : (s.putSums x y).work = s.work := rfl
@[simp] theorem State.putSums_seq (x y : Word32) : (s.putSums x y).seq = s.seq := rfl
@[simp] theorem State.putSums_grain (x y : Word32) : (s.putSums x y).grain = s.grain := rfl
@[simp] theorem State.putSums_agenda (x y : Word32) : (s.putSums x y).agenda = s.agenda := rfl
@[simp] theorem State.putSums_bus (x y : Word32) : (s.putSums x y).bus = s.bus := rfl
@[simp] theorem State.putSums_freeCount (x y : Word32) :
    (s.putSums x y).freeCount =
      s.freeCount := rfl

/-! ### popTurn -/

@[simp] theorem State.popTurn_cfg : (s.popTurn).cfg = s.cfg := rfl
@[simp] theorem State.popTurn_status : (s.popTurn).status = s.status := rfl
@[simp] theorem State.popTurn_err : (s.popTurn).err = s.err := rfl
@[simp] theorem State.popTurn_errInfo : (s.popTurn).errInfo = s.errInfo := rfl
@[simp] theorem State.popTurn_window : (s.popTurn).window = s.window := rfl
@[simp] theorem State.popTurn_posIn : (s.popTurn).posIn = s.posIn := rfl
@[simp] theorem State.popTurn_ibLen : (s.popTurn).ibLen = s.ibLen := rfl
@[simp] theorem State.popTurn_tbLen : (s.popTurn).tbLen = s.tbLen := rfl
@[simp] theorem State.popTurn_obLen : (s.popTurn).obLen = s.obLen := rfl
@[simp] theorem State.popTurn_fbLen : (s.popTurn).fbLen = s.fbLen := rfl
@[simp] theorem State.popTurn_crcOut : (s.popTurn).crcOut = s.crcOut := rfl
@[simp] theorem State.popTurn_crcStored : (s.popTurn).crcStored = s.crcStored := rfl
@[simp] theorem State.popTurn_mfOff : (s.popTurn).mfOff = s.mfOff := rfl
@[simp] theorem State.popTurn_mfLen : (s.popTurn).mfLen = s.mfLen := rfl
@[simp] theorem State.popTurn_eqFlag : (s.popTurn).eqFlag = s.eqFlag := rfl
@[simp] theorem State.popTurn_ib : (s.popTurn).ib = s.ib := rfl
@[simp] theorem State.popTurn_tb : (s.popTurn).tb = s.tb := rfl
@[simp] theorem State.popTurn_ob : (s.popTurn).ob = s.ob := rfl
@[simp] theorem State.popTurn_fb : (s.popTurn).fb = s.fb := rfl
@[simp] theorem State.popTurn_work : (s.popTurn).work = s.work := rfl
@[simp] theorem State.popTurn_seq : (s.popTurn).seq = s.seq := rfl
@[simp] theorem State.popTurn_grain : (s.popTurn).grain = s.grain := rfl
@[simp] theorem State.popTurn_agenda : (s.popTurn).agenda = s.agenda.tail := rfl
@[simp] theorem State.popTurn_bus : (s.popTurn).bus = s.bus := rfl
@[simp] theorem State.popTurn_freeCount : (s.popTurn).freeCount = s.freeCount := rfl

/-! ### afterToken -/

@[simp] theorem State.afterToken_cfg (out : List Byte) (w : Work) :
    (s.afterToken out w).cfg =
      s.cfg := rfl
@[simp] theorem State.afterToken_status (out : List Byte) (w : Work) :
    (s.afterToken out w).status =
      s.status := rfl
@[simp] theorem State.afterToken_err (out : List Byte) (w : Work) :
    (s.afterToken out w).err =
      s.err := rfl
@[simp] theorem State.afterToken_errInfo (out : List Byte) (w : Work) :
    (s.afterToken out w).errInfo =
      s.errInfo := rfl
@[simp] theorem State.afterToken_window (out : List Byte) (w : Work) :
    (s.afterToken out w).window =
      s.window := rfl
@[simp] theorem State.afterToken_posIn (out : List Byte) (w : Work) :
    (s.afterToken out w).posIn =
      s.posIn := rfl
@[simp] theorem State.afterToken_ibLen (out : List Byte) (w : Work) :
    (s.afterToken out w).ibLen =
      s.ibLen := rfl
@[simp] theorem State.afterToken_tbLen (out : List Byte) (w : Work) :
    (s.afterToken out w).tbLen =
      s.tbLen := rfl
@[simp] theorem State.afterToken_obLen (out : List Byte) (w : Work) :
    (s.afterToken out w).obLen =
      out.length := rfl
@[simp] theorem State.afterToken_fbLen (out : List Byte) (w : Work) :
    (s.afterToken out w).fbLen =
      s.fbLen := rfl
@[simp] theorem State.afterToken_crcOut (out : List Byte) (w : Work) :
    (s.afterToken out w).crcOut =
      s.crcOut := rfl
@[simp] theorem State.afterToken_crcStored (out : List Byte) (w : Work) :
    (s.afterToken out w).crcStored =
      s.crcStored := rfl
@[simp] theorem State.afterToken_mfOff (out : List Byte) (w : Work) :
    (s.afterToken out w).mfOff =
      s.mfOff := rfl
@[simp] theorem State.afterToken_mfLen (out : List Byte) (w : Work) :
    (s.afterToken out w).mfLen =
      s.mfLen := rfl
@[simp] theorem State.afterToken_eqFlag (out : List Byte) (w : Work) :
    (s.afterToken out w).eqFlag =
      s.eqFlag := rfl
@[simp] theorem State.afterToken_ib (out : List Byte) (w : Work) :
    (s.afterToken out w).ib =
      s.ib := rfl
@[simp] theorem State.afterToken_tb (out : List Byte) (w : Work) :
    (s.afterToken out w).tb =
      s.tb := rfl
@[simp] theorem State.afterToken_ob (out : List Byte) (w : Work) :
    (s.afterToken out w).ob =
      s.ob.writeAll s.obLen (out.drop s.obLen) := rfl
@[simp] theorem State.afterToken_fb (out : List Byte) (w : Work) :
    (s.afterToken out w).fb =
      s.fb := rfl
@[simp] theorem State.afterToken_work (out : List Byte) (w : Work) :
    (s.afterToken out w).work =
      { w with tix := s.work.tix + 1 } := rfl
@[simp] theorem State.afterToken_seq (out : List Byte) (w : Work) :
    (s.afterToken out w).seq =
      .dFetch := rfl
@[simp] theorem State.afterToken_grain (out : List Byte) (w : Work) :
    (s.afterToken out w).grain =
      s.grain := rfl
@[simp] theorem State.afterToken_agenda (out : List Byte) (w : Work) :
    (s.afterToken out w).agenda =
      s.agenda := rfl
@[simp] theorem State.afterToken_bus (out : List Byte) (w : Work) :
    (s.afterToken out w).bus =
      s.bus := rfl
@[simp] theorem State.afterToken_freeCount (out : List Byte) (w : Work) :
    (s.afterToken out w).freeCount =
      s.freeCount := rfl

/-! ### beginTokens -/

@[simp] theorem State.beginTokens_cfg : (s.beginTokens).cfg = s.cfg := rfl
@[simp] theorem State.beginTokens_status : (s.beginTokens).status = s.status := rfl
@[simp] theorem State.beginTokens_err : (s.beginTokens).err = s.err := rfl
@[simp] theorem State.beginTokens_errInfo : (s.beginTokens).errInfo = s.errInfo := rfl
@[simp] theorem State.beginTokens_window : (s.beginTokens).window = s.window := rfl
@[simp] theorem State.beginTokens_posIn : (s.beginTokens).posIn = s.posIn := rfl
@[simp] theorem State.beginTokens_ibLen : (s.beginTokens).ibLen = s.ibLen := rfl
@[simp] theorem State.beginTokens_tbLen : (s.beginTokens).tbLen = s.tbLen := rfl
@[simp] theorem State.beginTokens_obLen : (s.beginTokens).obLen = 0 := rfl
@[simp] theorem State.beginTokens_fbLen : (s.beginTokens).fbLen = s.fbLen := rfl
@[simp] theorem State.beginTokens_crcOut : (s.beginTokens).crcOut = s.crcOut := rfl
@[simp] theorem State.beginTokens_crcStored : (s.beginTokens).crcStored = s.crcStored := rfl
@[simp] theorem State.beginTokens_mfOff : (s.beginTokens).mfOff = s.mfOff := rfl
@[simp] theorem State.beginTokens_mfLen : (s.beginTokens).mfLen = s.mfLen := rfl
@[simp] theorem State.beginTokens_eqFlag : (s.beginTokens).eqFlag = s.eqFlag := rfl
@[simp] theorem State.beginTokens_ib : (s.beginTokens).ib = s.ib := rfl
@[simp] theorem State.beginTokens_tb : (s.beginTokens).tb = s.tb := rfl
@[simp] theorem State.beginTokens_ob : (s.beginTokens).ob = s.ob := rfl
@[simp] theorem State.beginTokens_fb : (s.beginTokens).fb = s.fb := rfl
@[simp] theorem State.beginTokens_work : (s.beginTokens).work = { s.work with tix := 0 } := rfl
@[simp] theorem State.beginTokens_seq : (s.beginTokens).seq = .dFetch := rfl
@[simp] theorem State.beginTokens_grain : (s.beginTokens).grain = s.grain := rfl
@[simp] theorem State.beginTokens_agenda : (s.beginTokens).agenda = s.agenda := rfl
@[simp] theorem State.beginTokens_bus : (s.beginTokens).bus = s.bus := rfl
@[simp] theorem State.beginTokens_freeCount : (s.beginTokens).freeCount = s.freeCount := rfl

/-! ### fbWrite -/

@[simp] theorem State.fbWrite_cfg (a n v : Nat) : (s.fbWrite a n v).cfg = s.cfg := rfl
@[simp] theorem State.fbWrite_status (a n v : Nat) : (s.fbWrite a n v).status = s.status := rfl
@[simp] theorem State.fbWrite_err (a n v : Nat) : (s.fbWrite a n v).err = s.err := rfl
@[simp] theorem State.fbWrite_errInfo (a n v : Nat) : (s.fbWrite a n v).errInfo = s.errInfo := rfl
@[simp] theorem State.fbWrite_window (a n v : Nat) : (s.fbWrite a n v).window = s.window := rfl
@[simp] theorem State.fbWrite_posIn (a n v : Nat) : (s.fbWrite a n v).posIn = s.posIn := rfl
@[simp] theorem State.fbWrite_ibLen (a n v : Nat) : (s.fbWrite a n v).ibLen = s.ibLen := rfl
@[simp] theorem State.fbWrite_tbLen (a n v : Nat) : (s.fbWrite a n v).tbLen = s.tbLen := rfl
@[simp] theorem State.fbWrite_obLen (a n v : Nat) : (s.fbWrite a n v).obLen = s.obLen := rfl
@[simp] theorem State.fbWrite_fbLen (a n v : Nat) : (s.fbWrite a n v).fbLen = s.fbLen := rfl
@[simp] theorem State.fbWrite_crcOut (a n v : Nat) : (s.fbWrite a n v).crcOut = s.crcOut := rfl
@[simp] theorem State.fbWrite_crcStored (a n v : Nat) :
    (s.fbWrite a n v).crcStored =
      s.crcStored := rfl
@[simp] theorem State.fbWrite_mfOff (a n v : Nat) : (s.fbWrite a n v).mfOff = s.mfOff := rfl
@[simp] theorem State.fbWrite_mfLen (a n v : Nat) : (s.fbWrite a n v).mfLen = s.mfLen := rfl
@[simp] theorem State.fbWrite_eqFlag (a n v : Nat) : (s.fbWrite a n v).eqFlag = s.eqFlag := rfl
@[simp] theorem State.fbWrite_ib (a n v : Nat) : (s.fbWrite a n v).ib = s.ib := rfl
@[simp] theorem State.fbWrite_tb (a n v : Nat) : (s.fbWrite a n v).tb = s.tb := rfl
@[simp] theorem State.fbWrite_ob (a n v : Nat) : (s.fbWrite a n v).ob = s.ob := rfl
@[simp] theorem State.fbWrite_fb (a n v : Nat) :
    (s.fbWrite a n v).fb =
      s.fb.writeAll a (leBytes n v) := rfl
@[simp] theorem State.fbWrite_work (a n v : Nat) : (s.fbWrite a n v).work = s.work := rfl
@[simp] theorem State.fbWrite_seq (a n v : Nat) : (s.fbWrite a n v).seq = s.seq := rfl
@[simp] theorem State.fbWrite_grain (a n v : Nat) : (s.fbWrite a n v).grain = s.grain := rfl
@[simp] theorem State.fbWrite_agenda (a n v : Nat) : (s.fbWrite a n v).agenda = s.agenda := rfl
@[simp] theorem State.fbWrite_bus (a n v : Nat) : (s.fbWrite a n v).bus = s.bus := rfl
@[simp] theorem State.fbWrite_freeCount (a n v : Nat) :
    (s.fbWrite a n v).freeCount =
      s.freeCount := rfl

/-! ### The reset state (R36) -/

@[simp] theorem State.reset_status : State.reset.status = .idle := rfl
@[simp] theorem State.reset_err : State.reset.err = .none := rfl
@[simp] theorem State.reset_errInfo : State.reset.errInfo = 0 := rfl
@[simp] theorem State.reset_window : State.reset.window = 4096 := rfl
@[simp] theorem State.reset_posIn : State.reset.posIn = 0 := rfl
@[simp] theorem State.reset_ibLen : State.reset.ibLen = 0 := rfl
@[simp] theorem State.reset_tbLen : State.reset.tbLen = 0 := rfl
@[simp] theorem State.reset_obLen : State.reset.obLen = 0 := rfl
@[simp] theorem State.reset_fbLen : State.reset.fbLen = 0 := rfl
@[simp] theorem State.reset_crcOut : State.reset.crcOut = 0 := rfl
@[simp] theorem State.reset_crcStored : State.reset.crcStored = 0 := rfl
@[simp] theorem State.reset_mfOff : State.reset.mfOff = 0 := rfl
@[simp] theorem State.reset_mfLen : State.reset.mfLen = 0 := rfl
@[simp] theorem State.reset_eqFlag : State.reset.eqFlag = 0 := rfl
@[simp] theorem State.reset_agenda : State.reset.agenda = [] := rfl

end Sys2Proof.Machine
end

