-- ==== Sys2Proof/Laws/Ops.lean ====
section
/-! SUPPORT. What each shared operation can do, said once: capacities and `append`, free lengths, byte
order and records, completing an operation and raising an error. -/

namespace Sys2Proof

/-! ## Byte order and records (R65, R92, R94) -/

@[simp] theorem length_leBytes (n v : Nat) : (leBytes n v).length = n := by
  induction n generalizing v with
  | zero => rfl
  | succ n ih => simp [leBytes, ih]

/-- Reading back what `MemWrite` stores gives the value, cut to the bytes stored. -/
theorem leNat_leBytes (n v : Nat) : leNat (leBytes n v) = v % 256 ^ n := by
  induction n generalizing v with
  | zero => simp [leBytes, leNat, Nat.mod_one]
  | succ n ih =>
    rw [leBytes, leNat, ih, Nat.pow_succ', Nat.mod_mul]
    rfl

@[simp] theorem length_recordBytes (t : Token) : (recordBytes t).length = 5 := by
  simp [recordBytes]

/-- The five bytes of a record, written out (R92). -/
theorem recordBytes_eq (t : Token) :
    recordBytes t =
      [BitVec.ofNat 8 t.offset.toNat, BitVec.ofNat 8 (t.offset.toNat / 256),
       BitVec.ofNat 8 t.length.toNat, BitVec.ofNat 8 (t.length.toNat / 256), t.symbol] := by
  simp [recordBytes, leBytes]

/-- Field assembly inverts the record (R94, R211). -/
theorem tokenOfBytes_recordBytes (t : Token) :
    tokenOfBytes (BitVec.ofNat 8 t.offset.toNat) (BitVec.ofNat 8 (t.offset.toNat / 256))
      (BitVec.ofNat 8 t.length.toNat) (BitVec.ofNat 8 (t.length.toNat / 256)) t.symbol = t := by
  have key : ∀ h : Half,
      BitVec.ofNat 16 (leNat [BitVec.ofNat 8 h.toNat, BitVec.ofNat 8 (h.toNat / 256)]) = h := by
    intro h
    apply BitVec.eq_of_toNat_eq
    have := leNat_leBytes 2 h.toNat
    simp only [leBytes] at this
    rw [this, BitVec.toNat_ofNat]
    have := h.isLt
    omega
  simp only [tokenOfBytes, key]

namespace Machine

/-! ## Capacities -/

@[simp] theorem full_none (n : Nat) : full none n = false := rfl

@[simp] theorem exceeds_none (n : Nat) : exceeds none n = false := rfl

/-- A buffer is full exactly when one more element would exceed its capacity. -/
theorem full_iff_exceeds_succ (cap : Option Nat) (n : Nat) : full cap n = exceeds cap (n + 1) := by
  cases cap with
  | none => rfl
  | some c => simp [full, exceeds]

@[simp] theorem exceeds_zero (cap : Option Nat) : exceeds cap 0 = false := by
  cases cap <;> simp [exceeds]

/-- Fewer elements exceed a capacity only if more do. -/
theorem exceeds_mono {cap : Option Nat} {m n : Nat} (h : exceeds cap n = false) (hmn : m ≤ n) :
    exceeds cap m = false := by
  cases cap with
  | none => rfl
  | some c => simp [exceeds] at h ⊢; omega

/-- A free length holds a value of its register's width, and nothing more is known of it (R252; log 6). -/
theorem fits_freeLength (width : Option Nat) (k n : Nat) : fits width (freeLength width k n) = true := by
  cases width with
  | none => rfl
  | some w => exact decide_eq_true (Nat.mod_lt _ (Nat.two_pow_pos w))

/-- What `append` can do: CAPACITY on a full buffer, else one element more (R14). -/
theorem appendTo_cases {α : Type} (cap : Option Nat) (xs : List α) (x : α) :
    (full cap xs.length = true ∧ appendTo cap xs x = .error .capacity) ∨
    (full cap xs.length = false ∧ appendTo cap xs x = .ok (xs ++ [x])) := by
  unfold appendTo
  cases h : full cap xs.length <;> simp

/-! ## The sequences an operation leaves in its output buffers -/

@[simp] theorem tbTokens_putTokens (s : State) (ts : List Token) : (s.putTokens ts).tbTokens = ts :=
  Buf.map_read_put Config.freeToken s.tb ts

@[simp] theorem obBytes_putOutput (s : State) (bs : List Byte) : (s.putOutput bs).obBytes = bs :=
  Buf.map_read_put (Config.freeByte .ob) s.ob bs

@[simp] theorem fbBytes_putFrame (s : State) (bs : List Byte) : (s.putFrame bs).fbBytes = bs :=
  Buf.map_read_put (Config.freeByte .fb) s.fb bs

/-- Completing an operation changes no element of a buffer below its length, if something has written
it. -/
theorem Buf.read_sealAt_of_written {α : Type} (free : Nat → Nat → α) {b : Buf α} {len n i : Nat} {v : α}
    (hi : i < len) (h : Memory.get? b.cells i = some v) : (b.sealAt len n).read free i = v := by
  simp [Buf.read_sealAt, hi, h]

theorem obBytes_length (s : State) : s.obBytes.length = s.obLen := by simp [State.obBytes]

theorem ibBytes_length (s : State) : s.ibBytes.length = s.ibLen := by simp [State.ibBytes]

theorem fbBytes_length (s : State) : s.fbBytes.length = s.fbLen := by simp [State.fbBytes]

theorem tbTokens_length (s : State) : s.tbTokens.length = s.tbLen := by simp [State.tbTokens]

/-! ## Completing an operation and raising an error -/

/-- An operation that completes ends DONE (R32). -/
theorem State.complete_endsDone (s : State) (c : BitVec 4) : (s.complete c).EndsDone := ⟨rfl, rfl, rfl⟩

/-- An operation that raises ends ERROR with that kind and information (R251). -/
theorem State.raise_endsError (s : State) (c : BitVec 4) (p : BitVec 1) (e : ErrKind) (k : Nat) :
    (s.raise c p e k).EndsError e k := ⟨rfl, rfl, rfl⟩

theorem State.complete_memoryWf {s : State} (h : s.MemoryWf) (c : BitVec 4) : (s.complete c).MemoryWf := by
  obtain ⟨h1, h2, h3, h4⟩ := h
  refine ⟨h1, ?_, ?_, ?_⟩ <;> simp only [State.complete_tb, State.complete_ob, State.complete_fb] <;> split
  · exact Memory.wf_below h2 _
  · exact h2
  · exact Memory.wf_below h3 _
  · exact h3
  · exact Memory.wf_below h4 _
  · exact h4

theorem State.raise_memoryWf {s : State} (h : s.MemoryWf) (c : BitVec 4) (p : BitVec 1) (e : ErrKind)
    (k : Nat) : (s.raise c p e k).MemoryWf := by
  obtain ⟨h1, h2, h3, h4⟩ := h
  have nil : ∀ {α : Type} (n : Nat), Memory.wf (Buf.forgotten (α := α) n).cells := fun n => List.Pairwise.nil
  refine ⟨h1, ?_, ?_, ?_⟩ <;> simp only [State.raise_tb, State.raise_ob, State.raise_fb] <;> split
  · exact nil _
  · split
    · exact Memory.wf_below h2 _
    · exact h2
  · exact nil _
  · exact h3
  · exact nil _
  · exact h4

theorem State.complete_lengthsLegal {s : State} (h : s.LengthsLegal) (c : BitVec 4) :
    (s.complete c).LengthsLegal := h

/-- An error changes no length but those it leaves unspecified (R252). -/
theorem State.raise_lengths_of_specified (s : State) (c : BitVec 4) (p : BitVec 1) (e : ErrKind) (k : Nat) :
    (s.raise c p e k).ibLen = s.ibLen ∧
    (.tb ∉ unspecified c p e → (s.raise c p e k).tbLen = s.tbLen) ∧
    (.ob ∉ unspecified c p e → (s.raise c p e k).obLen = s.obLen) ∧
    (.fb ∉ unspecified c p e → (s.raise c p e k).fbLen = s.fbLen) :=
  ⟨rfl, fun h => if_neg h, fun h => if_neg h, fun h => if_neg h⟩

end Machine

end Sys2Proof
end

