-- ==== Sys2Proof/Laws/PerInstr.lean ====
section
/-! SUPPORT. What holds of every instruction as syntax, one lemma for each constructor: an instruction is
either a token, encoded in its record's five bytes (R92), or an operation, encoded in a legal CMD code (R104). -/

namespace Sys2Proof.Laws.Format

/-- The format of an instruction's encoding. -/
def Statement (i : Instr) : Prop :=
  (∃ t, tokenOf i = some t ∧ encodeInstr i = .record (recordBytes t) ∧ (recordBytes t).length = 5) ∨
  (∃ c : BitVec 4, tokenOf i = none ∧ encodeInstr i = .command c ∧ 1 ≤ c.toNat ∧ c.toNat ≤ 9)

theorem lit (symbol : Byte) : Statement (.lit symbol) := .inl ⟨_, rfl, rfl, length_recordBytes _⟩

theorem matchTok (offset length : Half) (symbol : Byte) : Statement (.matchTok offset length symbol) :=
  .inl ⟨_, rfl, rfl, length_recordBytes _⟩

theorem crc32 : Statement .crc32 := .inr ⟨1, rfl, rfl, by decide, by decide⟩

theorem find : Statement .find := .inr ⟨2, rfl, rfl, by decide, by decide⟩

theorem encode : Statement .encode := .inr ⟨3, rfl, rfl, by decide, by decide⟩

theorem decode : Statement .decode := .inr ⟨4, rfl, rfl, by decide, by decide⟩

theorem serialize : Statement .serialize := .inr ⟨5, rfl, rfl, by decide, by decide⟩

theorem deserialize : Statement .deserialize := .inr ⟨6, rfl, rfl, by decide, by decide⟩

theorem pack : Statement .pack := .inr ⟨7, rfl, rfl, by decide, by decide⟩

theorem unpack : Statement .unpack := .inr ⟨8, rfl, rfl, by decide, by decide⟩

theorem cmp : Statement .cmp := .inr ⟨9, rfl, rfl, by decide, by decide⟩

end Sys2Proof.Laws.Format
end

