-- ==== Sys2Proof/Laws/Units.lean ====
section
/-! SUPPORT. What each unit's function can do, said once: the record and its decoding, the checksum's fold,
the match finder's loops, the encoder's and the decoder's loops, the framer's two functions, and the error
kinds each can raise. -/

namespace Sys2Proof

/-! ## Decoding -/

/-- A record assembled from five bytes is those five bytes (R92, R94, R98). -/
theorem recordBytes_tokenOfBytes (b0 b1 b2 b3 b4 : Byte) :
    recordBytes (tokenOfBytes b0 b1 b2 b3 b4) = [b0, b1, b2, b3, b4] := by
  rw [recordBytes_eq]
  have value : ∀ a b : Byte, (BitVec.ofNat 16 (leNat [a, b])).toNat = a.toNat + 256 * b.toNat := by
    intro a b
    simp only [leNat, BitVec.toNat_ofNat]
    have := a.isLt
    have := b.isLt
    omega
  have low : ∀ a b : Byte, BitVec.ofNat 8 (a.toNat + 256 * b.toNat) = a := by
    intro a b
    apply BitVec.eq_of_toNat_eq
    simp only [BitVec.toNat_ofNat]
    have := a.isLt
    omega
  have high : ∀ a b : Byte, BitVec.ofNat 8 ((a.toNat + 256 * b.toNat) / 256) = b := by
    intro a b
    apply BitVec.eq_of_toNat_eq
    simp only [BitVec.toNat_ofNat]
    have := a.isLt
    have := b.isLt
    omega
  simp [tokenOfBytes, value, low, high]

/-- The front of a byte sequence that begins with a record decodes to its token. -/
theorem decodeRecord_recordBytes_append (t : Token) (rest : List Byte) :
    decodeRecord (recordBytes t ++ rest) = .ok (decodeToken t, rest) := by
  rw [recordBytes_eq]
  simp only [List.cons_append, List.nil_append, decodeRecord, tokenOfBytes_recordBytes]

/-- The CMD values that name an operation (R104, R105). -/
theorem decodeCommand_ok {c : BitVec 4} {i : Instr} (h : decodeCommand c = .ok i) :
    (c = 1 ∧ i = .crc32) ∨ (c = 2 ∧ i = .find) ∨ (c = 3 ∧ i = .encode) ∨ (c = 4 ∧ i = .decode) ∨
    (c = 5 ∧ i = .serialize) ∨ (c = 6 ∧ i = .deserialize) ∨ (c = 7 ∧ i = .pack) ∨
    (c = 8 ∧ i = .unpack) ∨ (c = 9 ∧ i = .cmp) := by
  have key : ∀ c : BitVec 4, decodeCommand c = .error (.illegalCommand c) ∨
      (c = 1 ∧ decodeCommand c = .ok .crc32) ∨ (c = 2 ∧ decodeCommand c = .ok .find) ∨
      (c = 3 ∧ decodeCommand c = .ok .encode) ∨ (c = 4 ∧ decodeCommand c = .ok .decode) ∨
      (c = 5 ∧ decodeCommand c = .ok .serialize) ∨ (c = 6 ∧ decodeCommand c = .ok .deserialize) ∨
      (c = 7 ∧ decodeCommand c = .ok .pack) ∨ (c = 8 ∧ decodeCommand c = .ok .unpack) ∨
      (c = 9 ∧ decodeCommand c = .ok .cmp) := by decide
  rcases key c with g | ⟨e, g⟩ | ⟨e, g⟩ | ⟨e, g⟩ | ⟨e, g⟩ | ⟨e, g⟩ | ⟨e, g⟩ | ⟨e, g⟩ | ⟨e, g⟩ | ⟨e, g⟩ <;>
    rw [g] at h <;> cases h <;> simp [e]

namespace Machine

/-! ## CRC -/

/-- The register after a prefix is all the unit remembers of it (R131). -/
theorem crcFold_append (r : Word32) (xs ys : List Byte) :
    crcFold r (xs ++ ys) = crcFold (crcFold r xs) ys := List.foldl_append

/-- One bit step loses nothing: the polynomial has bit 31 set, where the shift puts a zero. -/
theorem crcBit_injective : Function.Injective crcBit := by
  intro r r' h
  have bit : ∀ i, (crcBit r).getLsbD i = (crcBit r').getLsbD i := fun i => by rw [h]
  have top : ∀ x : Word32, (crcBit x).getLsbD 31 = x.getLsbD 0 := by
    intro x
    unfold crcBit crcPoly
    cases g : x.getLsbD 0 <;> simp
  have low : r.getLsbD 0 = r'.getLsbD 0 := by rw [← top, ← top, h]
  apply BitVec.eq_of_getLsbD_eq
  intro i hi
  rcases i with _ | i
  · exact low
  · have b := bit i
    simp only [crcBit, low] at b
    cases g : r'.getLsbD 0 <;> rw [g] at b <;> simpa [Nat.add_comm] using b

theorem crcBits_injective (n : Nat) : Function.Injective (crcBits n) := by
  induction n with
  | zero => exact fun _ _ h => h
  | succ n ih => exact fun _ _ h => crcBit_injective (ih h)

/-! ## MF -/

/-- Extending a match that agrees so far gives one that agrees and is not shorter. -/
theorem extendMatch_agrees {buffer : List Byte} {position p : Nat} (hp : p ≤ position) :
    ∀ {rounds dl : Nat}, Agrees buffer position p dl →
      Agrees buffer position p (extendMatch buffer position p rounds dl) ∧
        dl ≤ extendMatch buffer position p rounds dl
  | 0, dl, h => ⟨h, Nat.le_refl dl⟩
  | rounds + 1, dl, h => by
    unfold extendMatch
    split
    · next g =>
      obtain ⟨g1, g2, g3⟩ := g
      have step : Agrees buffer position p (dl + 1) := by
        refine ⟨by omega, by omega, fun j hj => ?_⟩
        rcases Nat.lt_succ_iff_lt_or_eq.mp hj with hj | rfl
        · exact h.2.2 j hj
        · exact g3
      have := extendMatch_agrees hp (rounds := rounds) step
      exact ⟨this.1, by omega⟩
    · exact ⟨h, Nat.le_refl dl⟩

/-- With enough rounds the extension does not stop before a length that agrees. -/
theorem extendMatch_maximal {buffer : List Byte} {position p : Nat} :
    ∀ {rounds dl L : Nat}, Agrees buffer position p L → L ≤ dl + rounds → dl ≤ L →
      L ≤ extendMatch buffer position p rounds dl
  | 0, dl, L, _, h, _ => by simpa [extendMatch] using h
  | rounds + 1, dl, L, hL, h, hd => by
    rcases Nat.eq_or_lt_of_le hd with rfl | hd
    · unfold extendMatch
      split
      · next g =>
        have : Agrees buffer position p dl := hL
        exact Nat.le_of_lt (Nat.lt_of_lt_of_le (Nat.lt_succ_self dl) (by
          have mono : ∀ (r d : Nat), d ≤ extendMatch buffer position p r d := by
            intro r
            induction r with
            | zero => intro d; exact Nat.le_refl d
            | succ r ih =>
              intro d
              unfold extendMatch
              split
              · exact Nat.le_trans (Nat.le_succ d) (ih (d + 1))
              · exact Nat.le_refl d
          exact mono rounds (dl + 1)))
      · exact Nat.le_refl dl
    · unfold extendMatch
      rw [if_pos]
      · exact extendMatch_maximal hL (by omega) hd
      · exact ⟨by have := hL.1; omega, by have := hL.2.1; omega, hL.2.2 dl hd⟩

/-- The match length of a candidate is the largest the conditions of R142 admit. -/
theorem matchLength_isMatchLength {buffer : List Byte} {position p : Nat} (hp : p ≤ position) :
    IsMatchLength buffer position p (matchLength buffer position p) := by
  have zero : Agrees buffer position p 0 := ⟨by omega, by omega, fun j hj => absurd hj (Nat.not_lt_zero j)⟩
  refine ⟨(extendMatch_agrees hp zero).1, fun dl h => ?_⟩
  exact extendMatch_maximal h (by have := h.1; omega) (Nat.zero_le dl)

/-! ## ENC -/

/-- `append` raises CAPACITY only. -/
theorem appendTo_error {α : Type} {cap : Option Nat} {xs : List α} {x : α} {e : ErrKind}
    (h : appendTo cap xs x = .error e) : e = .capacity := by
  rcases appendTo_cases cap xs x with ⟨_, g⟩ | ⟨_, g⟩ <;> rw [g] at h <;> cases h
  rfl

/-- What `append` answers without an error is one element longer, and within the capacity. -/
theorem appendTo_ok {α : Type} {cap : Option Nat} {xs ys : List α} {x : α}
    (h : appendTo cap xs x = .ok ys) : ys = xs ++ [x] ∧ exceeds cap ys.length = false := by
  rcases appendTo_cases cap xs x with ⟨_, g⟩ | ⟨f, g⟩ <;> rw [g] at h <;> cases h
  rw [full_iff_exceeds_succ] at f
  exact ⟨rfl, by simpa using f⟩

/-- What the encoder emits at a position: a match (R158) or a literal (R159), with its advance; nothing
only at or past the end. -/
theorem nextToken_cases (buffer : List Byte) (window position : Nat) :
    (nextToken buffer window position = none ∧ buffer.length ≤ position) ∨
    ((findLongestMatch buffer position window).2 > 0 ∧
      position + (findLongestMatch buffer position window).2 < buffer.length ∧
      ∃ symbol, buffer[position + (findLongestMatch buffer position window).2]? = some symbol ∧
        nextToken buffer window position =
          some (⟨BitVec.ofNat 16 (findLongestMatch buffer position window).1,
              BitVec.ofNat 16 (findLongestMatch buffer position window).2, symbol⟩,
            (findLongestMatch buffer position window).2 + 1)) ∨
    (¬ ((findLongestMatch buffer position window).2 > 0 ∧
        position + (findLongestMatch buffer position window).2 < buffer.length) ∧
      ∃ symbol, buffer[position]? = some symbol ∧
        nextToken buffer window position = some (⟨0, 0, symbol⟩, 1)) := by
  by_cases g : (findLongestMatch buffer position window).2 > 0 ∧
      position + (findLongestMatch buffer position window).2 < buffer.length
  · refine .inr (.inl ⟨g.1, g.2, buffer[position + (findLongestMatch buffer position window).2]'g.2,
      List.getElem?_eq_getElem g.2, ?_⟩)
    simp only [nextToken]
    rw [if_pos g, List.getElem?_eq_getElem g.2]
    rfl
  · rcases Nat.lt_or_ge position buffer.length with h | h
    · refine .inr (.inr ⟨g, buffer[position], List.getElem?_eq_getElem h, ?_⟩)
      simp only [nextToken]
      rw [if_neg g, List.getElem?_eq_getElem h]
      rfl
    · refine .inl ⟨?_, h⟩
      simp only [nextToken]
      rw [if_neg g, List.getElem?_eq_none h]
      rfl

/-- The encoder raises CAPACITY only (R161). -/
theorem encodeFrom_error {cap : Option Nat} {buffer : List Byte} {window rounds position : Nat}
    {tokens : List Token} {e : ErrKind}
    (h : encodeFrom cap buffer window rounds position tokens = .error e) : e = .capacity := by
  induction rounds generalizing position tokens with
  | zero => simp [encodeFrom] at h
  | succ rounds ih =>
    unfold encodeFrom at h
    split at h
    · cases h
    · split at h
      · next g => cases h; exact appendTo_error g
      · exact ih h

/-- The encoder's tokens fit TB (R161). -/
theorem encodeFrom_ok {cap : Option Nat} {buffer : List Byte} {window rounds position : Nat}
    {tokens ts : List Token} (h0 : exceeds cap tokens.length = false)
    (h : encodeFrom cap buffer window rounds position tokens = .ok ts) : exceeds cap ts.length = false := by
  induction rounds generalizing position tokens with
  | zero => simp only [encodeFrom, Except.ok.injEq] at h; exact h ▸ h0
  | succ rounds ih =>
    unfold encodeFrom at h
    split at h
    · cases h; exact h0
    · split at h
      · cases h
      · next g => exact ih (appendTo_ok g).2 h

/-! ## DEC -/

/-- The copy raises CAPACITY, or INVALID_REFERENCE where an index is out of range. -/
theorem copyRun_error {cap : Option Nat} {count index : Nat} {out : List Byte} {e : ErrKind}
    (h : copyRun cap count index out = .error e) : e = .capacity ∨ e = .invalidReference := by
  induction count generalizing index out with
  | zero => simp [copyRun] at h
  | succ count ih =>
    unfold copyRun at h
    split at h
    · cases h; exact .inr rfl
    · split at h
      · next g => cases h; exact .inl (appendTo_error g)
      · exact ih h

/-- The copy's index is never out of range when it starts inside the output (R81, R82). -/
theorem copyRun_error_of_lt {cap : Option Nat} {count index : Nat} {out : List Byte} {e : ErrKind}
    (hi : index < out.length) (h : copyRun cap count index out = .error e) : e = .capacity := by
  induction count generalizing index out with
  | zero => simp [copyRun] at h
  | succ count ih =>
    unfold copyRun at h
    rw [List.getElem?_eq_getElem hi] at h
    simp only at h
    split at h
    · next g => cases h; exact appendTo_error g
    · next g =>
      refine ih ?_ h
      rw [(appendTo_ok g).1, List.length_append, List.length_singleton]
      omega

/-- What the copy answers: the output before it with `count` bytes more, within OB. -/
theorem copyRun_ok {cap : Option Nat} {count index : Nat} {out out' : List Byte}
    (h0 : exceeds cap out.length = false) (h : copyRun cap count index out = .ok out') :
    (∃ run, out' = out ++ run ∧ run.length = count) ∧ exceeds cap out'.length = false := by
  induction count generalizing index out with
  | zero =>
    simp only [copyRun, Except.ok.injEq] at h
    exact ⟨⟨[], by simp [h], rfl⟩, h ▸ h0⟩
  | succ count ih =>
    unfold copyRun at h
    split at h
    · cases h
    · next b _ =>
      split at h
      · cases h
      · next g =>
        obtain ⟨rfl, fits⟩ := appendTo_ok g
        obtain ⟨⟨run, rfl, len⟩, fits'⟩ := ih fits h
        exact ⟨⟨b :: run, by simp, by simp [len]⟩, fits'⟩

/-- A token raises CAPACITY or INVALID_REFERENCE. -/
theorem tokenBytes_error {cap : Option Nat} {out : List Byte} {t : Token} {e : ErrKind}
    (h : tokenBytes cap out t = .error e) : e = .capacity ∨ e = .invalidReference := by
  unfold tokenBytes litBytes matchBytes at h
  split at h
  · exact .inl (appendTo_error h)
  · split at h
    · cases h; exact .inr rfl
    · split at h
      · next g => cases h; exact copyRun_error g
      · exact .inl (appendTo_error h)

/-- A MATCH that raises nothing appends `length + 1` bytes, the last its symbol, within OB (R184). -/
theorem matchBytes_ok {cap : Option Nat} {out out' : List Byte} {offset length : Half} {symbol : Byte}
    (h0 : exceeds cap out.length = false) (h : matchBytes cap out offset length symbol = .ok out') :
    (∃ run, out' = out ++ run ++ [symbol] ∧ run.length = length.toNat) ∧
      exceeds cap out'.length = false := by
  unfold matchBytes at h
  split at h
  · cases h
  · split at h
    · cases h
    · next g =>
      obtain ⟨⟨run, rfl, len⟩, _⟩ := copyRun_ok h0 g
      exact ⟨⟨run, (appendTo_ok h).1, len⟩, (appendTo_ok h).2⟩

/-- What a token answers extends the output, by its length and one more, within OB (R184). -/
theorem tokenBytes_ok {cap : Option Nat} {out out' : List Byte} {t : Token}
    (h0 : exceeds cap out.length = false) (h : tokenBytes cap out t = .ok out') :
    (∃ run, out' = out ++ run ∧ run.length = t.length.toNat + 1) ∧ exceeds cap out'.length = false := by
  unfold tokenBytes at h
  split at h
  · next g =>
    obtain ⟨e, fits⟩ := appendTo_ok h
    exact ⟨⟨[t.symbol], e, by simp [g.2]⟩, fits⟩
  · obtain ⟨⟨run, e, len⟩, fits⟩ := matchBytes_ok h0 h
    exact ⟨⟨run ++ [t.symbol], by simp [e], by simp [len]⟩, fits⟩

/-- The decoder raises CAPACITY with information 0, or INVALID_REFERENCE (R185, R248). -/
theorem decodeFrom_error {cap : Option Nat} {k j : Nat} {out : List Byte} {ts : List Token} {e : ErrKind}
    (h : decodeFrom cap k out ts = .error (e, j)) : (e = .capacity ∧ j = 0) ∨ e = .invalidReference := by
  induction ts generalizing k out with
  | nil => simp [decodeFrom] at h
  | cons t ts ih =>
    unfold decodeFrom at h
    split at h
    · next g => rcases tokenBytes_error g with rfl | rfl <;> cases h <;> simp [tokenErrInfo]
    · exact ih h

/-- The decoder's output fits OB. -/
theorem decodeFrom_ok {cap : Option Nat} {k : Nat} {out out' : List Byte} {ts : List Token}
    (h0 : exceeds cap out.length = false) (h : decodeFrom cap k out ts = .ok out') :
    exceeds cap out'.length = false := by
  induction ts generalizing k out with
  | nil => simp only [decodeFrom, Except.ok.injEq] at h; exact h ▸ h0
  | cons t ts ih =>
    unfold decodeFrom at h
    split at h
    · cases h
    · next g => exact ih (tokenBytes_ok h0 g).2 h

/-! ## FRM -/

@[simp] theorem length_bodyBytes (ts : List Token) : (bodyBytes ts).length = 5 * ts.length := by
  induction ts with
  | nil => rfl
  | cons t ts ih => simp [bodyBytes] at ih ⊢; omega

@[simp] theorem length_frameBytes (ts : List Token) : (frameBytes ts).length = 5 * ts.length + 4 := by
  simp [frameBytes]

/-- Parsing inverts writing records (R211). -/
theorem parseRecords_bodyBytes (ts : List Token) : parseRecords (bodyBytes ts) = ts := by
  induction ts with
  | nil => rfl
  | cons t ts ih =>
    have : bodyBytes (t :: ts) = recordBytes t ++ bodyBytes ts := rfl
    rw [this, recordBytes_eq]
    simp only [List.cons_append, List.nil_append, parseRecords, tokenOfBytes_recordBytes, ih]

/-- A body has one record for every five bytes (R205). -/
theorem length_parseRecords (bs : List Byte) : (parseRecords bs).length = bs.length / 5 := by
  induction bs using parseRecords.induct with
  | case1 b0 b1 b2 b3 b4 rest ih => simp [parseRecords, ih]; omega
  | case2 bs h =>
    match bs, h with
    | [], _ => simp [parseRecords]
    | [_], _ => simp [parseRecords]
    | [_, _], _ => simp [parseRecords]
    | [_, _, _], _ => simp [parseRecords]
    | [_, _, _, _], _ => simp [parseRecords]
    | b0 :: b1 :: b2 :: b3 :: b4 :: rest, h => exact absurd rfl (h b0 b1 b2 b3 b4 rest)

/-- The serializer: CAPACITY when the frame does not fit (R199), else the frame and its checksum. -/
theorem serializeFrom_cases (s : State) (ts : List Token) :
    (exceeds s.cfg.fbCap (5 * ts.length + 4) = true ∧ s.serializeFrom ts = .error .capacity) ∨
    (exceeds s.cfg.fbCap (5 * ts.length + 4) = false ∧
      s.serializeFrom ts = .ok { s.putFrame (frameBytes ts) with crcOut := checksum (bodyBytes ts) }) := by
  unfold State.serializeFrom
  cases exceeds s.cfg.fbCap (5 * ts.length + 4) <;> simp

/-- The deserializer: its checks in order (R203, R250), then the tokens. -/
theorem deserialize_cases (cap : Option Nat) (content : List Byte) :
    (content.length < 4 ∧ deserialize cap content = .truncated) ∨
    (4 ≤ content.length ∧ ∃ body stored, body = content.take (content.length - 4) ∧
      stored = BitVec.ofNat 32 (memRead content (content.length - 4) 4) ∧
      ((checksum body ≠ stored ∧ deserialize cap content = .failed .integrity (checksum body) stored) ∨
        (checksum body = stored ∧ body.length % 5 ≠ 0 ∧
          deserialize cap content = .failed .malformedRecord (checksum body) stored) ∨
        (checksum body = stored ∧ body.length % 5 = 0 ∧ exceeds cap (body.length / 5) = true ∧
          deserialize cap content = .failed .capacity (checksum body) stored) ∨
        (checksum body = stored ∧ body.length % 5 = 0 ∧ exceeds cap (body.length / 5) = false ∧
          deserialize cap content = .tokens (parseRecords body) (checksum body) stored))) := by
  unfold deserialize
  by_cases h : content.length < 4
  · exact .inl ⟨h, if_pos h⟩
  · refine .inr ⟨by omega, _, _, rfl, rfl, ?_⟩
    rw [if_neg h]
    dsimp only
    split
    · next g => exact .inl ⟨g, rfl⟩
    · next g =>
      have g := not_not.mp g
      split
      · next m => exact .inr (.inl ⟨g, m, rfl⟩)
      · next m =>
        have m := not_not.mp m
        split
        · next c => exact .inr (.inr (.inl ⟨g, m, c, rfl⟩))
        · next c => exact .inr (.inr (.inr ⟨g, m, by simpa using c, rfl⟩))

/-- The deserializer raises none but the four kinds of R202, the first with no checksum. -/
theorem deserialize_failed {cap : Option Nat} {content : List Byte} {e : ErrKind} {x y : Word32}
    (h : deserialize cap content = .failed e x y) :
    e = .integrity ∨ e = .malformedRecord ∨ e = .capacity := by
  unfold deserialize at h
  dsimp only at h
  repeat' split at h
  all_goals cases h <;> simp

/-! ## CMP -/

/-- The comparison is equality of the sequences (R230). -/
theorem equalityFlag_eq (a b : List Byte) : equalityFlag a b = if a = b then 1 else 0 := by
  have same : ∀ a b : List Byte, sameBytes a b = decide (a = b) := by
    intro a
    induction a with
    | nil => intro b; cases b <;> rfl
    | cons x xs ih => intro b; cases b <;> simp [sameBytes, ih]
  unfold equalityFlag
  by_cases h : a = b
  · simp [h, same]
  · simp [h, same]

/-! ## The declared outputs of R104, evaluated -/

@[simp] theorem outputs_crc32 : outputs 1 = [.crcOut] := rfl
@[simp] theorem outputs_find : outputs 2 = [.mf] := rfl
@[simp] theorem outputs_encode : outputs 3 = [.tb] := rfl
@[simp] theorem outputs_decode : outputs 4 = [.ob] := rfl
@[simp] theorem outputs_serialize : outputs 5 = [.fb, .crcOut] := rfl
@[simp] theorem outputs_deserialize : outputs 6 = [.tb, .crcOut, .crcStored] := rfl
@[simp] theorem outputs_pack : outputs 7 = [.tb, .fb, .crcOut] := rfl
@[simp] theorem outputs_unpack : outputs 8 = [.tb, .crcOut, .crcStored, .ob] := rfl
@[simp] theorem outputs_cmp : outputs 9 = [.eq] := rfl

end Machine

end Sys2Proof
end

