-- ==== Sys2Proof/Laws/Sequencer.lean ====
section
/-! SUPPORT. Running the reference sequencings: a run of so many steps from one state to another, and what the
units that others call (CRC, MF) and the loops of ENC, DEC and FRM do from their first row to their last. -/

namespace Sys2Proof.Machine

/-- `k` steps lead from a state to another. -/
def Runs (k : Nat) (s t : State) : Prop := core.run k s = .next t

theorem Runs.refl (s : State) : Runs 0 s s := rfl

/-- The first step of a run, taken apart, on any machine. -/
theorem run_succ_cases {M : Host.Core} {k : Nat} {s t : M.State} (h : M.run (k + 1) s = .next t) :
    ∃ s', M.step s = .next s' ∧ M.run k s' = .next t := by
  simp only [Host.Core.run] at h
  split at h
  · exact ⟨_, ‹_›, h⟩
  · cases h
  · cases h

/-- A first step before a run, on any machine. -/
theorem run_succ_of_step {M : Host.Core} {k : Nat} {s s' : M.State} (h : M.step s = .next s') :
    M.run (k + 1) s = M.run k s' := by
  simp only [Host.Core.run, h]

theorem Runs.head {s s' t : State} {k : Nat} (h : step s = .next s') (r : Runs k s' t) : Runs (k + 1) s t :=
  (run_succ_of_step (M := core) h).trans r

theorem Runs.trans {s t u : State} {j k : Nat} (a : Runs j s t) (b : Runs k t u) : Runs (j + k) s u := by
  induction j generalizing s with
  | zero => cases a; rwa [Nat.zero_add]
  | succ j ih =>
    obtain ⟨v, h, r⟩ := run_succ_cases (M := core) a
    rw [Nat.succ_add]
    exact Runs.head h (ih r)

/-- The core is running by rows, with no host move waiting. -/
def Stepping (s : State) : Prop := s.status = .busy ∧ s.grain = .micro ∧ s.agenda = []

theorem popTurn_of_nil {s : State} (h : s.agenda = []) : s.popTurn = s := by
  cases s
  simp only at h
  subst h
  rfl

theorem turn_of_nil {s : State} (h : s.agenda = []) : s.turn = .core := by simp [State.turn, h]

/-- A step by rows is one row. -/
theorem Stepping.step {s : State} (h : Stepping s) : step s = .next (microStep s) := by
  obtain ⟨h1, h2, h3⟩ := h
  have m : coreMove s = .goto (microStep s) := by
    unfold coreMove
    rw [if_neg (by simp [h1]), h2]
  simp only [Machine.step, turn_of_nil h3, popTurn_of_nil h3, m]

/-- One row, then the rest of a run. -/
theorem Runs.row {s s' t : State} {k : Nat} (h : Stepping s) (e : microStep s = s') (r : Runs k s' t) :
    Runs (k + 1) s t := Runs.head (by rw [h.step, e]) r

/-! ## CRC (R124) -/

/-- The bit steps of one byte, from any number of them done. -/
theorem crc_bits_run : ∀ (m : Nat) (s : State), m < 8 → Stepping s → s.seq = .cBit →
    s.work.bitcnt = BitVec.ofNat 4 (7 - m) →
    Runs (m + 1) s
      { s with
        work := { s.work with crc := crcBits (m + 1) s.work.crc, bitcnt := 8, bix := s.work.bix + 1 }
        seq := .cByte }
  | 0, s, _, hs, hq, hb => by
    refine Runs.row hs ?_ (Runs.refl _)
    simp [microStep, hq, hb, crcBits]
  | m + 1, s, hm, hs, hq, hb => by
    have next : s.work.bitcnt + 1 = BitVec.ofNat 4 (7 - m) := by
      rw [hb]
      exact (by decide : ∀ m < 7, BitVec.ofNat 4 (7 - (m + 1)) + 1 = BitVec.ofNat 4 (7 - m)) m (by omega)
    have more : s.work.bitcnt + 1 ≠ 8 := by
      rw [next]
      exact (by decide : ∀ m < 7, BitVec.ofNat 4 (7 - m) ≠ 8) m (by omega)
    refine Runs.row hs (s' :=
      { s with
        work := { s.work with crc := crcBit s.work.crc, bitcnt := s.work.bitcnt + 1 } }) ?_ ?_
    · simp only [microStep, hq]
      rw [if_neg more]
    · exact crc_bits_run m _ (by omega) hs hq next

/-- The byte loop: `m` bytes are left. -/
theorem crc_bytes_run : ∀ (m : Nat) (s : State), Stepping s → s.seq = .cByte →
    s.work.bix + m = s.work.crcN →
    ∃ b, Runs (9 * m + 1) s
      { s with
        work :=
          { s.work with
            crc := crcFold s.work.crc ((List.range' s.work.bix m).map s.crcSource)
            bix := s.work.crcN
            bitcnt := b }
        seq := .cFin }
  | 0, s, hs, hq, hn => by
    refine ⟨s.work.bitcnt, Runs.row hs (s' := { s with seq := .cFin }) ?_ ?_⟩
    · simp only [microStep, hq]
      rw [if_pos (by omega)]
    · have : s.work.crcN = s.work.bix := by omega
      rw [this]
      exact Runs.refl _
  | m + 1, s, hs, hq, hn => by
    let s1 : State :=
      { s with
        work :=
          { s.work with
            crc := s.work.crc ^^^ (s.crcSource s.work.bix).setWidth 32
            bitcnt := 0 }
        seq := .cBit }
    let s2 : State :=
      { s1 with
        work := { s1.work with crc := crcBits 8 s1.work.crc, bitcnt := 8, bix := s1.work.bix + 1 }
        seq := .cByte }
    have r1 : Runs 8 s1 s2 := crc_bits_run 7 s1 (by omega) hs rfl rfl
    obtain ⟨b, r2⟩ := crc_bytes_run m s2 hs rfl (by change s.work.bix + 1 + m = s.work.crcN; omega)
    refine ⟨b, ?_⟩
    have r := Runs.row hs (s' := s1) (by
      simp only [microStep, hq]
      rw [if_neg (by omega)]) (r1.trans r2)
    have e : 9 * (m + 1) + 1 = 8 + (9 * m + 1) + 1 := by omega
    rw [e]
    exact r

/-- The CRC unit, from C_INIT to C_FIN: `9n + 2` rows, and the register holds the fold over its source. -/
theorem crc_unit_run (s : State) (hs : Stepping s) (hq : s.seq = .cInit) :
    ∃ b, Runs (9 * s.work.crcN + 2) s
      { s with
        work :=
          { s.work with
            crc := crcFold crcInit ((List.range s.work.crcN).map s.crcSource)
            bix := s.work.crcN
            bitcnt := b }
        seq := .cFin } := by
  obtain ⟨b, r⟩ := crc_bytes_run s.work.crcN
    { s with work := { s.work with crc := crcInit, bix := 0 }, seq := .cByte } hs rfl (Nat.zero_add _)
  refine ⟨b, ?_⟩
  rw [List.range_eq_range']
  exact Runs.row hs (by simp only [microStep, hq]) r

/-! ## MF (R143) -/

/-- The element of IB's sequence at an index. -/
theorem ibBytes_getElem? (s : State) (i : Nat) :
    s.ibBytes[i]? = if i < s.ibLen then some (s.ibAt i) else none := by
  unfold State.ibBytes
  rw [List.getElem?_map]
  split
  · next h => rw [List.getElem?_range h]; rfl
  · next h => rw [List.getElem?_eq_none (by simpa using h)]; rfl

/-- The guard of M_EXT is the guard of the extension loop (R138). -/
theorem extend_guard (s : State) (position p dl : Nat) :
    (p + dl < position ∧ position + dl < s.ibLen ∧ s.ibAt (p + dl) = s.ibAt (position + dl)) ↔
    (p + dl < position ∧ position + dl < s.ibBytes.length ∧
      s.ibBytes[p + dl]? = s.ibBytes[position + dl]?) := by
  rw [ibBytes_length]
  constructor
  · rintro ⟨h1, h2, h3⟩
    refine ⟨h1, h2, ?_⟩
    rw [ibBytes_getElem?, ibBytes_getElem?, if_pos h2, if_pos (by omega), h3]
  · rintro ⟨h1, h2, h3⟩
    refine ⟨h1, h2, ?_⟩
    rw [ibBytes_getElem?, ibBytes_getElem?, if_pos h2, if_pos (by omega)] at h3
    exact Option.some.inj h3

/-- M_EXT until it leaves, `rounds` bytes short of the position. -/
theorem extend_run : ∀ (rounds : Nat) (s : State), Stepping s → s.seq = .mExt →
    s.work.p + s.work.dl.toNat + rounds = s.mfPosition → s.mfPosition - s.work.p < 65536 →
    ∃ k, Runs k s
      { s with
        work :=
          { s.work with
            dl := BitVec.ofNat 16
              (extendMatch s.ibBytes s.mfPosition s.work.p rounds s.work.dl.toNat) }
        seq := .mUpd }
  | 0, s, hs, hq, hr, _ => by
    refine ⟨1, Runs.row hs ?_ (Runs.refl _)⟩
    simp only [microStep, hq, seqExtend]
    rw [if_neg (by omega)]
    simp only [extendMatch, BitVec.ofNat_toNat, BitVec.setWidth_eq]
  | rounds + 1, s, hs, hq, hr, hw => by
    by_cases g : s.work.p + s.work.dl.toNat < s.mfPosition ∧ s.mfPosition + s.work.dl.toNat < s.ibLen ∧
        s.ibAt (s.work.p + s.work.dl.toNat) = s.ibAt (s.mfPosition + s.work.dl.toNat)
    · have up : (s.work.dl + 1).toNat = s.work.dl.toNat + 1 := by
        rw [BitVec.toNat_add]
        exact Nat.mod_eq_of_lt (by change s.work.dl.toNat + 1 < 65536; omega)
      obtain ⟨k, r⟩ := extend_run rounds { s with work := { s.work with dl := s.work.dl + 1 } } hs hq
        (by change s.work.p + (s.work.dl + 1).toNat + rounds = s.mfPosition; omega) hw
      refine ⟨k + 1, Runs.row hs (s' := { s with work := { s.work with dl := s.work.dl + 1 } }) ?_ ?_⟩
      · simp only [microStep, hq, seqExtend]
        rw [if_pos g]
      · unfold extendMatch
        rw [if_pos ((extend_guard _ _ _ _).mp g), ← up]
        exact r
    · refine ⟨1, Runs.row hs ?_ (Runs.refl _)⟩
      simp only [microStep, hq, seqExtend]
      rw [if_neg g]
      unfold extendMatch
      rw [if_neg (fun h => g ((extend_guard _ _ _ _).mpr h))]
      simp only [BitVec.ofNat_toNat, BitVec.setWidth_eq]

/-- One candidate, from M_CAND to M_UPD. -/
theorem candidate_run (s : State) (hs : Stepping s) (hq : s.seq = .mCand) (hp : s.work.p ≤ s.mfPosition)
    (hw : s.mfPosition - s.work.p < 65536) :
    ∃ k, Runs k s
      { s with
        work := { s.work with dl := BitVec.ofNat 16 (matchLength s.ibBytes s.mfPosition s.work.p) }
        seq := .mUpd } := by
  obtain ⟨k, r⟩ := extend_run (s.mfPosition - s.work.p)
    { s with work := { s.work with dl := 0 }, seq := .mExt } hs rfl
    (by change s.work.p + 0 + (s.mfPosition - s.work.p) = s.mfPosition; omega) hw
  exact ⟨k + 1, Runs.row hs (by simp only [microStep, hq]) r⟩

/-- The candidates from P down to LO, `n + 1` of them: what M_DONE finds is what the scan gives. -/
theorem candidates_run : ∀ (n : Nat) (s : State) (best found : Nat × Nat), Stepping s → s.seq = .mCand →
    s.work.p = s.work.lo + n → s.work.p < s.mfPosition → s.mfPosition - s.work.lo < 65536 →
    s.work.bestOff = BitVec.ofNat 16 best.1 → s.work.bestLen = BitVec.ofNat 16 best.2 → best.2 < 65536 →
    scanCandidates s.ibBytes s.mfPosition (n + 1) s.work.p best = found →
    ∃ k p dl, Runs k s
      { s with
        work :=
          { s.work with
            p := p
            dl := dl
            bestOff := BitVec.ofNat 16 found.1
            bestLen := BitVec.ofNat 16 found.2 }
        seq := .mDone } := by
  intro n
  induction n with
  | zero =>
    intro s best found hs hq hn hp hw ho hl hb hf
    obtain ⟨k, r⟩ := candidate_run s hs hq (by omega) (by omega)
    have bound := (matchLength_isMatchLength (buffer := s.ibBytes) (Nat.le_of_lt hp)).1.1
    have small : (BitVec.ofNat 16 (matchLength s.ibBytes s.mfPosition s.work.p)).toNat =
        matchLength s.ibBytes s.mfPosition s.work.p := by
      rw [BitVec.toNat_ofNat]
      exact Nat.mod_eq_of_lt (by change _ < 65536; omega)
    have len : s.work.bestLen.toNat = best.2 := by
      rw [hl, BitVec.toNat_ofNat]
      exact Nat.mod_eq_of_lt hb
    refine ⟨k + 1, s.work.p, BitVec.ofNat 16 (matchLength s.ibBytes s.mfPosition s.work.p),
      r.trans (Runs.row hs ?_ (Runs.refl _))⟩
    simp only [microStep, seqUpdate, small, len]
    simp only [scanCandidates] at hf
    subst hf
    by_cases g : matchLength s.ibBytes s.mfPosition s.work.p > best.2
    · simp only [if_pos g]
      rw [if_pos (by omega)]
      rfl
    · simp only [if_neg g]
      rw [if_pos (by omega), ← ho, ← hl]
  | succ n ih =>
    intro s best found hs hq hn hp hw ho hl hb hf
    obtain ⟨k, r⟩ := candidate_run s hs hq (by omega) (by omega)
    have bound := (matchLength_isMatchLength (buffer := s.ibBytes) (Nat.le_of_lt hp)).1.1
    have small : (BitVec.ofNat 16 (matchLength s.ibBytes s.mfPosition s.work.p)).toNat =
        matchLength s.ibBytes s.mfPosition s.work.p := by
      rw [BitVec.toNat_ofNat]
      exact Nat.mod_eq_of_lt (by change _ < 65536; omega)
    have len : s.work.bestLen.toNat = best.2 := by
      rw [hl, BitVec.toNat_ofNat]
      exact Nat.mod_eq_of_lt hb
    rw [scanCandidates] at hf
    by_cases g : matchLength s.ibBytes s.mfPosition s.work.p > best.2
    · simp only [if_pos g] at hf
      obtain ⟨j, p, dl, r2⟩ := ih
        { s with
          work :=
            { s.work with
              dl := BitVec.ofNat 16 (matchLength s.ibBytes s.mfPosition s.work.p)
              bestLen := BitVec.ofNat 16 (matchLength s.ibBytes s.mfPosition s.work.p)
              bestOff := BitVec.ofNat 16 (s.mfPosition - s.work.p)
              p := s.work.p - 1 }
          seq := .mCand }
        (s.mfPosition - s.work.p, matchLength s.ibBytes s.mfPosition s.work.p) found hs rfl
        (by change s.work.p - 1 = s.work.lo + n; omega)
        (by change s.work.p - 1 < s.mfPosition; omega) hw rfl rfl (by omega) hf
      refine ⟨k + (j + 1), p, dl, r.trans (Runs.row hs ?_ r2)⟩
      simp only [microStep, seqUpdate, small, len, if_pos g]
      rw [if_neg (by omega)]
      rfl
    · simp only [if_neg g] at hf
      obtain ⟨j, p, dl, r2⟩ := ih
        { s with
          work :=
            { s.work with
              dl := BitVec.ofNat 16 (matchLength s.ibBytes s.mfPosition s.work.p)
              p := s.work.p - 1 }
          seq := .mCand }
        best found hs rfl (by change s.work.p - 1 = s.work.lo + n; omega)
        (by change s.work.p - 1 < s.mfPosition; omega) hw ho hl hb hf
      refine ⟨k + (j + 1), p, dl, r.trans (Runs.row hs ?_ r2)⟩
      simp only [microStep, seqUpdate, small, len, if_neg g]
      rw [if_neg (by omega)]

/-- The MF unit, from M_INIT to M_DONE: BEST_OFF and BEST_LEN hold what the match search gives. -/
theorem mf_unit_run (s : State) (hs : Stepping s) (hq : s.seq = .mInit) :
    ∃ k p dl, Runs k s
      { s with
        work :=
          { s.work with
            p := p
            dl := dl
            lo := s.mfPosition - s.window.toNat
            bestOff := BitVec.ofNat 16 (findLongestMatch s.ibBytes s.mfPosition s.window.toNat).1
            bestLen := BitVec.ofNat 16 (findLongestMatch s.ibBytes s.mfPosition s.window.toNat).2 }
        seq := .mDone } := by
  have hw := s.window.isLt
  by_cases g : s.mfPosition = 0 ∨ s.window = 0
  · refine ⟨1, s.work.p, s.work.dl, Runs.row hs ?_ (Runs.refl _)⟩
    have none : findLongestMatch s.ibBytes s.mfPosition s.window.toNat = (0, 0) := by
      unfold findLongestMatch
      rcases g with g | g
      · rw [g, Nat.zero_min]; rfl
      · rw [g]; exact congrArg (fun n => scanCandidates s.ibBytes s.mfPosition n (s.mfPosition - 1) (0, 0))
          (Nat.min_zero _)
    simp only [microStep, hq, none]
    rw [if_pos g]
    rfl
  · have g1 : s.mfPosition ≠ 0 := fun h => g (.inl h)
    have g2 : s.window.toNat ≠ 0 := fun h => g (.inr (BitVec.eq_of_toNat_eq h))
    obtain ⟨n, hn⟩ : ∃ n, min s.mfPosition s.window.toNat = n + 1 :=
      ⟨min s.mfPosition s.window.toNat - 1, by omega⟩
    obtain ⟨k, p, dl, r⟩ := candidates_run n
      { s with
        work :=
          { s.work with
            bestOff := 0
            bestLen := 0
            lo := s.mfPosition - s.window.toNat
            p := s.mfPosition - 1 }
        seq := .mCand }
      (0, 0) (findLongestMatch s.ibBytes s.mfPosition s.window.toNat) hs rfl
      (by change s.mfPosition - 1 = s.mfPosition - s.window.toNat + n; omega)
      (by change s.mfPosition - 1 < s.mfPosition; omega)
      (by change s.mfPosition - (s.mfPosition - s.window.toNat) < 65536; omega) rfl rfl (by decide)
      (by unfold findLongestMatch; rw [hn]; rfl)
    refine ⟨k + 1, p, dl, Runs.row hs ?_ r⟩
    simp only [microStep, hq]
    rw [if_neg g]

/-! ## ENC (R167) -/

/-- Both results of the match search fit their fields (R146). -/
theorem findLongestMatch_lt (buffer : List Byte) (position : Nat) (window : Half) :
    (findLongestMatch buffer position window.toNat).1 < 65536 ∧
    (findLongestMatch buffer position window.toNat).2 < 65536 := by
  have hw := window.isLt
  have loop : ∀ (count p : Nat) (best : Nat × Nat), p < position ∨ count = 0 →
      position - p + count ≤ 65536 → best.1 < 65536 → best.2 < 65536 →
      (scanCandidates buffer position count p best).1 < 65536 ∧
      (scanCandidates buffer position count p best).2 < 65536 := by
    intro count
    induction count with
    | zero => intro p best _ _ h1 h2; exact ⟨h1, h2⟩
    | succ count ih =>
      intro p best hp hc h1 h2
      have hp : p < position := by omega
      have bound := (matchLength_isMatchLength (buffer := buffer) (Nat.le_of_lt hp)).1.1
      rw [scanCandidates]
      split
      · exact ih _ _ (by omega) (by omega) (by simp only; omega) (by simp only; omega)
      · exact ih _ _ (by omega) (by omega) h1 h2
  unfold findLongestMatch
  exact loop _ _ _ (by omega) (by omega) (by decide) (by decide)

/-- What a CAPACITY of ENC leaves does not depend on what it had written of its outputs (R252). -/
theorem raise_encoder (s : State) (tb : Buf Token) (len : Nat) (w : Work) (q : Seq)
    (hc : s.work.opc = 3 ∨ s.work.opc = 7) :
    ({ s with tb := tb, tbLen := len, work := w, seq := q } : State).raise s.work.opc 0 .capacity 0 =
      s.raise s.work.opc 0 .capacity 0 := by
  rcases hc with h | h <;> rw [h] <;> rfl

/-- ENC's cursor and token, as E_EMIT has them after MF. -/
theorem emit_eq_nextToken {s : State} {t : Token} {advance : Nat} {w : Work}
    (ho : w.bestOff = BitVec.ofNat 16 (findLongestMatch s.ibBytes s.work.pos s.window.toNat).1)
    (hl : w.bestLen = BitVec.ofNat 16 (findLongestMatch s.ibBytes s.work.pos s.window.toNat).2)
    (hp : w.pos = s.work.pos) (hn : nextToken s.ibBytes s.window.toNat s.work.pos = some (t, advance)) :
    seqEmit { s with work := w, seq := .eEmit } =
      ({ s with work := w, seq := .eEmit } : State).emitToken t advance := by
  have small := (findLongestMatch_lt s.ibBytes s.work.pos s.window).2
  have len : w.bestLen.toNat = (findLongestMatch s.ibBytes s.work.pos s.window.toNat).2 := by
    rw [hl, BitVec.toNat_ofNat]
    exact Nat.mod_eq_of_lt small
  unfold seqEmit
  simp only [len, hp]
  have at' : ∀ i, ({ s with work := w, seq := .eEmit } : State).ibAt i = s.ibAt i := fun _ => rfl
  simp only [at']
  rcases nextToken_cases s.ibBytes s.window.toNat s.work.pos with
    ⟨g, _⟩ | ⟨g1, g2, symbol, g3, g4⟩ | ⟨g1, symbol, g3, g4⟩
  · rw [g] at hn; cases hn
  · rw [g4] at hn
    cases hn
    rw [ibBytes_length] at g2
    rw [if_pos ⟨g1, g2⟩]
    rw [ibBytes_getElem?, if_pos g2] at g3
    cases g3
    rw [ho, hl]
  · rw [g4] at hn
    cases hn
    rw [ibBytes_length] at g1
    rw [if_neg g1]
    rw [ibBytes_getElem?] at g3
    split at g3
    · cases g3; rfl
    · cases g3

/-- One token of ENC, from E_TEST below the end to E_EMIT. -/
theorem enc_find_run (s : State) (hs : Stepping s) (hq : s.seq = .eTest) (hp : s.work.pos ≠ s.ibLen)
    (hc : s.work.opc ≠ 2) :
    ∃ k w, w.pos = s.work.pos ∧ w.opc = s.work.opc ∧
      w.bestOff = BitVec.ofNat 16 (findLongestMatch s.ibBytes s.work.pos s.window.toNat).1 ∧
      w.bestLen = BitVec.ofNat 16 (findLongestMatch s.ibBytes s.work.pos s.window.toNat).2 ∧
      Runs k s { s with work := w, seq := .eEmit } := by
  obtain ⟨k, p, dl, r⟩ := mf_unit_run { s with seq := .mInit } hs rfl
  have pos : ({ s with seq := .mInit } : State).mfPosition = s.work.pos := by
    unfold State.mfPosition
    exact if_neg hc
  rw [pos] at r
  refine ⟨k + 1 + 1 + 1,
    { s.work with
      p := p
      dl := dl
      lo := s.work.pos - s.window.toNat
      bestOff := BitVec.ofNat 16 (findLongestMatch s.ibBytes s.work.pos s.window.toNat).1
      bestLen := BitVec.ofNat 16 (findLongestMatch s.ibBytes s.work.pos s.window.toNat).2 },
    rfl, rfl, rfl, rfl, Runs.row hs (s' := { s with seq := .eFind }) ?_
    (Runs.row hs (s' := { s with seq := .mInit }) ?_ (r.trans (Runs.row hs ?_ (Runs.refl _))))⟩
  · simp only [microStep, hq]
    rw [if_neg hp]
  · simp only [microStep]
  · simp only [microStep]
    rw [if_neg hc]
    rfl

/-- The encoder's loop, from E_TEST to E_DONE or the error. -/
theorem enc_loop_run : ∀ (rounds : Nat) (s : State) (tokens : List Token), Stepping s → s.seq = .eTest →
    s.ibLen ≤ s.work.pos + rounds → s.work.pos ≤ s.ibLen → tokens.length = s.tbLen →
    (s.work.opc = 3 ∨ s.work.opc = 7) →
    (∃ rest k w,
      encodeFrom s.cfg.tbCap s.ibBytes s.window.toNat rounds s.work.pos tokens = .ok (tokens ++ rest) ∧
      w.opc = s.work.opc ∧
      Runs k s
        { s with
          tb := s.tb.writeAll s.tbLen rest
          tbLen := s.tbLen + rest.length
          work := w
          seq := .eDone }) ∨
    (∃ k, encodeFrom s.cfg.tbCap s.ibBytes s.window.toNat rounds s.work.pos tokens = .error .capacity ∧
      Runs k s (s.raise s.work.opc 0 .capacity 0)) := by
  intro rounds
  induction rounds with
  | zero =>
    intro s tokens hs hq hr hp ht hc
    refine .inl ⟨[], 1, s.work, by simp [encodeFrom], rfl, Runs.row hs ?_ (Runs.refl _)⟩
    simp only [microStep, hq]
    rw [if_pos (by omega)]
    rfl
  | succ rounds ih =>
    intro s tokens hs hq hr hp ht hc
    by_cases done : s.work.pos = s.ibLen
    · refine .inl ⟨[], 1, s.work, ?_, rfl, Runs.row hs ?_ (Runs.refl _)⟩
      · unfold encodeFrom
        rcases nextToken_cases s.ibBytes s.window.toNat s.work.pos with
          ⟨g, _⟩ | ⟨g1, g2, _⟩ | ⟨_, symbol, g3, _⟩
        · rw [g]; simp
        · rw [ibBytes_length] at g2; omega
        · rw [ibBytes_getElem?, if_neg (by omega)] at g3; cases g3
      · simp only [microStep, hq]
        rw [if_pos done]
        rfl
    · have hc2 : s.work.opc ≠ 2 := by rcases hc with h | h <;> rw [h] <;> decide
      obtain ⟨k, w, w1, w2, w3, w4, r⟩ := enc_find_run s hs hq done hc2
      have token : ∃ t advance, nextToken s.ibBytes s.window.toNat s.work.pos = some (t, advance) ∧
          1 ≤ advance ∧ s.work.pos + advance ≤ s.ibLen := by
        rcases nextToken_cases s.ibBytes s.window.toNat s.work.pos with
          ⟨_, g⟩ | ⟨g1, g2, symbol, _, g4⟩ | ⟨_, symbol, _, g4⟩
        · rw [ibBytes_length] at g; omega
        · rw [ibBytes_length] at g2
          exact ⟨_, _, g4, by omega, by omega⟩
        · exact ⟨_, _, g4, by omega, by omega⟩
      obtain ⟨t, advance, ha, h1, h2⟩ := token
      have emit := emit_eq_nextToken w3 w4 w1 ha
      rw [encodeFrom, ha]
      simp only
      rcases appendTo_cases s.cfg.tbCap tokens t with ⟨f, g⟩ | ⟨f, g⟩
      · refine .inr ⟨k + 1, by rw [g], r.trans (Runs.row hs ?_ (Runs.refl _))⟩
        simp only [microStep]
        rw [emit]
        unfold State.emitToken
        rw [ht] at f
        rw [if_pos f]
        simp only [w2]
        exact raise_encoder s s.tb s.tbLen w .eEmit hc
      · rw [g]
        simp only
        rw [ht] at f
        let s1 : State :=
          { s with
            tb := s.tb.write s.tbLen t
            tbLen := s.tbLen + 1
            work := { w with pos := w.pos + advance }
            seq := .eTest }
        have r1 : Runs (k + 1) s s1 := by
          refine r.trans (Runs.row hs ?_ (Runs.refl _))
          simp only [microStep]
          rw [emit]
          unfold State.emitToken
          rw [if_neg (by simp [f])]
        have hpos : s1.work.pos = s.work.pos + advance := by change w.pos + advance = _; rw [w1]
        have hopc : s1.work.opc = s.work.opc := w2
        have next := ih s1 (tokens ++ [t]) hs rfl (by rw [hpos]; change s.ibLen ≤ _; omega)
          (by rw [hpos]; change _ ≤ s.ibLen; omega) (by simp [ht, s1]) (by rw [hopc]; exact hc)
        rw [hpos, hopc] at next
        rcases next with ⟨rest, j, v, e, vo, r2⟩ | ⟨j, e, r2⟩
        · refine .inl ⟨t :: rest, k + 1 + j, v, ?_, vo, r1.trans ?_⟩
          · refine Eq.trans e ?_
            simp
          · have len : s.tbLen + (t :: rest).length = s1.tbLen + rest.length := by
              simp [s1]; omega
            rw [len]
            exact r2
        · refine .inr ⟨k + 1 + j, e, ?_⟩
          have same := raise_encoder s (s.tb.write s.tbLen t) (s.tbLen + 1)
            { w with pos := w.pos + advance } .eTest hc
          rw [← same]
          exact r1.trans r2

/-! ## DEC (R190) -/

theorem setAll_append {α : Type} (m : List (Nat × α)) (a : Nat) (xs ys : List α) :
    Memory.setAll m a (xs ++ ys) = Memory.setAll (Memory.setAll m a xs) (a + xs.length) ys := by
  induction xs generalizing m a with
  | nil => rfl
  | cons x xs ih =>
    simp only [List.cons_append, Memory.setAll, List.length_cons, ih]
    congr 1
    omega

/-- Writing a sequence and one element after it. -/
theorem Buf.write_writeAll {α : Type} (b : Buf α) (a : Nat) (xs : List α) (x : α) :
    (b.writeAll a xs).write (a + xs.length) x = b.writeAll a (xs ++ [x]) := by
  unfold Buf.writeAll Buf.write
  rw [setAll_append]
  rfl

/-- A buffer written from index 0 and then cut at the end of what was written is the buffer that holds
exactly it: what an operation appends one by one and what its meaning puts at once are one memory. -/
theorem Buf.sealAt_writeAll_zero {α : Type} {b : Buf α} (h : Memory.wf b.cells) (xs : List α) (n : Nat) :
    (b.writeAll 0 xs).sealAt xs.length n = (b.put xs).sealAt xs.length n := by
  have cells : Memory.below (Memory.setAll b.cells 0 xs) xs.length =
      Memory.below (Memory.cellsOf 0 xs) xs.length := by
    refine Memory.ext_of_wf (Memory.wf_below (Memory.wf_setAll h 0 xs) _)
      (Memory.wf_below (Memory.wf_cellsOf 0 xs) _) fun a => ?_
    rw [Memory.get?_below, Memory.get?_below]
    split
    · next lt =>
      rw [Memory.get?_setAll, Memory.get?_cellsOf]
      simp [lt]
    · rfl
  unfold Buf.sealAt Buf.writeAll Buf.put
  simp only [cells]

/-- OB's sequence after one more byte. -/
theorem obBytes_emit (s : State) (b : Byte) (w : Work) (q : Seq) :
    ({ s with ob := s.ob.write s.obLen b, obLen := s.obLen + 1, work := w, seq := q } : State).obBytes =
      s.obBytes ++ [b] := by
  unfold State.obBytes
  simp only [List.range_succ, List.map_append, List.map_cons, List.map_nil]
  congr 1
  · apply List.map_congr_left
    intro i hi
    have : i ≠ s.obLen := by have := List.mem_range.mp hi; omega
    simp [State.obAt, this]
  · simp [State.obAt]

/-- The element of OB's sequence at an index. -/
theorem obBytes_getElem? (s : State) (i : Nat) :
    s.obBytes[i]? = if i < s.obLen then some (s.obAt i) else none := by
  unfold State.obBytes
  rw [List.getElem?_map]
  split
  · next h => rw [List.getElem?_range h]; rfl
  · next h => rw [List.getElem?_eq_none (by simpa using h)]; rfl

/-- What an error of DEC leaves does not depend on what it had written of its outputs (R252). -/
theorem raiseToken_decoder (s : State) (ob : Buf Byte) (len : Nat) (w : Work) (q : Seq) (e : ErrKind)
    (ho : w.opc = s.work.opc) (ht : w.tix = s.work.tix) :
    ({ s with ob := ob, obLen := len, work := w, seq := q } : State).raiseToken e = s.raiseToken e := by
  unfold State.raiseToken tokenOwner
  simp only [ho, ht]
  by_cases h : s.work.opc = 8
  · rw [if_pos h]; rfl
  · rw [if_neg h]; rfl

/-- The copy loop, from D_COPY to D_SYM or the error. -/
theorem copy_loop_run : ∀ (m : Nat) (s : State), Stepping s → s.seq = .dCopy →
    s.work.cpy.toNat + m = s.work.tLen.toNat → s.work.start + s.work.cpy.toNat < s.obLen →
    (∃ run k, copyRun s.cfg.obCap m (s.work.start + s.work.cpy.toNat) s.obBytes = .ok (s.obBytes ++ run) ∧
      run.length = m ∧
      Runs k s
        { s with
          ob := s.ob.writeAll s.obLen run
          obLen := s.obLen + run.length
          work := { s.work with cpy := s.work.tLen }
          seq := .dSym }) ∨
    (∃ k, copyRun s.cfg.obCap m (s.work.start + s.work.cpy.toNat) s.obBytes = .error .capacity ∧
      Runs k s (s.raiseToken .capacity)) := by
  intro m
  induction m with
  | zero =>
    intro s hs hq hm hi
    have e : s.work.cpy = s.work.tLen := BitVec.eq_of_toNat_eq (by omega)
    refine .inl ⟨[], 1, by simp [copyRun], rfl, Runs.row hs ?_ (Runs.refl _)⟩
    simp only [microStep, hq]
    rw [if_pos e]
    have same : ({ s.work with cpy := s.work.tLen } : Work) = s.work :=
      congrArg (fun c => ({ s.work with cpy := c } : Work)) e.symm
    rw [same]
    rfl
  | succ m ih =>
    intro s hs hq hm hi
    have ne : s.work.cpy ≠ s.work.tLen := fun h => by rw [h] at hm; omega
    have lt := s.work.tLen.isLt
    have up : (s.work.cpy + 1).toNat = s.work.cpy.toNat + 1 := by
      rw [BitVec.toNat_add]
      exact Nat.mod_eq_of_lt (by change s.work.cpy.toNat + 1 < 65536; omega)
    rw [copyRun, obBytes_getElem?, if_pos hi]
    simp only
    rcases appendTo_cases s.cfg.obCap s.obBytes (s.obAt (s.work.start + s.work.cpy.toNat)) with
      ⟨f, g⟩ | ⟨f, g⟩
    · refine .inr ⟨1, by rw [g], Runs.row hs ?_ (Runs.refl _)⟩
      rw [obBytes_length] at f
      simp only [microStep, hq]
      rw [if_neg ne]
      unfold State.emitByte
      rw [if_pos f]
    · rw [g]
      simp only
      rw [obBytes_length] at f
      let s1 : State :=
        { s with
          ob := s.ob.write s.obLen (s.obAt (s.work.start + s.work.cpy.toNat))
          obLen := s.obLen + 1
          work := { s.work with cpy := s.work.cpy + 1 }
          seq := .dCopy }
      have row : microStep s = s1 := by
        simp only [microStep, hq]
        rw [if_neg ne]
        unfold State.emitByte
        rw [if_neg (by simp [f])]
      have bytes : s1.obBytes = s.obBytes ++ [s.obAt (s.work.start + s.work.cpy.toNat)] := obBytes_emit s _ _ _
      have idx : s1.work.start + s1.work.cpy.toNat = s.work.start + s.work.cpy.toNat + 1 := by
        change s.work.start + (s.work.cpy + 1).toNat = _
        omega
      have next := ih s1 hs rfl (by change (s.work.cpy + 1).toNat + m = s.work.tLen.toNat; omega)
        (by rw [idx]; change _ < s.obLen + 1; omega)
      rw [idx, bytes] at next
      rcases next with ⟨run, k, e, len, r⟩ | ⟨k, e, r⟩
      · refine .inl ⟨s.obAt (s.work.start + s.work.cpy.toNat) :: run, k + 1, ?_, by simp [len],
          Runs.row hs row ?_⟩
        · refine Eq.trans e ?_
          simp
        · have l : s.obLen + (s.obAt (s.work.start + s.work.cpy.toNat) :: run).length =
              s1.obLen + run.length := by
            simp [s1]; omega
          rw [l]
          exact r
      · refine .inr ⟨k + 1, e, ?_⟩
        rw [← raiseToken_decoder s (s.ob.write s.obLen (s.obAt (s.work.start + s.work.cpy.toNat)))
          (s.obLen + 1) { s.work with cpy := s.work.cpy + 1 } .dCopy .capacity rfl rfl]
        exact Runs.row hs row r

/-- What executing one token does (R179, R180): the token's error, or the output it gives, whatever the
grain. -/
theorem exec_decodeToken (s : State) (t : Token) :
    (∃ e, tokenBytes s.cfg.obCap s.obBytes t = .error e ∧
      exec (decodeToken t) s = .next (s.raiseToken e)) ∨
    (∃ run w, tokenBytes s.cfg.obCap s.obBytes t = .ok (s.obBytes ++ run) ∧ w.opc = s.work.opc ∧
      exec (decodeToken t) s = .next (s.afterToken (s.obBytes ++ run) w)) := by
  unfold tokenBytes decodeToken
  by_cases g : t.offset = 0 ∧ t.length = 0
  · rw [if_pos g, if_pos g]
    simp only [exec, execLit]
    cases h : litBytes s.cfg.obCap s.obBytes t.symbol with
    | error e => exact .inl ⟨e, rfl, rfl⟩
    | ok out =>
      obtain ⟨rfl, _⟩ := appendTo_ok h
      exact .inr ⟨[t.symbol], { s.work with tOff := 0, tLen := 0, tSym := t.symbol }, rfl, rfl, rfl⟩
  · rw [if_neg g, if_neg g]
    simp only [exec, execMatchTok]
    cases h : matchBytes s.cfg.obCap s.obBytes t.offset t.length t.symbol with
    | error e => exact .inl ⟨e, rfl, rfl⟩
    | ok out =>
      have ext : ∃ run, out = s.obBytes ++ run := by
        unfold matchBytes at h
        split at h
        · cases h
        · split at h
          · cases h
          · next g2 =>
            rw [(appendTo_ok h).1]
            have : ∀ (c i : Nat) (o o' : List Byte), copyRun s.cfg.obCap c i o = .ok o' → ∃ run, o' = o ++ run := by
              intro c
              induction c with
              | zero => intro i o o' h; simp only [copyRun, Except.ok.injEq] at h; exact ⟨[], by simp [h]⟩
              | succ c ih =>
                intro i o o' h
                unfold copyRun at h
                split at h
                · cases h
                · next b _ =>
                  split at h
                  · cases h
                  · next g3 =>
                    obtain ⟨run, e⟩ := ih _ _ _ h
                    exact ⟨b :: run, by rw [e, (appendTo_ok g3).1]; simp⟩
            obtain ⟨run, e⟩ := this _ _ _ _ g2
            exact ⟨run ++ [t.symbol], by rw [e]; simp⟩
      obtain ⟨run, rfl⟩ := ext
      exact .inr ⟨run,
        { s.work with
          tOff := t.offset
          tLen := t.length
          tSym := t.symbol
          start := s.obLen - t.offset.toNat
          cpy := t.length }, rfl, rfl, rfl⟩

/-- One token by rows, from D_FETCH to D_FETCH or the error, is the token's meaning. -/
theorem token_rows_run (s : State) (hs : Stepping s) (hq : s.seq = .dFetch) (ht : s.work.tix ≠ s.tbLen) :
    ∃ k t, exec (decodeToken (s.tbAt s.work.tix)) s = .next t ∧ Runs (k + 1) s t := by
  generalize htok : s.tbAt s.work.tix = tok
  by_cases lit : tok.offset = 0 ∧ tok.length = 0
  · have first : microStep s =
        { s with
          work := { s.work with tOff := tok.offset, tLen := tok.length, tSym := tok.symbol }
          seq := .dSym } := by
      simp only [microStep, hq]
      rw [if_neg ht, htok, if_pos lit]
    unfold decodeToken
    rw [if_pos lit]
    simp only [exec, execLit, litBytes]
    rcases appendTo_cases s.cfg.obCap s.obBytes tok.symbol with ⟨f, g⟩ | ⟨f, g⟩
    · rw [obBytes_length] at f
      rw [g]
      refine ⟨1, _, rfl, Runs.row hs first (Runs.row hs ?_ (Runs.refl _))⟩
      simp only [microStep]
      unfold State.emitByte
      rw [if_pos f]
      exact raiseToken_decoder s s.ob s.obLen _ .dSym .capacity rfl rfl
    · rw [obBytes_length] at f
      rw [g]
      refine ⟨1, _, rfl, Runs.row hs first (Runs.row hs ?_ (Runs.refl _))⟩
      simp only [microStep]
      unfold State.emitByte State.afterToken
      rw [if_neg (by simp [f]), lit.1, lit.2]
      have drop : (s.obBytes ++ [tok.symbol]).drop s.obLen = [tok.symbol] := by
        rw [← obBytes_length s, List.drop_left]
      rw [drop]
      simp only [List.length_append, obBytes_length, List.length_singleton]
      rfl
  · have first : microStep s =
        { s with
          work := { s.work with tOff := tok.offset, tLen := tok.length, tSym := tok.symbol }
          seq := .dCheck } := by
      simp only [microStep, hq]
      rw [if_neg ht, htok, if_neg lit]
    unfold decodeToken
    rw [if_neg lit]
    simp only [exec, execMatchTok, matchBytes, obBytes_length]
    by_cases bad : tok.offset = 0 ∨ tok.offset.toNat > s.obLen
    · rw [if_pos bad]
      refine ⟨1, _, rfl, Runs.row hs first (Runs.row hs ?_ (Runs.refl _))⟩
      simp only [microStep]
      rw [if_pos bad]
      exact raiseToken_decoder s s.ob s.obLen _ .dCheck .invalidReference rfl rfl
    · rw [if_neg bad]
      let s2 : State :=
        { s with
          work :=
            { s.work with
              tOff := tok.offset
              tLen := tok.length
              tSym := tok.symbol
              start := s.obLen - tok.offset.toNat
              cpy := 0 }
          seq := .dCopy }
      have pos : tok.offset.toNat ≠ 0 := fun h => bad (.inl (BitVec.eq_of_toNat_eq h))
      have r2 : Runs 2 s s2 := by
        refine Runs.row hs first (Runs.row hs ?_ (Runs.refl _))
        simp only [microStep]
        rw [if_neg bad]
      have copy := copy_loop_run tok.length.toNat s2 hs rfl
        (by change 0 + tok.length.toNat = tok.length.toNat; omega)
        (by change s.obLen - tok.offset.toNat + 0 < s.obLen; omega)
      have idx : s2.work.start + s2.work.cpy.toNat = s.obLen - tok.offset.toNat := rfl
      have bytes : s2.obBytes = s.obBytes := rfl
      rw [idx, bytes] at copy
      rcases copy with ⟨run, k, e, len, r⟩ | ⟨k, e, r⟩
      · rw [show copyRun s.cfg.obCap tok.length.toNat (s.obLen - tok.offset.toNat) s.obBytes =
          .ok (s.obBytes ++ run) from e]
        simp only
        rcases appendTo_cases s.cfg.obCap (s.obBytes ++ run) tok.symbol with ⟨f, g⟩ | ⟨f, g⟩
        · rw [List.length_append, obBytes_length] at f
          rw [g]
          have all := r2.trans (r.trans (Runs.row hs (s' := s.raiseToken .capacity) (by
            simp only [microStep]
            unfold State.emitByte
            rw [if_pos (show full s.cfg.obCap (s2.obLen + run.length) = true from f)]
            exact raiseToken_decoder s _ _ _ .dSym .capacity rfl rfl) (Runs.refl _)))
          exact ⟨1 + (k + 1), _, rfl, by rw [show 1 + (k + 1) + 1 = 2 + (k + (0 + 1)) by omega]; exact all⟩
        · rw [List.length_append, obBytes_length] at f
          rw [g]
          have all := r2.trans (r.trans (Runs.row hs (s' := s.afterToken (s.obBytes ++ run ++ [tok.symbol])
            { s.work with
              tOff := tok.offset
              tLen := tok.length
              tSym := tok.symbol
              start := s.obLen - tok.offset.toNat
              cpy := tok.length }) (by
            simp only [microStep]
            unfold State.emitByte State.afterToken
            rw [if_neg (by
              change ¬ full s.cfg.obCap (s.obLen + run.length) = true
              simp [f])]
            have drop : (s.obBytes ++ run ++ [tok.symbol]).drop s.obLen = run ++ [tok.symbol] := by
              rw [List.append_assoc, ← obBytes_length s, List.drop_left]
            rw [drop, ← Buf.write_writeAll]
            simp only [List.length_append, obBytes_length, List.length_singleton]
            rfl) (Runs.refl _)))
          exact ⟨1 + (k + 1), _, rfl, by rw [show 1 + (k + 1) + 1 = 2 + (k + (0 + 1)) by omega]; exact all⟩
      · rw [show copyRun s.cfg.obCap tok.length.toNat (s.obLen - tok.offset.toNat) s.obBytes =
          .error .capacity from e]
        simp only
        have same : s2.raiseToken .capacity = s.raiseToken .capacity :=
          raiseToken_decoder s s.ob s.obLen _ .dCopy .capacity rfl rfl
        rw [same] at r
        exact ⟨1 + k, _, rfl, by rw [show 1 + k + 1 = 2 + k by omega]; exact r2.trans r⟩

/-- One token at any grain: its meaning, in one step unless the grain is the row. -/
theorem token_run (s : State) (hb : s.status = .busy) (ha : s.agenda = []) (hq : s.seq = .dFetch)
    (ht : s.work.tix ≠ s.tbLen) :
    ∃ k t, exec (decodeToken (s.tbAt s.work.tix)) s = .next t ∧ Runs (k + 1) s t ∧
      (s.grain ≠ .micro → k = 0) := by
  by_cases g : s.grain = .micro
  · obtain ⟨k, t, e, r⟩ := token_rows_run s ⟨hb, g, ha⟩ hq ht
    exact ⟨k, t, e, r, fun h => absurd g h⟩
  · have move : coreMove s = .run (decodeToken (s.tbAt s.work.tix)) := by
      unfold coreMove
      rw [if_neg (by simp [hb]), hq]
      cases hg : s.grain with
      | micro => exact absurd hg g
      | operation => simp only [fetchToken, if_neg ht]
      | instruction => simp only [fetchToken, if_neg ht]
    have one : step s = exec (decodeToken (s.tbAt s.work.tix)) s := by
      simp only [Machine.step, turn_of_nil ha, popTurn_of_nil ha, move]
    rcases exec_decodeToken s (s.tbAt s.work.tix) with ⟨e, _, h⟩ | ⟨run, w, _, _, h⟩
    · exact ⟨0, _, h, Runs.head (one.trans h) (Runs.refl _), fun _ => rfl⟩
    · exact ⟨0, _, h, Runs.head (one.trans h) (Runs.refl _), fun _ => rfl⟩

/-- The decoder's loop at any grain, from D_FETCH to the end of the sequence or the first error. -/
theorem dec_loop_run : ∀ (ts : List Token) (s : State), s.status = .busy → s.agenda = [] →
    s.seq = .dFetch → s.work.tix + ts.length = s.tbLen →
    (∀ j, j < ts.length → ts[j]? = some (s.tbAt (s.work.tix + j))) →
    (∃ run k w, decodeFrom s.cfg.obCap s.work.tix s.obBytes ts = .ok (s.obBytes ++ run) ∧
      w.opc = s.work.opc ∧ w.tix = s.tbLen ∧ (s.grain ≠ .micro → k = ts.length) ∧
      Runs k s
        { s with
          ob := s.ob.writeAll s.obLen run
          obLen := s.obLen + run.length
          work := w
          seq := .dFetch }) ∨
    (∃ k e j, decodeFrom s.cfg.obCap s.work.tix s.obBytes ts = .error (e, j) ∧
      Runs k s (s.raise (tokenOwner s).1 (tokenOwner s).2 e j)) := by
  intro ts
  induction ts with
  | nil =>
    intro s hb ha hq hn _
    refine .inl ⟨[], 0, s.work, by simp [decodeFrom], rfl, by simpa using hn, fun _ => rfl, ?_⟩
    rw [← hq]
    exact Runs.refl s
  | cons t ts ih =>
    intro s hb ha hq hn hts
    have first : t = s.tbAt s.work.tix := by
      have := hts 0 (by simp)
      simpa using this
    obtain ⟨k, u, e, r, hk⟩ := token_run s hb ha hq (by rw [List.length_cons] at hn; omega)
    rw [← first] at e
    rw [decodeFrom]
    rcases exec_decodeToken s t with ⟨er, g, h⟩ | ⟨run, w, g, wo, h⟩
    · rw [h] at e
      cases e
      rw [g]
      exact .inr ⟨k + 1, er, _, rfl, r⟩
    · rw [h] at e
      cases e
      rw [g]
      simp only
      have drop : (s.obBytes ++ run).drop s.obLen = run := by rw [← obBytes_length s, List.drop_left]
      have after : s.afterToken (s.obBytes ++ run) w =
          { s with
            ob := s.ob.writeAll s.obLen run
            obLen := s.obLen + run.length
            work := { w with tix := s.work.tix + 1 }
            seq := .dFetch } := by
        unfold State.afterToken
        rw [drop, List.length_append, obBytes_length]
      rw [after] at r
      let s1 : State :=
        { s with
          ob := s.ob.writeAll s.obLen run
          obLen := s.obLen + run.length
          work := { w with tix := s.work.tix + 1 }
          seq := .dFetch }
      have bytes : s1.obBytes = s.obBytes ++ run := by
        unfold State.obBytes
        apply List.ext_getElem
        · simp [s1]
        · intro i h1 h2
          simp only [List.getElem_map, List.getElem_range, State.obAt, s1, Buf.read_writeAll]
          by_cases lt : i < s.obLen
          · rw [if_neg (by omega), List.getElem_append_left (by simpa using lt)]
            simp [State.obAt]
          · rw [if_pos (by omega), List.getElem_append_right (by simpa using lt)]
            simp only [List.length_map, List.length_range]
            have : i - s.obLen < run.length := by simp [s1] at h1; omega
            rw [List.getElem?_eq_getElem this]
            rfl
      have next := ih s1 hb ha rfl (by
        change s.work.tix + 1 + ts.length = s.tbLen
        rw [List.length_cons] at hn
        omega) (by
        intro j hj
        have := hts (j + 1) (by simpa using hj)
        rw [List.getElem?_cons_succ] at this
        rw [this]
        change some (s.tbAt (s.work.tix + (j + 1))) = some (s.tbAt (s.work.tix + 1 + j))
        rw [Nat.add_assoc, Nat.add_comm 1 j])
      rw [bytes] at next
      rcases next with ⟨run2, j, v, e2, vo, vt, hj, r2⟩ | ⟨j, e2, i, d, r2⟩
      · refine .inl ⟨run ++ run2, k + 1 + j, v, ?_, vo.trans wo, vt, ?_, r.trans ?_⟩
        · refine Eq.trans e2 ?_
          simp
        · intro g
          rw [hk g, hj g, List.length_cons]
          omega
        · have m : (s.ob.writeAll s.obLen run).writeAll (s.obLen + run.length) run2 =
              s.ob.writeAll s.obLen (run ++ run2) := by
            unfold Buf.writeAll
            rw [setAll_append]
          have l : s.obLen + (run ++ run2).length = s.obLen + run.length + run2.length := by
            simp [Nat.add_assoc]
          rw [← m, l]
          exact r2
      · refine .inr ⟨k + 1 + j, e2, i, d, r.trans ?_⟩
        have owner : tokenOwner s1 = tokenOwner s := by
          unfold tokenOwner
          change (if w.opc = 8 then _ else _) = _
          rw [wo]
        rw [owner] at r2
        have same : s1.raise (tokenOwner s).1 (tokenOwner s).2 e2 i =
            s.raise (tokenOwner s).1 (tokenOwner s).2 e2 i := by
          unfold tokenOwner
          by_cases h8 : s.work.opc = 8
          · rw [if_pos h8]; rfl
          · rw [if_neg h8]; rfl
        rw [← same]
        exact r2

/-! ## FRM (R201, R209) -/

/-- S_REC, from record RIX to the end: the bytes of the tokens left, at five times their index. -/
theorem ser_records_run : ∀ (ts : List Token) (s : State), Stepping s → s.seq = .sRec →
    s.work.rix + ts.length = s.tbLen →
    (∀ j, j < ts.length → ts[j]? = some (s.tbAt (s.work.rix + j))) →
    ∃ k w, w.opc = s.work.opc ∧ w.phase = s.work.phase ∧ w.bodyLen = s.work.bodyLen ∧
      Runs k s
        { s with fb := s.fb.writeAll (5 * s.work.rix) (bodyBytes ts), work := w, seq := .sCrc } := by
  intro ts
  induction ts with
  | nil =>
    intro s hs hq hn _
    refine ⟨1, s.work, rfl, rfl, rfl, Runs.row hs ?_ (Runs.refl _)⟩
    simp only [microStep, hq, seqRecord]
    rw [if_pos (by simpa using hn)]
    rfl
  | cons t ts ih =>
    intro s hs hq hn hts
    have first : t = s.tbAt s.work.rix := by
      have := hts 0 (by simp)
      simpa using this
    let s1 : State :=
      { s with
        fb := s.fb.writeAll (5 * s.work.rix) (recordBytes t)
        work :=
          { s.work with tOff := t.offset, tLen := t.length, tSym := t.symbol, rix := s.work.rix + 1 } }
    have row : microStep s = s1 := by
      simp only [microStep, hq, seqRecord]
      rw [if_neg (by rw [List.length_cons] at hn; omega), ← first]
      simp only [s1, hq]
    obtain ⟨k, w, w1, w2, w3, r⟩ := ih s1 hs hq (by
      change s.work.rix + 1 + ts.length = s.tbLen
      rw [List.length_cons] at hn
      omega) (by
      intro j hj
      have := hts (j + 1) (by simpa using hj)
      rw [List.getElem?_cons_succ] at this
      rw [this]
      change some (s.tbAt (s.work.rix + (j + 1))) = some (s.tbAt (s.work.rix + 1 + j))
      rw [Nat.add_assoc, Nat.add_comm 1 j])
    refine ⟨k + 1, w, w1, w2, w3, Runs.row hs row ?_⟩
    have m : (s.fb.writeAll (5 * s.work.rix) (recordBytes t)).writeAll (5 * (s.work.rix + 1)) (bodyBytes ts) =
        s.fb.writeAll (5 * s.work.rix) (bodyBytes (t :: ts)) := by
      have split : bodyBytes (t :: ts) = recordBytes t ++ bodyBytes ts := rfl
      unfold Buf.writeAll
      rw [split, setAll_append, length_recordBytes, Nat.mul_add]
    rw [← m]
    exact r

/-- X_REC, from record RIX to the end of the body: the tokens of the bytes left. -/
theorem des_records_run : ∀ (n : Nat) (s : State), Stepping s → s.seq = .xRec →
    5 * (s.work.rix + n) = s.work.bodyLen →
    ∃ k w, w.opc = s.work.opc ∧ w.phase = s.work.phase ∧ w.rix = s.work.rix + n ∧
      Runs k s
        { s with
          tb := s.tb.writeAll s.work.rix
            (parseRecords ((List.range' (5 * s.work.rix) (5 * n)).map s.fbAt))
          work := w
          seq := .xDone } := by
  intro n
  induction n with
  | zero =>
    intro s hs hq hn
    refine ⟨1, s.work, rfl, rfl, rfl, Runs.row hs ?_ (Runs.refl _)⟩
    simp only [microStep, hq, seqParse]
    rw [if_pos (by simpa using hn)]
    rfl
  | succ n ih =>
    intro s hs hq hn
    let t : Token :=
      tokenOfBytes (s.fbAt (5 * s.work.rix)) (s.fbAt (5 * s.work.rix + 1)) (s.fbAt (5 * s.work.rix + 2))
        (s.fbAt (5 * s.work.rix + 3)) (s.fbAt (5 * s.work.rix + 4))
    let s1 : State :=
      { s with
        tb := s.tb.write s.work.rix t
        work :=
          { s.work with tOff := t.offset, tLen := t.length, tSym := t.symbol, rix := s.work.rix + 1 } }
    have row : microStep s = s1 := by
      simp only [microStep, hq, seqParse]
      rw [if_neg (by omega)]
      simp only [s1, t, hq]
    obtain ⟨k, w, w1, w2, w3, r⟩ := ih s1 hs hq (by
      change 5 * (s.work.rix + 1 + n) = s.work.bodyLen
      omega)
    refine ⟨k + 1, w, w1, w2, by rw [w3]; change s.work.rix + 1 + n = _; omega, Runs.row hs row ?_⟩
    have split : (List.range' (5 * s.work.rix) (5 * (n + 1))).map s.fbAt =
        s.fbAt (5 * s.work.rix) :: s.fbAt (5 * s.work.rix + 1) :: s.fbAt (5 * s.work.rix + 2) ::
          s.fbAt (5 * s.work.rix + 3) :: s.fbAt (5 * s.work.rix + 4) ::
            (List.range' (5 * (s.work.rix + 1)) (5 * n)).map s.fbAt := by
      rw [show 5 * (n + 1) = 5 * n + 1 + 1 + 1 + 1 + 1 by omega,
        show 5 * (s.work.rix + 1) = 5 * s.work.rix + 1 + 1 + 1 + 1 + 1 by omega]
      simp only [List.range'_succ, List.map_cons]
    rw [split, parseRecords]
    exact r

/-! ## Where an operation starts, at each grain -/

theorem seqStart_crc32 {s : State} (h : s.work.opc = 1) :
    seqStart s = { s with work := { s.work with crcN := s.ibLen }, seq := .cInit } := by
  have code : s.work.opc.toNat = 1 := by rw [h]; rfl
  simp only [seqStart, code]

theorem seqStart_find {s : State} (h : s.work.opc = 2) :
    seqStart s = { s with seq := .mInit } := by
  have code : s.work.opc.toNat = 2 := by rw [h]; rfl
  simp only [seqStart, code]

theorem seqStart_encode {s : State} (h : s.work.opc = 3) :
    seqStart s = { s with seq := .eInit } := by
  have code : s.work.opc.toNat = 3 := by rw [h]; rfl
  simp only [seqStart, code]

theorem seqStart_decode {s : State} (h : s.work.opc = 4) :
    seqStart s = { s with seq := .dInit } := by
  have code : s.work.opc.toNat = 4 := by rw [h]; rfl
  simp only [seqStart, code]

theorem seqStart_serialize {s : State} (h : s.work.opc = 5) :
    seqStart s = { s with seq := .sInit } := by
  have code : s.work.opc.toNat = 5 := by rw [h]; rfl
  simp only [seqStart, code]

theorem seqStart_deserialize {s : State} (h : s.work.opc = 6) :
    seqStart s = { s with seq := .xLen } := by
  have code : s.work.opc.toNat = 6 := by rw [h]; rfl
  simp only [seqStart, code]

theorem seqStart_pack {s : State} (h : s.work.opc = 7) :
    seqStart s = { s with work := { s.work with phase := 0 }, seq := .eInit } := by
  have code : s.work.opc.toNat = 7 := by rw [h]; rfl
  simp only [seqStart, code]

theorem seqStart_unpack {s : State} (h : s.work.opc = 8) :
    seqStart s = { s with work := { s.work with phase := 0 }, seq := .xLen } := by
  have code : s.work.opc.toNat = 8 := by rw [h]; rfl
  simp only [seqStart, code]

theorem seqStart_cmp {s : State} (h : s.work.opc = 9) :
    seqStart s = { s with seq := .qCmp } := by
  have code : s.work.opc.toNat = 9 := by rw [h]; rfl
  simp only [seqStart, code]

theorem seqCrcDone_crc32 {s : State} (h : s.work.opc = 1) :
    seqCrcDone s = ({ s with crcOut := s.work.crc ^^^ crcXorOut } : State).complete 1 := by
  have code : s.work.opc.toNat = 1 := by rw [h]; rfl
  simp only [seqCrcDone, code]

theorem seqCrcDone_serialize {s : State} (h : s.work.opc = 5) :
    seqCrcDone s = { s with crcOut := s.work.crc ^^^ crcXorOut, seq := .sTrl } := by
  have code : s.work.opc.toNat = 5 := by rw [h]; rfl
  simp only [seqCrcDone, code]

theorem seqCrcDone_deserialize {s : State} (h : s.work.opc = 6) :
    seqCrcDone s = { s with crcOut := s.work.crc ^^^ crcXorOut, seq := .xCmp } := by
  have code : s.work.opc.toNat = 6 := by rw [h]; rfl
  simp only [seqCrcDone, code]

theorem seqCrcDone_pack {s : State} (h : s.work.opc = 7) :
    seqCrcDone s = { s with crcOut := s.work.crc ^^^ crcXorOut, seq := .sTrl } := by
  have code : s.work.opc.toNat = 7 := by rw [h]; rfl
  simp only [seqCrcDone, code]

theorem seqCrcDone_unpack {s : State} (h : s.work.opc = 8) :
    seqCrcDone s = { s with crcOut := s.work.crc ^^^ crcXorOut, seq := .xCmp } := by
  have code : s.work.opc.toNat = 8 := by rw [h]; rfl
  simp only [seqCrcDone, code]

/-- A latched operation at the grain at which it is one instruction: one step, its meaning. -/
theorem step_latched {s : State} {c : BitVec 4} {i : Instr} (h : s.Latched c)
    (hd : decodeCommand c = .ok i)
    (hg : s.grain = .operation ∨ s.grain = .instruction ∧ c ≠ 4 ∧ c ≠ 8) : step s = exec i s := by
  obtain ⟨h1, h2, h3, h4⟩ := h
  have move : coreMove s = .run i := by
    unfold coreMove
    rw [if_neg (by simp [h1]), h2]
    rcases hg with g | ⟨g, g4, g8⟩
    · rw [g]
      simp only [fetchOperation, h3, hd]
    · rw [g]
      simp only [fetchStepped, fetchOperation, h3, hd, if_neg g4, if_neg g8]
  simp only [step, turn_of_nil h4, popTurn_of_nil h4, move]

/-- A latched operation by rows: one step, to its first row. -/
theorem step_latched_row {s s' : State} {c : BitVec 4} (h : s.Latched c) (hg : s.grain = .micro)
    (e : seqStart s = s') : step s = .next s' := by
  obtain ⟨h1, h2, _, h4⟩ := h
  rw [Stepping.step ⟨h1, hg, h4⟩, ← e]
  simp only [microStep, h2]

/-- The end of a token sequence, at any grain. -/
theorem tokens_end_run (s : State) (hb : s.status = .busy) (ha : s.agenda = []) (hq : s.seq = .dFetch)
    (ht : s.work.tix = s.tbLen) :
    ∃ k, Runs (k + 1) s s.finishTokens ∧ (s.grain ≠ .micro → k = 0) := by
  by_cases g : s.grain = .micro
  · have same : ({ s with seq := .dDone } : State).finishTokens = s.finishTokens := rfl
    refine ⟨1, Runs.row ⟨hb, g, ha⟩ (s' := { s with seq := .dDone }) ?_
      (Runs.row ⟨hb, g, ha⟩ same (Runs.refl _)), fun h => absurd g h⟩
    simp only [microStep, hq]
    rw [if_pos ht]
  · have move : coreMove s = .goto s.finishTokens := by
      unfold coreMove
      rw [if_neg (by simp [hb]), hq]
      cases hg : s.grain with
      | micro => exact absurd hg g
      | operation => simp only [fetchToken, if_pos ht]
      | instruction => simp only [fetchToken, if_pos ht]
    refine ⟨0, Runs.head ?_ (Runs.refl _), fun _ => rfl⟩
    simp only [step, turn_of_nil ha, popTurn_of_nil ha, move]

/-- DECODE token by token: one step, to its first token. -/
theorem step_decode_instruction {s : State} (h : s.Latched 4) (hg : s.grain = .instruction) :
    step s = .next s.beginTokens := by
  obtain ⟨h1, h2, h3, h4⟩ := h
  have move : coreMove s = .goto s.beginTokens := by
    unfold coreMove
    rw [if_neg (by simp [h1]), h2, hg]
    simp only [fetchStepped, if_pos h3]
  simp only [step, turn_of_nil h4, popTurn_of_nil h4, move]

end Sys2Proof.Machine
end

