-- ==== Sys2Proof/Laws/Step.lean ====
section
/-! SUPPORT. What a turn can do, said once: the host's move on a state that is not BUSY and on one that is, the
core's turn on a state that is not BUSY, and what an error of a token keeps. -/

namespace Sys2Proof.Machine

/-! ## The host's turn (R290) -/

/-- On a state that is not BUSY every move of the host is its plain effect. -/
theorem hostStep_of_not_busy {s : State} (h : s.status ≠ .busy) (a : HostAct) : hostStep s a = hostMove s a :=
  if_neg fun g => h g.1

/-- On a BUSY state a move that exists there is its plain effect, and every other is refused. -/
theorem hostStep_of_busy {s : State} (h : s.status = .busy) (a : HostAct) :
    hostStep s a = if a.allowedWhileBusy then hostMove s a else .refused .hostAccessWhileBusy := by
  cases ha : a.allowedWhileBusy <;> simp [hostStep, h, ha]

/-- A CMD write while BUSY changes nothing (R21). -/
theorem writeCommand_of_busy {s : State} (h : s.status = .busy) (c : BitVec 4) : s.writeCommand c = s :=
  if_pos h

/-- A length write that is a move gives the state offered (R30, R288). -/
theorem writeLength_eq_next {b : Space} {r : Reg} {width cap : Option Nat} {v : Nat} {t : State}
    (hc : exceeds cap v = false) (hw : fits width v = true) : writeLength b r width cap v t = .next t := by
  simp [writeLength, hc, hw]

/-- A length above the capacity is no move (R288). -/
theorem writeLength_eq_refused {b : Space} {r : Reg} {width cap : Option Nat} {v : Nat} {t : State}
    (hc : exceeds cap v = true) : writeLength b r width cap v t = .refused (.lengthAboveCapacity b) := by
  simp [writeLength, hc]

/-! ## The core's turn -/

/-- A core that is not BUSY does nothing in its turn (R280; log 11). -/
theorem coreMove_of_not_busy {s : State} (h : s.status ≠ .busy) : coreMove s = .goto s := if_pos h

/-! ## Tokens that have been written -/

/-- Writing an element leaves every written element written. -/
theorem Buf.isSome_get?_write {α : Type} {b : Buf α} {i k : Nat} {v : α}
    (h : (Memory.get? b.cells k).isSome = true) : (Memory.get? (b.write i v).cells k).isSome = true := by
  simp only [Buf.write, Memory.get?_set]
  split <;> simp [h]

/-- A token sequence stored whole has been written (R205). -/
theorem State.tokensWritten_putTokens (s : State) (ts : List Token) : (s.putTokens ts).TokensWritten := by
  intro k hk
  change k < ts.length at hk
  change (Memory.get? (Memory.cellsOf 0 ts) k).isSome = true
  simp [Memory.get?_cellsOf, hk]

/-- A state that is not BUSY owes nothing to stage 1 of UNPACK. -/
theorem State.stageLegal_of_not_busy {s : State} (h : s.status ≠ .busy) : s.StageLegal :=
  fun hb => absurd hb h

/-- An error of a token keeps everything but OB and OB_LEN; of UNPACK's TB, the tokens that have been written
(R226, R252). -/
theorem State.raiseToken_keepsDecoderInputs {s : State} (h : s.work.opc = 8 → s.TokensWritten) (e : ErrKind) :
    KeepsDecoderInputs s (s.raiseToken e) := by
  unfold State.raiseToken tokenOwner
  by_cases h8 : s.work.opc = 8
  · rw [if_pos h8]
    refine ⟨⟨rfl, rfl, ⟨rfl, fun _ => rfl⟩, rfl, rfl, rfl, rfl⟩, ⟨rfl, fun _ => rfl⟩, ⟨rfl, rfl⟩, rfl, rfl, rfl,
      rfl, fun k hk => ?_⟩
    obtain ⟨v, hv⟩ := Option.isSome_iff_exists.mp (h h8 k hk)
    have sealed : (s.tb.sealAt s.tbLen s.freeCount).read Config.freeToken k = v :=
      Buf.read_sealAt_of_written _ hk hv
    exact sealed.trans (by simp [State.tbAt, Buf.read, hv])
  · rw [if_neg h8]
    exact ⟨⟨rfl, rfl, ⟨rfl, fun _ => rfl⟩, rfl, rfl, rfl, rfl⟩, ⟨rfl, fun _ => rfl⟩, ⟨rfl, rfl⟩, rfl, rfl, rfl,
      rfl, fun _ _ => rfl⟩

end Sys2Proof.Machine
end

