-- ==== Sys2Proof/Tests/Slice0.lean ====
section
/-! SUPPORT. The model's own tests. Expected values are the spec's: its worked examples and the vectors of
spec/95_test_vectors.md, each named in the test's comment; then a witness for the hypotheses of each
statement of Certificates/Slice0/Obligations.lean that has some, a clause at a time. -/

namespace Sys2Proof.Tests

open Sys2Proof.Machine

/-! ## Small states -/

/-- A token. -/
abbrev tok (o l : Half) (s : Byte) : Token := ⟨o, l, s⟩

/-- After reset, IB loaded. -/
abbrev withIb (bs : List Byte) : State :=
  { State.reset with ib := { cells := Memory.cellsOf 0 bs }, ibLen := bs.length }

/-- After reset, TB loaded. -/
abbrev withTb (ts : List Token) : State :=
  { State.reset with tb := { cells := Memory.cellsOf 0 ts }, tbLen := ts.length }

/-- After reset, FB loaded. -/
abbrev withFb (bs : List Byte) : State :=
  { State.reset with fb := { cells := Memory.cellsOf 0 bs }, fbLen := bs.length }

/-- After reset, OB loaded, as while DEC runs. -/
abbrev withOb (bs : List Byte) : State :=
  { State.reset with ob := { cells := Memory.cellsOf 0 bs }, obLen := bs.length }

/-- A result is a next state with a property. -/
def nextHas (r : Result) (p : State → Bool) : Bool :=
  match r with
  | .next t => p t
  | .fault _ => false
  | .refused _ => false

/-- "ABC..." as bytes: the letters of R11. -/
abbrev A : Byte := 0x41
abbrev B : Byte := 0x42
abbrev C : Byte := 0x43

/-! ## Well-formedness: the one check refuses its ill-formed term -/

/-- R102: `(0, 0, s)` is no MATCH. -/
theorem test_wellFormed_refuses_zero_match : (Instr.matchTok 0 0 0x41).wellFormed = false := by decide

/-- R97: a zero-length and a zero-offset match are MATCH terms. -/
theorem test_wellFormed_admits_subforms :
    (Instr.matchTok 1 0 0x41).wellFormed = true ∧ (Instr.matchTok 0 1 0x41).wellFormed = true := by
  decide

/-! ## Decoding: words written out from the encodings of R91, R92 and R104 -/

/-- P1: `LIT 'A'` is `00 00 00 00 41`. -/
theorem test_decode_lit : decodeRecord [0x00, 0x00, 0x00, 0x00, 0x41] = .ok (.lit 0x41, []) := by decide

/-- R92's example: `34 12 CD AB EF` is (0x1234, 0xABCD, 0xEF). -/
theorem test_decode_match_byte_order :
    decodeRecord [0x34, 0x12, 0xCD, 0xAB, 0xEF] = .ok (.matchTok 0x1234 0xABCD 0xEF, []) := by decide

/-- V-SER-14: offset 256 is `00 01`, length 1 is `01 00`; the bytes after the record are left over. -/
theorem test_decode_match_rest :
    decodeRecord [0x00, 0x01, 0x01, 0x00, 0x02, 0x99] = .ok (.matchTok 256 1 0x02, [0x99]) := by decide

/-- P5's zero-length MATCH `07 00 00 00 45`, and the zero-offset form of V-SER-10 `00 00 03 00 42`. -/
theorem test_decode_subforms :
    decodeRecord [0x07, 0x00, 0x00, 0x00, 0x45] = .ok (.matchTok 7 0 0x45, []) ∧
    decodeRecord [0x00, 0x00, 0x03, 0x00, 0x42] = .ok (.matchTok 0 3 0x42, []) := by decide

/-- Fewer than five bytes are no token (R101). -/
theorem test_decode_short_record : decodeRecord [0x00, 0x00, 0x00, 0x00] = .error (.shortRecord 4) := by
  decide

/-- The word view: bit 32 upward is the symbol (R91). -/
theorem test_decode_word40 :
    decodeTableWord 40 0xEFABCD1234 = some (.matchTok 0x1234 0xABCD 0xEF) ∧
    decodeTableWord 40 0x4100000000 = some (.lit 0x41) ∧
    decodeTableWord 32 0 = some (.lit 0) ∧ decodeTableWord 40 (2 ^ 40) = none := by decide

/-- The CMD codes of R104, CMD[3:0] = 0001 to 1001. -/
theorem test_decode_commands :
    (List.range 16).map (decodeTableWord 8) =
      [none, some .crc32, some .find, some .encode, some .decode, some .serialize, some .deserialize,
       some .pack, some .unpack, some .cmp, none, none, none, none, none, none] := by decide

/-- Encoding gives the bytes of R92's example and the codes of R104. -/
theorem test_encode :
    encodeInstr (.matchTok 0x1234 0xABCD 0xEF) = .record [0x34, 0x12, 0xCD, 0xAB, 0xEF] ∧
    encodeInstr (.lit 0x41) = .record [0x00, 0x00, 0x00, 0x00, 0x41] ∧
    encodeInstr .unpack = .command 8 := by decide

/-! ## CRC -/

/-- V-CRC-3: the register after the eight steps of byte 41. -/
theorem test_crc_byte : crcByte 0xFFFFFFFF 0x41 = 0x2C266174 := by decide +kernel

/-- R126: the empty sequence; V-CRC-1: `AB`. -/
theorem test_checksum : checksum [] = 0 ∧ checksum [A, B] = 0x30694C07 := by decide +kernel

/-- R128: the check value of "123456789". -/
theorem test_checksum_check_value :
    checksum [0x31, 0x32, 0x33, 0x34, 0x35, 0x36, 0x37, 0x38, 0x39] = 0xCBF43926 := by decide +kernel

/-- V-CRC-1, row `A`. -/
theorem test_crc32 :
    nextHas (exec .crc32 (withIb [A])) (fun t => t.crcOut == 0xD3D99E8B && t.status == .done) = true := by
  decide +kernel

/-! ## MF -/

/-- V-MF-14: a tie, the nearest wins; V-MF-18: a farther, longer match just inside the window. -/
theorem test_find_longest_match :
    findLongestMatch [0x58, A, B, 0x58, A, B, 0x59, A, B, 0x5A] 7 4096 = (3, 2) ∧
    findLongestMatch [A, B, C, 0x44, A, B, 0x58, A, B, C, 0x5A] 7 7 = (7, 3) := by decide

/-- V-MF-8 as an operation. -/
theorem test_find :
    nextHas (exec .find { withIb [A, B, C, A, B, C, A, B, C] with posIn := 3 })
      (fun t => t.mfOff == 3 && t.mfLen == 3 && t.status == .done) = true := by decide

/-! ## ENC -/

/-- V-ENC-7: the no-overlap rule and the rejected match at the end. -/
theorem test_encode_run :
    nextHas (exec .encode (withIb [A, A, A, A, A, A, A, A]))
      (fun t => t.tbTokens == [tok 0 0 A, tok 1 1 A, tok 3 3 A, tok 0 0 A] && t.status == .done) = true := by
  decide

/-- V-PACK-3's stage 0: `ABC` with TB_CAP = 2 raises CAPACITY. -/
theorem test_encode_capacity :
    nextHas (exec .encode { withIb [A, B, C] with cfg := { tbCap := some 2 } })
      (fun t => t.status == .error && t.err == .capacity && t.errInfo == 0) = true := by decide

/-! ## DEC -/

/-- V-DEC-4: an overlapping copy of period 2. -/
theorem test_decode_overlap :
    nextHas (exec .decode (withTb [tok 0 0 A, tok 0 0 B, tok 2 6 C]))
      (fun t => t.obBytes == [A, B, A, B, A, B, A, B, C] && t.status == .done) = true := by decide

/-- V-DEC-13: two bad tokens, the first is reported. -/
theorem test_decode_first_bad_token :
    nextHas (exec .decode (withTb [tok 0 0 A, tok 0 0 B, tok 5 1 C, tok 0 9 0x44]))
      (fun t => t.status == .error && t.err == .invalidReference && t.errInfo == 2) = true := by decide

/-- R179's example: OB = `AB`, `LIT 'C'`. -/
theorem test_lit :
    nextHas (exec (.lit C) (withOb [A, B])) (fun t => t.obBytes == [A, B, C] && t.work.tix == 1) = true := by
  decide

/-- R180's example: OB = `ABC`, `MATCH 3, 3, 'A'`. -/
theorem test_match :
    nextHas (exec (.matchTok 3 3 A) (withOb [A, B, C])) (fun t => t.obBytes == [A, B, C, A, B, C, A]) = true := by
  decide

/-- V-DEC-19, last line: with OB_CAP = 0 the reference check comes before any append. -/
theorem test_match_check_before_capacity :
    nextHas (exec (.matchTok 1 1 A) { withOb [] with cfg := { obCap := some 0 } })
      (fun t => t.err == .invalidReference) = true := by decide

/-! ## FRM -/

/-- V-SER-5: field byte order and the trailer. -/
theorem test_serialize :
    nextHas (exec .serialize (withTb [tok 4660 43981 0xEF]))
      (fun t => t.fbBytes == [0x34, 0x12, 0xCD, 0xAB, 0xEF, 0x97, 0xE9, 0xA2, 0x8C] && t.fbLen == 9 &&
        t.crcOut == 0x8CA2E997) = true := by decide +kernel

/-- V-SER-15: FB_CAP = 13 is one too few for two tokens. -/
theorem test_serialize_capacity :
    nextHas (exec .serialize { withTb [tok 0 0 A, tok 0 0 B] with cfg := { fbCap := some 13 } })
      (fun t => t.err == .capacity) = true := by decide

/-- V-DES-15. -/
theorem test_deserialize :
    nextHas (exec .deserialize (withFb [0x34, 0x12, 0xCD, 0xAB, 0xEF, 0x97, 0xE9, 0xA2, 0x8C]))
      (fun t => t.tbTokens == [tok 4660 43981 0xEF] && t.status == .done && t.crcStored == 0x8CA2E997) =
        true := by decide +kernel

/-- V-DES-12: misaligned with a consistent trailer is MALFORMED_RECORD, both checksums recorded. -/
theorem test_deserialize_malformed :
    nextHas (exec .deserialize (withFb [0x00, 0x00, 0x00, 0x00, 0x41, 0x99, 0x07, 0xF4, 0x73, 0xD1]))
      (fun t => t.err == .malformedRecord && t.crcOut == 0xD173F407 && t.crcStored == 0xD173F407) =
        true := by decide +kernel

/-! ## PACK, UNPACK, CMP -/

/-- V-PACK-2 and the encoding of V-PACK-1 without its frame: the empty input. -/
theorem test_pack_empty :
    nextHas (exec .pack (withIb []))
      (fun t => t.fbBytes == [0x00, 0x00, 0x00, 0x00] && t.tbLen == 0 && t.status == .done) = true := by
  decide

/-- V-ENC-2: `A` packs to `00 00 00 00 41 1B 86 F9 C7`. -/
theorem test_pack :
    nextHas (exec .pack (withIb [A]))
      (fun t => t.fbBytes == [0x00, 0x00, 0x00, 0x00, 0x41, 0x1B, 0x86, 0xF9, 0xC7] &&
        t.tbTokens == [tok 0 0 A] && t.crcOut == 0xC7F9861B) = true := by decide +kernel

/-- V-UNPACK-1: the overlap program P3. -/
theorem test_unpack :
    nextHas
      (exec .unpack (withFb [0x00, 0x00, 0x00, 0x00, 0x41, 0x01, 0x00, 0x05, 0x00, 0x42, 0x58, 0x7A, 0xF7, 0x84]))
      (fun t => t.obBytes == [A, A, A, A, A, A, B] && t.status == .done) = true := by decide +kernel

/-- V-UNPACK-3: a stage-1 error leaves the outputs of stage 0 valid. -/
theorem test_unpack_stage1_error :
    nextHas
      (exec .unpack (withFb [0x00, 0x00, 0x00, 0x00, 0x41, 0x02, 0x00, 0x01, 0x00, 0x42, 0x54, 0xA8, 0x5E, 0xC4]))
      (fun t => t.err == .invalidReference && t.errInfo == 1 && t.tbTokens == [tok 0 0 A, tok 2 1 B] &&
        t.crcOut == 0xC45EA854) = true := by decide +kernel

/-- V-CMP-5: only the bytes below the lengths belong to the sequences; V-CMP-2: the lengths differ. -/
theorem test_cmp :
    nextHas (exec .cmp { withIb [A, B] with ibLen := 1, ob := { cells := [(0, A), (1, C)] }, obLen := 1 })
      (fun t => t.eqFlag == 1) = true ∧
    nextHas (exec .cmp { withIb [A, B] with ob := { cells := [(0, A), (1, B), (2, C)] }, obLen := 3 })
      (fun t => t.eqFlag == 0 && t.status == .done) = true := by decide

/-! ## The step, the host, the sequencings -/

/-- A latched operation runs in the next step; a placed token too. -/
theorem test_placed_words_run :
    nextHas (step (State.reset.withFetchWord 8 5)) (fun t => t.fbLen == 4 && t.status == .done) = true ∧
    nextHas (step (State.reset.withFetchWord 40 0x4100000000))
      (fun t => t.obBytes == [A] && t.status == .busy && t.work.tix == 1) = true := by decide +kernel

/-- V-CMD-3: a CMD write clears an old error and starts; V-CMD-1: CMD <- 0 is ILLEGAL_COMMAND. -/
theorem test_command_write :
    nextHas (hostStep { State.reset with status := .error, err := .integrity } (.writeReg .cmd 1))
      (fun t => t.status == .busy && t.err == .none && t.work.opc == 1) = true ∧
    nextHas (hostStep State.reset (.writeReg .cmd 0))
      (fun t => t.status == .error && t.err.code == 7 && t.errInfo == 0) = true := by decide

/-- V-RST-3: after reset DESERIALIZE ends with TRUNCATED_FILE; the host's write, then two turns. -/
theorem test_agenda_run :
    nextHas (core.run 2 { State.reset with agenda := [.host (.writeReg .cmd 6)] })
      (fun t => t.status == .error && t.err.code == 1) = true := by decide

/-- R124's rows for one byte: one C_INIT, two C_BYTE, eight C_BIT, one C_FIN; with `opStart` before them
(log 1), 13 steps. -/
theorem test_micro_crc :
    nextHas (core.run 13 { withIb [A] with status := .busy, grain := .micro, work := { opc := 1 } })
      (fun t => t.crcOut == 0xD3D99E8B && t.status == .done) = true := by decide +kernel

/-- R81: a host access at the capacity faults, and a length above it is refused. -/
theorem test_host_limits :
    (match hostStep { State.reset with cfg := { ibCap := some 2 } } (.writeByte .ib 2 A) with
      | .fault (.bufferIndex .ib 2) => true
      | _ => false) = true ∧
    (match hostStep { State.reset with cfg := { ibCap := some 2 } } (.writeReg .ibLen 3) with
      | .refused (.lengthAboveCapacity .ib) => true
      | _ => false) = true := by decide

/-- U20: a write of STATUS is ignored. -/
theorem test_status_write_ignored :
    hostStep { State.reset with status := .error, err := .integrity } (.writeReg .status 3) =
      .next { State.reset with status := .error, err := .integrity } := rfl

/-! ## Witnesses: for each statement with hypotheses, states and operands that meet all of them, a clause at a
time and at the ends of its ranges -/

/-- IB with one byte `A`, running the operation with a code, nothing begun. -/
abbrev latched (c : BitVec 4) (g : Grain) : State :=
  { withIb [A] with status := .busy, grain := g, work := { opc := c } }

/-- A DECODE between two tokens, TIX given. -/
abbrev decoding (tix : Nat) : State :=
  { withTb [tok 0 0 A, tok 1 1 B] with
    status := .busy, grain := .instruction, seq := .dFetch, work := { opc := 4, tix := tix } }

/-- All capacities given. -/
abbrev caps (n : Nat) : Cfg := { ibCap := some n, tbCap := some n, obCap := some n, fbCap := some n }

/-- DecodeInvertsEncode: an operation, a LIT, and MATCH at the ends of its field ranges. -/
theorem witness_DecodeInvertsEncode :
    Instr.unpack.wellFormed = true ∧ (Instr.lit 255).wellFormed = true ∧
    (Instr.matchTok 65535 65535 255).wellFormed = true ∧ (Instr.matchTok 0 1 0).wellFormed = true := by decide

/-- EncodeInvertsDecode: a command, a LIT, a MATCH. -/
theorem witness_EncodeInvertsDecode :
    decodeCode (.command 9) = .ok .cmp ∧ decodeCode (.record [0, 0, 0, 0, 255]) = .ok (.lit 255) ∧
    decodeCode (.record [0, 0, 1, 0, 0]) = .ok (.matchTok 0 1 0) := by decide

/-- StepRunsTheDecodedInstruction, first clause: each grain that takes it, the first and the last code. -/
theorem witness_StepRunsTheDecodedInstruction_operation :
    (latched 1 .operation).turn = .core ∧ (latched 1 .operation).status = .busy ∧
    (latched 1 .operation).seq = .opStart ∧ decodeCommand (latched 1 .operation).work.opc = .ok .crc32 ∧
    (latched 9 .instruction).turn = .core ∧ (latched 9 .instruction).status = .busy ∧
    (latched 9 .instruction).seq = .opStart ∧ decodeCommand (latched 9 .instruction).work.opc = .ok .cmp ∧
    (latched 9 .instruction).grain = .instruction ∧ (latched 9 .instruction).work.opc ≠ 4 ∧
    (latched 9 .instruction).work.opc ≠ 8 := by decide

/-- StepRunsTheDecodedInstruction, the clauses of a token sequence: the last token, and the end. -/
theorem witness_StepRunsTheDecodedInstruction_token :
    (decoding 1).turn = .core ∧ (decoding 1).status = .busy ∧ (decoding 1).seq = .dFetch ∧
    (decoding 1).grain ≠ .micro ∧ (decoding 1).work.tix ≠ (decoding 1).tbLen ∧
    (decoding 2).turn = .core ∧ (decoding 2).status = .busy ∧ (decoding 2).seq = .dFetch ∧
    (decoding 2).grain ≠ .micro ∧ (decoding 2).work.tix = (decoding 2).tbLen := by decide

/-- PlacedWordRunsNext: both formats, the ends of their ranges. -/
theorem witness_PlacedWordRunsNext :
    decodeTableWord 8 1 = some .crc32 ∧ decodeTableWord 4 9 = some .cmp ∧
    decodeTableWord 40 0 = some (.lit 0) ∧
    decodeTableWord 40 (2 ^ 40 - 1) = some (.matchTok 65535 65535 255) := by decide

/-- StatusMovesOnlyAsListed: a step for each of its cases, in their order. -/
theorem witness_StatusMovesOnlyAsListed :
    nextHas (step State.reset) (fun t => t.status == .idle) = true ∧
    nextHas (step { State.reset with agenda := [.host (.writeReg .cmd 9)] })
      (fun t => t.status == .busy && t.work.opc == 9) = true ∧
    nextHas (step { State.reset with agenda := [.host (.writeReg .cmd 10)] })
      (fun t => t.status == .error && t.err == .illegalCommand) = true ∧
    nextHas (step (latched 9 .operation)) (fun t => t.status == .done) = true ∧
    nextHas (step (latched 6 .operation)) (fun t => t.status == .error && t.err == .truncatedFile) = true ∧
    nextHas (step { latched 1 .micro with agenda := [.host .reset] }) (fun t => t.status == .idle) = true := by
  decide

/-- ResetGivesTheResetState: after a reset in BUSY the next turn is the core's; the core's turn in IDLE after a
host move, in DONE and in ERROR. -/
theorem witness_ResetGivesTheResetState :
    nextHas (hostStep (latched 1 .micro) .reset) (fun t => t.turn == .core) = true ∧
    nextHas (hostStep State.reset (.writeReg .window 7))
      (fun t => t.status == .idle && t.turn == .core && nextHas (step t) (· == t.popTurn)) = true ∧
    ({ withIb [A] with status := .done } : State).status ≠ .busy ∧
    ({ withIb [A] with status := .done } : State).turn = .core ∧
    ({ withIb [A] with status := .error, agenda := [.core, .host .reset] } : State).status ≠ .busy ∧
    ({ withIb [A] with status := .error, agenda := [.core, .host .reset] } : State).turn = .core := by decide

/-- LegalCommandStartsTheOperation, IllegalCommandChangesNothingElse: after an error, the ends of the ranges. -/
theorem witness_CommandWrites :
    State.reset.status ≠ .busy ∧
    ({ State.reset with status := .error, err := .integrity } : State).status ≠ .busy ∧
    (1 ≤ 1 ∧ 1 ≤ 9) ∧ (1 ≤ 9 ∧ 9 ≤ 9) ∧ (0 = 0 ∨ 10 ≤ 0 ∧ 0 ≤ 15) ∧ (10 = 0 ∨ 10 ≤ 10 ∧ 10 ≤ 15) ∧
    (15 = 0 ∨ 10 ≤ 15 ∧ 15 ≤ 15) := by decide

/-- HostHasNoMoveWhileBusy: the state, a CMD write's ends, a move of each kind that does not exist. -/
theorem witness_HostHasNoMoveWhileBusy :
    (latched 1 .micro).status = .busy ∧ 0 < 16 ∧ 15 < 16 ∧
    HostAct.readReg .err ≠ .readReg .status ∧ (∀ v, HostAct.readReg .err ≠ .writeReg .cmd v) ∧
    HostAct.readReg .err ≠ .reset ∧ HostAct.writeByte .ib 0 A ≠ .readReg .status ∧
    (∀ v, HostAct.writeByte .ib 0 A ≠ .writeReg .cmd v) ∧ HostAct.writeByte .ib 0 A ≠ .reset := by
  refine ⟨rfl, by decide, by decide, by decide, ?_, by decide, by decide, ?_, by decide⟩ <;>
    (intro v h; cases h)

/-- HostReadsBackWhatItWrote, HostReadsDeliverTheRegister, HostAccessChangesOneLocation: the last value of a
register's width, the capacity as a length; the last location below a capacity, one location and another. -/
theorem witness_HostReadsBackWhatItWrote :
    ({ State.reset with cfg := caps 2 } : State).status ≠ .busy ∧ 65535 < 65536 ∧
    fits (some 3) 7 = true ∧ fits none 70000 = true ∧
    fits { caps 2 with aw := some 3, tw := some 2 }.aw 2 = true ∧
    fits { caps 2 with aw := some 3, tw := some 2 }.tw 2 = true ∧
    exceeds (caps 2).ibCap 2 = false ∧ exceeds (caps 2).tbCap 2 = false ∧
    exceeds (caps 2).obCap 2 = false ∧ exceeds (caps 2).fbCap 2 = false ∧
    full (caps 2).ibCap 1 = false ∧ full (caps 2).fbCap 1 = false ∧
    full (ByteSpace.ob.cap (caps 2)) 1 = false ∧ full (ByteSpace.ob.cap (caps 2)) 0 = false ∧
    full (caps 2).tbCap 1 = false ∧ full (caps 2).tbCap 0 = false ∧
    full (ByteSpace.ob.cap State.reset.cfg) 70000 = false := by decide

/-- HostAccessChangesOneLocation: a write of each register that answers a next state. -/
theorem witness_HostAccessChangesOneLocation :
    [(Reg.window, 65535), (.posIn, 9), (.ibLen, 2), (.tbLen, 2), (.obLen, 2), (.fbLen, 2)].all
      (fun p => nextHas (hostStep { State.reset with cfg := caps 2 } (.writeReg p.1 p.2)) fun _ => true) =
        true := by decide

/-- ReadOnlyRegistersIgnoreHostWrites: the first and the last of the list. -/
theorem witness_ReadOnlyRegistersIgnoreHostWrites :
    State.reset.status ≠ .busy ∧
    Reg.status ∈ [Reg.status, .err, .errInfo, .crcOut, .crcStored, .mfOff, .mfLen, .eq] ∧
    Reg.eq ∈ [Reg.status, .err, .errInfo, .crcOut, .crcStored, .mfOff, .mfLen, .eq] := by decide

/-- LengthsAboveCapacityAreRefused: one above each capacity, and the capacity at a width that just holds it. -/
theorem witness_LengthsAboveCapacityAreRefused :
    ({ State.reset with cfg := { caps 3 with aw := some 2, tw := some 2 } } : State).status ≠ .busy ∧
    exceeds (caps 3).ibCap 4 = true ∧ exceeds (caps 3).tbCap 4 = true ∧ exceeds (caps 3).obCap 4 = true ∧
    exceeds (caps 3).fbCap 4 = true ∧ (caps 3).ibCap = some 3 ∧ (caps 3).tbCap = some 3 ∧
    (caps 3).obCap = some 3 ∧ (caps 3).fbCap = some 3 ∧ fits (some 2) 3 = true := by decide

/-- Crc32LeavesTheChecksum: its last two clauses. -/
theorem witness_Crc32LeavesTheChecksum :
    State.reset.ibLen = 0 ∧ (withIb [A]).ibLen = 1 ∧ (withIb [A]).ibAt 0 = 0x41 := by decide

/-- FindNamesTheNearestLongestMatch: candidates at both ends of the window, one of them with a match; a
result of length 0 and one above 0. -/
theorem witness_FindNamesTheNearestLongestMatch :
    Candidate 2 2 0 ∧ Candidate 2 2 1 ∧ IsMatchLength [A, B, A, B] 2 0 2 ∧ IsMatchLength [A, B, A, B] 2 1 0 ∧
    nextHas (exec .find { withIb [A, B, A, B] with posIn := 2 }) (fun t => t.mfLen == 2 && t.mfOff == 2) =
      true ∧
    nextHas (exec .find { withIb [A, B, A, B] with posIn := 1 }) (fun t => t.mfLen == 0 && t.mfOff == 0) =
      true := by
  refine ⟨⟨by decide, by decide⟩, ⟨by decide, by decide⟩, ⟨⟨by decide, by decide, ?_⟩, fun dl h => h.1⟩,
    ⟨⟨by decide, by decide, ?_⟩, ?_⟩, by decide, by decide⟩
  · intro j hj
    match j, hj with
    | 0, _ => rfl
    | 1, _ => rfl
  · intro j hj
    exact absurd hj (Nat.not_lt_zero j)
  · intro dl h
    match dl, h with
    | 0, _ => exact Nat.le_refl 0
    | dl + 1, h => exact absurd (h.2.2 0 (Nat.succ_pos dl)) (by decide)

/-- MatchFitsWindowHistoryAndBuffer: no match, and one. -/
theorem witness_MatchFitsWindowHistoryAndBuffer :
    (findLongestMatch [A, B] 1 65535).2 = 0 ∧ (findLongestMatch [A, A] 1 1).2 > 0 := by decide

/-- EncodeFollowsThePolicy, EncodeCompletesWhenTokensFit, EncodingCoversTheInput: an encoding, a capacity
it just fits and one it does not. -/
theorem witness_EncodeFollowsThePolicy :
    EncodesFrom [A, A, B] (State.reset.window).toNat 0 [tok 0 0 A, tok 1 1 B] ∧
    [tok 0 0 A, tok 1 1 B].head? = some (tok 0 0 A) ∧ tok 1 1 B ∈ [tok 0 0 A, tok 1 1 B] ∧
    exceeds (caps 2).tbCap 2 = false ∧ exceeds (caps 1).tbCap 2 = true ∧
    exceeds ({ withIb [A] with cfg := caps 1 } : State).cfg.tbCap (withIb [A]).ibLen = false := by
  refine ⟨?_, rfl, by decide, by decide, by decide, by decide⟩
  simp only [EncodesFrom]
  decide

/-- ZeroWindowEncodesLiterals. -/
theorem witness_ZeroWindowEncodesLiterals :
    ({ withIb [A, A] with window := 0 } : State).window = 0 ∧
    exceeds ({ withIb [A, A] with window := 0, cfg := caps 2 } : State).cfg.tbCap 2 = false := by decide

/-- Stage 1 of UNPACK at its second token: the tokens written, OB holding one byte, a capacity of OB. -/
abbrev unpacking (cap : Option Nat) : State :=
  { decoding 1 with
    ob := { cells := [(0, A)] }, obLen := 1, cfg := { obCap := cap }
    work := { opc := 8, tix := 1, phase := 1 } }

/-- The tokens of that state have been written. -/
theorem unpacking_tokensWritten (cap : Option Nat) : (unpacking cap).TokensWritten := by
  intro k hk
  match k, hk with
  | 0, _ => rfl
  | 1, _ => rfl

/-- LitAppendsItsSymbol: one byte of room, and none; OPC 0, and stage 1 of UNPACK. -/
theorem witness_LitAppendsItsSymbol :
    full ({ withOb [A] with cfg := caps 2 } : State).cfg.obCap (withOb [A]).obLen = false ∧
    full ({ withOb [A] with cfg := caps 1 } : State).cfg.obCap (withOb [A]).obLen = true ∧
    exceeds ({ withOb [A] with cfg := caps 1 } : State).cfg.obCap (withOb [A]).obLen = false ∧
    ((withOb [A]).work.opc = 8 → (withOb [A]).TokensWritten) ∧
    full (unpacking (some 1)).cfg.obCap (unpacking (some 1)).obLen = true ∧
    exceeds (unpacking (some 1)).cfg.obCap (unpacking (some 1)).obLen = false ∧
    (unpacking (some 1)).work.opc = 8 ∧ (unpacking (some 1)).TokensWritten :=
  ⟨by decide, by decide, by decide, fun h => absurd h (by decide), by decide, by decide, rfl,
    unpacking_tokensWritten _⟩

/-- MatchCopiesThenAppendsItsSymbol: the ends of its token words; offset 0 and one above the output; the
farthest offset with exactly the room it takes, overlapping; one byte too little. -/
theorem witness_MatchCopiesThenAppendsItsSymbol :
    ((0 : Half) ≠ 0 ∨ (1 : Half) ≠ 0) ∧ ((65535 : Half) ≠ 0 ∨ (0 : Half) ≠ 0) ∧
    (Instr.matchTok 0 1 0).wellFormed = true ∧ (Instr.matchTok 3 0 0).wellFormed = true ∧
    ((0 : Half) = 0 ∨ (withOb [A, B]).obLen < (0 : Half).toNat) ∧
    ((3 : Half) = 0 ∨ (withOb [A, B]).obLen < (3 : Half).toNat) ∧
    (2 : Half) ≠ 0 ∧ (2 : Half).toNat ≤ (withOb [A, B]).obLen ∧
    exceeds ({ withOb [A, B] with cfg := caps 6 } : State).cfg.obCap
      ((withOb [A, B]).obLen + (3 : Half).toNat + 1) = false ∧
    exceeds ({ withOb [A, B] with cfg := caps 5 } : State).cfg.obCap
      ((withOb [A, B]).obLen + (3 : Half).toNat + 1) = true ∧
    exceeds ({ withOb [A, B] with cfg := caps 5 } : State).cfg.obCap (withOb [A, B]).obLen = false ∧
    (withOb [A, B]).work.opc ≠ 8 := by decide

/-- MatchCopiesThenAppendsItsSymbol in stage 1 of UNPACK: an offset one above the output; the farthest offset,
OB full. -/
theorem witness_MatchCopiesThenAppendsItsSymbol_unpack :
    (Instr.matchTok 2 1 B).wellFormed = true ∧ (unpacking none).obLen < (2 : Half).toNat ∧
    (unpacking none).work.opc = 8 ∧ (unpacking none).TokensWritten ∧
    (1 : Half) ≠ 0 ∧ (1 : Half).toNat ≤ (unpacking (some 1)).obLen ∧
    exceeds (unpacking (some 1)).cfg.obCap ((unpacking (some 1)).obLen + (1 : Half).toNat + 1) = true ∧
    exceeds (unpacking (some 1)).cfg.obCap (unpacking (some 1)).obLen = false ∧
    (unpacking (some 1)).work.opc = 8 ∧ (unpacking (some 1)).TokensWritten :=
  ⟨by decide, by decide, rfl, unpacking_tokensWritten _, by decide, by decide, by decide, by decide, rfl,
    unpacking_tokensWritten _⟩

/-- ZeroLengthMatchActsAsLit: both clauses at their boundary. -/
theorem witness_ZeroLengthMatchActsAsLit :
    (1 : Half) ≠ 0 ∧ (1 : Half).toNat ≤ (withOb [A]).obLen ∧ (2 : Half) ≠ 0 ∧
    (withOb [A]).obLen < (2 : Half).toNat := by decide

/-- DecodeReplaysTheTokens: an overlapping copy that just fits, and does not. -/
theorem witness_DecodeReplaysTheTokens :
    replay [] (withTb [tok 0 0 A, tok 1 2 B]).tbTokens = some [A, A, A, B] ∧
    exceeds (caps 4).obCap [A, A, A, B].length = false ∧ exceeds (caps 3).obCap [A, A, A, B].length = true := by
  decide

/-- DecodeReportsTheFirstBadToken: the first token bad, and a later one. -/
theorem witness_DecodeReportsTheFirstBadToken :
    (withTb [tok 0 1 A]).tbTokens = [] ++ tok 0 1 A :: [] ∧ replay [] [] = some [] ∧
    exceeds (caps 0).obCap ([] : List Byte).length = false ∧ replayToken [] (tok 0 1 A) = none ∧
    (withTb [tok 0 0 A, tok 2 0 B, tok 0 0 C]).tbTokens = [tok 0 0 A] ++ tok 2 0 B :: [tok 0 0 C] ∧
    replay [] [tok 0 0 A] = some [A] ∧ exceeds (caps 1).obCap [A].length = false ∧
    replayToken [A] (tok 2 0 B) = none := by decide

/-- EncodeThenDecodeRestoresTheInput, PackThenUnpackRestoresTheInput, PackIsEncodeThenSerialize: capacities
that are just enough. -/
theorem witness_RoundTrips :
    exceeds ({ withIb [A, B] with cfg := { caps 2 with fbCap := some 14 } } : State).cfg.tbCap
      (withIb [A, B]).ibLen = false ∧
    exceeds ({ withIb [A, B] with cfg := { caps 2 with fbCap := some 14 } } : State).cfg.obCap
      (withIb [A, B]).ibLen = false ∧
    exceeds ({ withIb [A, B] with cfg := { caps 2 with fbCap := some 14 } } : State).cfg.fbCap
      (5 * (withIb [A, B]).ibLen + 4) = false := by decide

/-- SerializeWritesTheFrame, SerializeThenDeserializeRestoresTheTokens, AnyCorruptByteRaisesIntegrity: a
capacity that just fits and one that does not; a record; the first byte, the last byte of the body and the
last of the trailer, each changed. -/
theorem witness_Frames :
    exceeds (caps 9).fbCap (5 * (withTb [tok 0 0 A]).tbLen + 4) = false ∧
    exceeds (caps 8).fbCap (5 * (withTb [tok 0 0 A]).tbLen + 4) = true ∧
    0 < (withTb [tok 0 0 A]).tbLen ∧ exceeds (caps 1).tbCap (withTb [tok 0 0 A]).tbLen = false ∧
    0 < 5 * 1 + 4 ∧ 4 < 5 * 1 + 4 ∧ 8 < 5 * 1 + 4 ∧
    nextHas (exec .serialize (withTb [tok 0 0 A]))
      (fun t => decide ((1 : Byte) ≠ t.fbAt 0) && decide ((0 : Byte) ≠ t.fbAt 4) &&
        decide ((0 : Byte) ≠ t.fbAt 8)) = true := by decide +kernel

/-- DeserializeChecksInOrder, ChecksumsAreRecordedOnceCheckOnePasses: three bytes; four bytes with each check failing in turn, and all passing. -/
theorem witness_DeserializeChecksInOrder :
    (withFb [0, 0, 0]).fbLen < 4 ∧ 4 ≤ (withFb [0, 0, 0, 0]).fbLen ∧
    (checksum ((List.range ((withFb [0, 0, 0, 1]).fbLen - 4)).map (withFb [0, 0, 0, 1]).fbAt)).toNat ≠
      (withFb [0, 0, 0, 1]).fbRead 0 4 ∧
    (checksum ((List.range 1).map (withFb [0x41, 0x8B, 0x9E, 0xD9, 0xD3]).fbAt)).toNat =
      (withFb [0x41, 0x8B, 0x9E, 0xD9, 0xD3]).fbRead 1 4 ∧ (5 - 4) % 5 ≠ 0 ∧
    (checksum ((List.range 5).map (withFb [0, 0, 0, 0, 0x41, 0x1B, 0x86, 0xF9, 0xC7]).fbAt)).toNat =
      (withFb [0, 0, 0, 0, 0x41, 0x1B, 0x86, 0xF9, 0xC7]).fbRead 5 4 ∧ (9 - 4) % 5 = 0 ∧
    exceeds (caps 0).tbCap ((9 - 4) / 5) = true ∧ exceeds (caps 1).tbCap ((9 - 4) / 5) = false ∧
    0 < (9 - 4) / 5 := by decide +kernel

/-- FramesAreInjective, ChecksumDetectsAnyChangeOfOneByte: equal frames and equal checksums exist. -/
theorem witness_Injectivity :
    frameBytes [tok 0 0 A] = frameBytes [tok 0 0 A] ∧ checksum ([A] ++ B :: [C]) = checksum ([A] ++ B :: [C]) :=
  ⟨rfl, rfl⟩

/-- PackIsEncodeThenSerialize: ENCODE failing, SERIALIZE failing after it, both succeeding. -/
theorem witness_PackIsEncodeThenSerialize :
    nextHas (exec .encode { withIb [A] with cfg := caps 0 }) (fun t => t.status == .error) = true ∧
    nextHas (exec .encode { withIb [A] with cfg := caps 1 })
      (fun t => t.status == .done && nextHas (exec .serialize t) (fun u => u.status == .error)) = true ∧
    nextHas (exec .encode (withIb [A]))
      (fun t => t.status == .done && nextHas (exec .serialize t) (fun u => u.status == .done)) = true := by
  decide +kernel

/-- UnpackIsDeserializeThenDecode: DESERIALIZE failing at its first check and at a later one (an error that is
neither TRUNCATED_FILE nor CAPACITY); the frame of
`A`, whose DECODE succeeds, and fails. -/
theorem witness_UnpackIsDeserializeThenDecode :
    deserialize none (withFb [0, 0, 0, 0, 0x41, 0x1B, 0x86, 0xF9, 0xC7]).fbBytes =
      .tokens [tok 0 0 A] 0xC7F9861B 0xC7F9861B ∧
    replay [] [tok 0 0 A] = some [A] ∧ exceeds (caps 1).obCap [A].length = false ∧
    nextHas (exec .deserialize (withFb [0, 0, 0])) (fun t => t.status == .error && t.err == .truncatedFile) =
      true ∧
    nextHas (exec .deserialize (withFb [0, 0, 0, 1])) (fun t => t.status == .error && t.err == .integrity) =
      true ∧
    nextHas (exec .deserialize (withFb [0, 0, 0, 0, 0x41, 0x1B, 0x86, 0xF9, 0xC7]))
      (fun t => t.status == .done && nextHas (exec .decode t) (fun u => u.status == .done)) = true ∧
    nextHas (exec .deserialize
        { withFb [0, 0, 0, 0, 0x41, 0x1B, 0x86, 0xF9, 0xC7] with cfg := { obCap := some 0 } })
      (fun t => t.status == .done && nextHas (exec .decode t) (fun u => u.status == .error)) = true := by
  decide +kernel

/-- OperationsKeepWhatTheyDoNotDeclare: an operation that ends DONE and one that ends ERROR. -/
theorem witness_OperationsKeepWhatTheyDoNotDeclare :
    decodeCommand 8 = .ok .unpack ∧
    nextHas (exec .unpack (withFb [0, 0, 0, 0])) (fun t => t.status == .done) = true ∧
    nextHas (exec .unpack (withFb [0, 0, 0])) (fun t => t.status == .error) = true := by decide +kernel

/-- OperationsDependOnDeclaredInputsOnly: two states that differ in WINDOW, OB, EQ, the elements of IB at
its length and beyond, and the working registers, and agree on CRC32's input. -/
theorem witness_OperationsDependOnDeclaredInputsOnly :
    InputsAgree 1 (withIb [A])
      { withIb [A, B] with
        ibLen := 1, window := 7, ob := { cells := [(0, C)] }, eqFlag := 1, work := { crc := 5, opc := 3 } } ∧
    decodeCommand 1 = .ok .crc32 ∧ nextHas (exec .crc32 (withIb [A])) (fun t => t.status == .done) = true := by
  refine ⟨⟨rfl, ?_⟩, rfl, by decide +kernel⟩
  change State.ibBytes _ = State.ibBytes _
  decide

/-- The other cases of InputsAgree: two codes with more than one input. -/
theorem witness_InputsAgree :
    InputsAgree 2 (withIb [A, A]) { withIb [A, A] with crcOut := 1, tbLen := 3 } ∧
    InputsAgree 9 (withIb [A]) { withIb [A] with window := 0, fbLen := 3 } := by
  refine ⟨⟨rfl, ?_⟩, ⟨rfl, ?_⟩⟩
  · exact ⟨rfl, rfl, rfl⟩
  · exact ⟨rfl, rfl⟩

/-- EveryStepKeepsTheInvariant: a state inside the serializer at the limit of FB, and its step. -/
theorem witness_EveryStepKeepsTheInvariant :
    ({ withTb [tok 0 0 A] with
        status := .busy, grain := .micro, seq := .sRec, cfg := caps 9,
        work := { opc := 5, bodyLen := 5 } } : State).Inv ∧
    nextHas (step
      { withTb [tok 0 0 A] with
        status := .busy, grain := .micro, seq := .sRec, cfg := caps 9, work := { opc := 5, bodyLen := 5 } })
      (fun t => t.work.rix == 1 && t.seq == .sRec) = true := by
  refine ⟨⟨by unfold State.MemoryWf; decide, rfl,
    by unfold State.ErrorRegsLegal; decide, by decide, ?_⟩, by decide⟩
  change exceeds _ _ = false
  decide

/-- LengthsStayLegalUnlessAnOperationFails: every length at its capacity before a step of the serializer that
writes FB_LEN to the capacity, and before the host's move, and before the step that ends PACK in ERROR. -/
theorem witness_LengthsStayLegalUnlessAnOperationFails :
    ({ withTb [tok 0 0 A] with
        status := .busy, grain := .micro, seq := .sTrl, cfg := { caps 1 with fbCap := some 9 }
        ibLen := 1, obLen := 1, fbLen := 9, work := { opc := 5, bodyLen := 5 } } : State).SeqLegal ∧
    exceeds (caps 1).ibCap 1 = false ∧ exceeds (caps 1).tbCap 1 = false ∧ exceeds (caps 1).obCap 1 = false ∧
    exceeds (some 9) 9 = false ∧
    nextHas (step
      { withTb [tok 0 0 A] with
        status := .busy, grain := .micro, seq := .sTrl, cfg := { caps 1 with fbCap := some 9 }
        ibLen := 1, obLen := 1, fbLen := 9, work := { opc := 5, bodyLen := 5 } }) (fun t => t.fbLen == 9) = true ∧
    ({ State.reset with cfg := caps 1, agenda := [.host (.writeReg .tbLen 1)] } : State).SeqLegal ∧
    nextHas (step { State.reset with cfg := caps 1, agenda := [.host (.writeReg .tbLen 1)] })
      (fun t => t.tbLen == 1) = true ∧
    ({ latched 7 .operation with cfg := caps 1 } : State).SeqLegal ∧
    nextHas (step { latched 7 .operation with cfg := caps 1 })
      (fun t => t.status == .error && t.err == .capacity) = true :=
  ⟨by change exceeds _ _ = false; decide, by decide, by decide, by decide, by decide, by decide, trivial,
    by decide, trivial, by decide⟩

/-- UnpackDecodesWrittenTokens: stage 1 of UNPACK at its second token, and its step; the records being read
back, one of two, and the step that reads the second. -/
theorem witness_UnpackDecodesWrittenTokens :
    (unpacking none).StageLegal ∧ (unpacking none).status = .busy ∧ (unpacking none).seq = .dFetch ∧
    (unpacking none).work.opc = 8 ∧
    nextHas (step (unpacking none)) (fun t => t.obLen == 3 && t.seq == .dFetch) = true ∧
    ({ withFb (bodyBytes [tok 0 0 A, tok 0 0 B]) with
        status := .busy, grain := .micro, seq := .xRec, tb := { cells := [(0, tok 0 0 A)] }
        work := { opc := 8, rix := 1, bodyLen := 10 } } : State).StageLegal ∧
    nextHas (step
      { withFb (bodyBytes [tok 0 0 A, tok 0 0 B]) with
        status := .busy, grain := .micro, seq := .xRec, tb := { cells := [(0, tok 0 0 A)] }
        work := { opc := 8, rix := 1, bodyLen := 10 } })
      (fun t => t.work.rix == 2 && t.tbAt 1 == tok 0 0 B) = true := by
  refine ⟨fun _ _ => unpacking_tokensWritten _, rfl, rfl, rfl, by decide, ?_, by decide⟩
  intro _ k hk
  match k, hk with
  | 0, _ => rfl

/-- The Sequenced… statements: a latched operation at each grain, with canonical memories. -/
theorem witness_Sequenced (c : BitVec 4) (g : Grain) :
    (latched c g).Latched c ∧ (latched c g).MemoryWf ∧ (latched c g).grain = g :=
  ⟨⟨rfl, rfl, rfl, rfl⟩, ⟨List.pairwise_singleton _ _, .nil, .nil, .nil⟩, rfl⟩

/-- SequencedDecodeMeetsTheOperation: a DECODE that ends DONE, of two tokens. -/
theorem witness_SequencedDecode :
    nextHas (exec .decode { decoding 0 with seq := .opStart }) (fun t => t.status == .done) = true ∧
    ({ decoding 0 with seq := .opStart } : State).grain = .instruction ∧ decodeCommand 4 = .ok .decode := by
  decide

end Sys2Proof.Tests
end

/-! PROOFS. The statements of the scope: every instruction answers a next state (R6, R251), and an operation's
result is a function of its declared inputs (R8). First what each instruction answers, one equation for each
branch of its definition. -/

namespace Sys2Proof.Machine

/-! ## What each instruction answers -/

section Equations

variable {s : State}

theorem exec_lit_of_error {symbol : Byte} {e : ErrKind}
    (h : litBytes s.cfg.obCap s.obBytes symbol = .error e) : exec (.lit symbol) s = .next (s.raiseToken e) := by
  simp only [exec, execLit, h]

theorem exec_lit_of_ok {symbol : Byte} {out : List Byte} (h : litBytes s.cfg.obCap s.obBytes symbol = .ok out) :
    exec (.lit symbol) s = .next (s.afterToken out { s.work with tOff := 0, tLen := 0, tSym := symbol }) := by
  simp only [exec, execLit, h]

theorem exec_matchTok_of_error {offset length : Half} {symbol : Byte} {e : ErrKind}
    (h : matchBytes s.cfg.obCap s.obBytes offset length symbol = .error e) :
    exec (.matchTok offset length symbol) s = .next (s.raiseToken e) := by
  simp only [exec, execMatchTok, h]

theorem exec_matchTok_of_ok {offset length : Half} {symbol : Byte} {out : List Byte}
    (h : matchBytes s.cfg.obCap s.obBytes offset length symbol = .ok out) :
    exec (.matchTok offset length symbol) s =
      .next (s.afterToken out
        { s.work with
          tOff := offset
          tLen := length
          tSym := symbol
          start := s.obLen - offset.toNat
          cpy := length }) := by
  simp only [exec, execMatchTok, h]

theorem exec_crc32 (s : State) :
    exec .crc32 s = .next (({ s with crcOut := checksum s.ibBytes }).complete 1) := rfl

theorem exec_find (s : State) :
    exec .find s =
      .next (({ s with
        mfOff := BitVec.ofNat 16 (findLongestMatch s.ibBytes s.posIn s.window.toNat).1
        mfLen := BitVec.ofNat 16 (findLongestMatch s.ibBytes s.posIn s.window.toNat).2 }).complete 2) := rfl

theorem exec_encode_of_error {e : ErrKind} (h : encodeTokens s.cfg.tbCap s.ibBytes s.window.toNat = .error e) :
    exec .encode s = .next (s.raise 3 0 e 0) := by
  simp only [exec, execEncode, h]

theorem exec_encode_of_ok {ts : List Token} (h : encodeTokens s.cfg.tbCap s.ibBytes s.window.toNat = .ok ts) :
    exec .encode s = .next ((s.putTokens ts).complete 3) := by
  simp only [exec, execEncode, h]

theorem exec_decode_of_error {e : ErrKind} {k : Nat} (h : decodeTokens s.cfg.obCap s.tbTokens = .error (e, k)) :
    exec .decode s = .next (s.raise 4 0 e k) := by
  simp only [exec, execDecode, h]

theorem exec_decode_of_ok {bs : List Byte} (h : decodeTokens s.cfg.obCap s.tbTokens = .ok bs) :
    exec .decode s = .next ((s.putOutput bs).complete 4) := by
  simp only [exec, execDecode, h]

theorem exec_serialize_of_exceeds (h : exceeds s.cfg.fbCap (5 * s.tbTokens.length + 4) = true) :
    exec .serialize s = .next (s.raise 5 0 .capacity 0) := by
  simp [exec, execSerialize, State.serializeFrom, h]

theorem exec_serialize_of_fits (h : exceeds s.cfg.fbCap (5 * s.tbTokens.length + 4) = false) :
    exec .serialize s =
      .next (({ s.putFrame (frameBytes s.tbTokens) with
        crcOut := checksum (bodyBytes s.tbTokens) }).complete 5) := by
  simp [exec, execSerialize, State.serializeFrom, h]

theorem exec_deserialize_of_truncated (h : deserialize s.cfg.tbCap s.fbBytes = .truncated) :
    exec .deserialize s = .next (s.raise 6 0 .truncatedFile 0) := by
  simp only [exec, execDeserialize, h]

theorem exec_deserialize_of_failed {e : ErrKind} {computed stored : Word32}
    (h : deserialize s.cfg.tbCap s.fbBytes = .failed e computed stored) :
    exec .deserialize s = .next ((s.putSums computed stored).raise 6 0 e 0) := by
  simp only [exec, execDeserialize, h]

theorem exec_deserialize_of_tokens {ts : List Token} {computed stored : Word32}
    (h : deserialize s.cfg.tbCap s.fbBytes = .tokens ts computed stored) :
    exec .deserialize s = .next (((s.putSums computed stored).putTokens ts).complete 6) := by
  simp only [exec, execDeserialize, h]

theorem exec_pack_of_error {e : ErrKind} (h : encodeTokens s.cfg.tbCap s.ibBytes s.window.toNat = .error e) :
    exec .pack s = .next (s.raise 7 0 e 0) := by
  simp only [exec, execPack, h]

theorem exec_pack_of_exceeds {ts : List Token} (h : encodeTokens s.cfg.tbCap s.ibBytes s.window.toNat = .ok ts)
    (hf : exceeds s.cfg.fbCap (5 * ts.length + 4) = true) :
    exec .pack s = .next ((s.putTokens ts).raise 7 1 .capacity 0) := by
  simp [exec, execPack, State.serializeFrom, h, hf]

theorem exec_pack_of_fits {ts : List Token} (h : encodeTokens s.cfg.tbCap s.ibBytes s.window.toNat = .ok ts)
    (hf : exceeds s.cfg.fbCap (5 * ts.length + 4) = false) :
    exec .pack s =
      .next (({ (s.putTokens ts).putFrame (frameBytes ts) with
        crcOut := checksum (bodyBytes ts) }).complete 7) := by
  simp [exec, execPack, State.serializeFrom, h, hf]

theorem exec_unpack_of_truncated (h : deserialize s.cfg.tbCap s.fbBytes = .truncated) :
    exec .unpack s = .next (s.raise 8 0 .truncatedFile 0) := by
  simp only [exec, execUnpack, State.unpackStage0, h]

theorem exec_unpack_of_failed {e : ErrKind} {computed stored : Word32}
    (h : deserialize s.cfg.tbCap s.fbBytes = .failed e computed stored) :
    exec .unpack s = .next ((s.putSums computed stored).raise 8 0 e 0) := by
  simp only [exec, execUnpack, State.unpackStage0, h]

theorem exec_unpack_of_decode_error {ts : List Token} {computed stored : Word32} {e : ErrKind} {k : Nat}
    (h : deserialize s.cfg.tbCap s.fbBytes = .tokens ts computed stored)
    (hd : decodeTokens s.cfg.obCap ts = .error (e, k)) :
    exec .unpack s = .next (((s.putSums computed stored).putTokens ts).raise 8 1 e k) := by
  simp [exec, execUnpack, State.unpackStage0, h, hd]

theorem exec_unpack_of_decode_ok {ts : List Token} {computed stored : Word32} {bs : List Byte}
    (h : deserialize s.cfg.tbCap s.fbBytes = .tokens ts computed stored)
    (hd : decodeTokens s.cfg.obCap ts = .ok bs) :
    exec .unpack s = .next ((((s.putSums computed stored).putTokens ts).putOutput bs).complete 8) := by
  simp [exec, execUnpack, State.unpackStage0, h, hd]

theorem exec_cmp (s : State) :
    exec .cmp s = .next (({ s with eqFlag := equalityFlag s.ibBytes s.obBytes }).complete 9) := rfl

end Equations

/-! ## Every instruction answers a next state -/

/-- Settles O44: each branch of each instruction is a next state. -/
theorem everyInstructionAnswersANextState : Obligations.EveryInstructionAnswersANextState := by
  unfold Obligations.EveryInstructionAnswersANextState
  intro i s
  cases i with
  | lit symbol =>
    cases h : litBytes s.cfg.obCap s.obBytes symbol with
    | error e => exact ⟨_, exec_lit_of_error h⟩
    | ok out => exact ⟨_, exec_lit_of_ok h⟩
  | matchTok offset length symbol =>
    cases h : matchBytes s.cfg.obCap s.obBytes offset length symbol with
    | error e => exact ⟨_, exec_matchTok_of_error h⟩
    | ok out => exact ⟨_, exec_matchTok_of_ok h⟩
  | crc32 => exact ⟨_, exec_crc32 s⟩
  | find => exact ⟨_, exec_find s⟩
  | encode =>
    cases h : encodeTokens s.cfg.tbCap s.ibBytes s.window.toNat with
    | error e => exact ⟨_, exec_encode_of_error h⟩
    | ok ts => exact ⟨_, exec_encode_of_ok h⟩
  | decode =>
    cases h : decodeTokens s.cfg.obCap s.tbTokens with
    | error ek => exact ⟨_, exec_decode_of_error h⟩
    | ok bs => exact ⟨_, exec_decode_of_ok h⟩
  | serialize =>
    cases h : exceeds s.cfg.fbCap (5 * s.tbTokens.length + 4) with
    | true => exact ⟨_, exec_serialize_of_exceeds h⟩
    | false => exact ⟨_, exec_serialize_of_fits h⟩
  | deserialize =>
    cases h : deserialize s.cfg.tbCap s.fbBytes with
    | truncated => exact ⟨_, exec_deserialize_of_truncated h⟩
    | failed e computed stored => exact ⟨_, exec_deserialize_of_failed h⟩
    | tokens ts computed stored => exact ⟨_, exec_deserialize_of_tokens h⟩
  | pack =>
    cases h : encodeTokens s.cfg.tbCap s.ibBytes s.window.toNat with
    | error e => exact ⟨_, exec_pack_of_error h⟩
    | ok ts =>
      cases hf : exceeds s.cfg.fbCap (5 * ts.length + 4) with
      | true => exact ⟨_, exec_pack_of_exceeds h hf⟩
      | false => exact ⟨_, exec_pack_of_fits h hf⟩
  | unpack =>
    cases h : deserialize s.cfg.tbCap s.fbBytes with
    | truncated => exact ⟨_, exec_unpack_of_truncated h⟩
    | failed e computed stored => exact ⟨_, exec_unpack_of_failed h⟩
    | tokens ts computed stored =>
      cases hd : decodeTokens s.cfg.obCap ts with
      | error ek => exact ⟨_, exec_unpack_of_decode_error h hd⟩
      | ok bs => exact ⟨_, exec_unpack_of_decode_ok h hd⟩
  | cmp => exact ⟨_, exec_cmp s⟩

/-! ## The sequence a completed operation leaves in a buffer it filled -/

/-- Completing an operation leaves a sequence that was stored whole in TB, whether it seals TB or not. -/
theorem tbTokens_complete_of_put {s : State} {b : Buf Token} {ts : List Token} (hb : s.tb = b.put ts)
    (hl : s.tbLen = ts.length) (c : BitVec 4) : (s.complete c).tbTokens = ts := by
  unfold State.tbTokens State.tbAt
  rw [State.complete_tb, State.complete_tbLen, hb, hl]
  split
  · exact Buf.map_read_sealAt_put _ b ts _
  · exact Buf.map_read_put _ b ts

theorem obBytes_complete_of_put {s : State} {b : Buf Byte} {bs : List Byte} (hb : s.ob = b.put bs)
    (hl : s.obLen = bs.length) (c : BitVec 4) : (s.complete c).obBytes = bs := by
  unfold State.obBytes State.obAt
  rw [State.complete_ob, State.complete_obLen, hb, hl]
  split
  · exact Buf.map_read_sealAt_put _ b bs _
  · exact Buf.map_read_put _ b bs

theorem fbBytes_complete_of_put {s : State} {b : Buf Byte} {bs : List Byte} (hb : s.fb = b.put bs)
    (hl : s.fbLen = bs.length) (c : BitVec 4) : (s.complete c).fbBytes = bs := by
  unfold State.fbBytes State.fbAt
  rw [State.complete_fb, State.complete_fbLen, hb, hl]
  split
  · exact Buf.map_read_sealAt_put _ b bs _
  · exact Buf.map_read_put _ b bs

/-! ## Two runs of an operation (R8) -/

/-- Two states in which the operation with a code has ended look alike: the same end, and after DONE the same
declared outputs. -/
def SameEnd (c : BitVec 4) (t t' : State) : Prop :=
  t.status = t'.status ∧ t.err = t'.err ∧ t.errInfo = t'.errInfo ∧
    (t.status = .done → ∀ o ∈ outputs c, o.SameValue t t')

/-- Errors of one kind and information look alike whatever the states they were raised in. -/
theorem raise_sameEnd (c : BitVec 4) (s s' : State) (p : BitVec 1) (e : ErrKind) (k : Nat) :
    SameEnd c (s.raise c p e k) (s'.raise c p e k) :=
  ⟨rfl, rfl, rfl, fun done => nomatch done⟩

/-- Completed operations look alike when their declared outputs do. -/
theorem complete_sameEnd {c : BitVec 4} {s s' : State}
    (h : ∀ o ∈ outputs c, o.SameValue (s.complete c) (s'.complete c)) :
    SameEnd c (s.complete c) (s'.complete c) :=
  ⟨rfl, rfl, rfl, fun _ => h⟩

/-- The answers of two runs are next states that look alike. -/
def SameAnswer (c : BitVec 4) (r r' : Result) : Prop :=
  ∃ t t', r = .next t ∧ r' = .next t' ∧ SameEnd c t t'

theorem sameValue_tb_of_put {c : BitVec 4} {s s' : State} {b b' : Buf Token} {ts : List Token}
    (hb : s.tb = b.put ts) (hl : s.tbLen = ts.length) (hb' : s'.tb = b'.put ts) (hl' : s'.tbLen = ts.length) :
    Output.tb.SameValue (s.complete c) (s'.complete c) :=
  (tbTokens_complete_of_put hb hl c).trans (tbTokens_complete_of_put hb' hl' c).symm

theorem sameValue_ob_of_put {c : BitVec 4} {s s' : State} {b b' : Buf Byte} {bs : List Byte}
    (hb : s.ob = b.put bs) (hl : s.obLen = bs.length) (hb' : s'.ob = b'.put bs) (hl' : s'.obLen = bs.length) :
    Output.ob.SameValue (s.complete c) (s'.complete c) :=
  (obBytes_complete_of_put hb hl c).trans (obBytes_complete_of_put hb' hl' c).symm

theorem sameValue_fb_of_put {c : BitVec 4} {s s' : State} {b b' : Buf Byte} {bs : List Byte}
    (hb : s.fb = b.put bs) (hl : s.fbLen = bs.length) (hb' : s'.fb = b'.put bs) (hl' : s'.fbLen = bs.length) :
    Output.fb.SameValue (s.complete c) (s'.complete c) :=
  (fbBytes_complete_of_put hb hl c).trans (fbBytes_complete_of_put hb' hl' c).symm

/-- CRC32 reads the bytes of IB. -/
theorem exec_crc32_sameAnswer {s s' : State} (hib : s.ibBytes = s'.ibBytes) :
    SameAnswer 1 (exec .crc32 s) (exec .crc32 s') := by
  refine ⟨_, _, exec_crc32 s, exec_crc32 s', complete_sameEnd ?_⟩
  rw [outputs_crc32, List.forall_mem_singleton]
  exact congrArg checksum hib

/-- FIND reads the bytes of IB, POS_IN and WINDOW. -/
theorem exec_find_sameAnswer {s s' : State} (hib : s.ibBytes = s'.ibBytes) (hpos : s.posIn = s'.posIn)
    (hwin : s.window = s'.window) : SameAnswer 2 (exec .find s) (exec .find s') := by
  refine ⟨_, _, exec_find s, exec_find s', complete_sameEnd ?_⟩
  rw [outputs_find, List.forall_mem_singleton, hib, hpos, hwin]
  exact ⟨rfl, rfl⟩

/-- ENCODE reads the bytes of IB, WINDOW and TB's capacity. -/
theorem exec_encode_sameAnswer {s s' : State} (hcfg : s.cfg = s'.cfg) (hib : s.ibBytes = s'.ibBytes)
    (hwin : s.window = s'.window) : SameAnswer 3 (exec .encode s) (exec .encode s') := by
  have encoded : encodeTokens s'.cfg.tbCap s'.ibBytes s'.window.toNat =
      encodeTokens s.cfg.tbCap s.ibBytes s.window.toNat := by rw [hcfg, hib, hwin]
  cases h : encodeTokens s.cfg.tbCap s.ibBytes s.window.toNat with
  | error e =>
    exact ⟨_, _, exec_encode_of_error h, exec_encode_of_error (encoded.trans h), raise_sameEnd 3 s s' 0 e 0⟩
  | ok ts =>
    refine ⟨_, _, exec_encode_of_ok h, exec_encode_of_ok (encoded.trans h), complete_sameEnd ?_⟩
    rw [outputs_encode, List.forall_mem_singleton]
    exact sameValue_tb_of_put rfl rfl rfl rfl

/-- DECODE reads the tokens of TB and OB's capacity. -/
theorem exec_decode_sameAnswer {s s' : State} (hcfg : s.cfg = s'.cfg) (htb : s.tbTokens = s'.tbTokens) :
    SameAnswer 4 (exec .decode s) (exec .decode s') := by
  have decoded : decodeTokens s'.cfg.obCap s'.tbTokens = decodeTokens s.cfg.obCap s.tbTokens := by
    rw [hcfg, htb]
  cases h : decodeTokens s.cfg.obCap s.tbTokens with
  | error ek =>
    exact ⟨_, _, exec_decode_of_error h, exec_decode_of_error (decoded.trans h),
      raise_sameEnd 4 s s' 0 ek.1 ek.2⟩
  | ok bs =>
    refine ⟨_, _, exec_decode_of_ok h, exec_decode_of_ok (decoded.trans h), complete_sameEnd ?_⟩
    rw [outputs_decode, List.forall_mem_singleton]
    exact sameValue_ob_of_put rfl rfl rfl rfl

/-- SERIALIZE reads the tokens of TB and FB's capacity. -/
theorem exec_serialize_sameAnswer {s s' : State} (hcfg : s.cfg = s'.cfg) (htb : s.tbTokens = s'.tbTokens) :
    SameAnswer 5 (exec .serialize s) (exec .serialize s') := by
  have size : exceeds s'.cfg.fbCap (5 * s'.tbTokens.length + 4) =
      exceeds s.cfg.fbCap (5 * s.tbTokens.length + 4) := by rw [hcfg, htb]
  cases h : exceeds s.cfg.fbCap (5 * s.tbTokens.length + 4) with
  | true =>
    exact ⟨_, _, exec_serialize_of_exceeds h, exec_serialize_of_exceeds (size.trans h),
      raise_sameEnd 5 s s' 0 .capacity 0⟩
  | false =>
    refine ⟨_, _, exec_serialize_of_fits h, exec_serialize_of_fits (size.trans h), complete_sameEnd ?_⟩
    rw [outputs_serialize, List.forall_mem_cons, List.forall_mem_singleton, htb]
    exact ⟨sameValue_fb_of_put rfl rfl rfl rfl, rfl⟩

/-- DESERIALIZE reads the bytes of FB and TB's capacity. -/
theorem exec_deserialize_sameAnswer {s s' : State} (hcfg : s.cfg = s'.cfg) (hfb : s.fbBytes = s'.fbBytes) :
    SameAnswer 6 (exec .deserialize s) (exec .deserialize s') := by
  have readBack : deserialize s'.cfg.tbCap s'.fbBytes = deserialize s.cfg.tbCap s.fbBytes := by
    rw [hcfg, hfb]
  cases h : deserialize s.cfg.tbCap s.fbBytes with
  | truncated =>
    exact ⟨_, _, exec_deserialize_of_truncated h, exec_deserialize_of_truncated (readBack.trans h),
      raise_sameEnd 6 s s' 0 .truncatedFile 0⟩
  | failed e computed stored =>
    exact ⟨_, _, exec_deserialize_of_failed h, exec_deserialize_of_failed (readBack.trans h),
      raise_sameEnd 6 _ _ 0 e 0⟩
  | tokens ts computed stored =>
    refine ⟨_, _, exec_deserialize_of_tokens h, exec_deserialize_of_tokens (readBack.trans h),
      complete_sameEnd ?_⟩
    rw [outputs_deserialize, List.forall_mem_cons, List.forall_mem_cons, List.forall_mem_singleton]
    exact ⟨sameValue_tb_of_put rfl rfl rfl rfl, rfl, rfl⟩

/-- PACK reads what ENCODE reads, and FB's capacity. -/
theorem exec_pack_sameAnswer {s s' : State} (hcfg : s.cfg = s'.cfg) (hib : s.ibBytes = s'.ibBytes)
    (hwin : s.window = s'.window) : SameAnswer 7 (exec .pack s) (exec .pack s') := by
  have encoded : encodeTokens s'.cfg.tbCap s'.ibBytes s'.window.toNat =
      encodeTokens s.cfg.tbCap s.ibBytes s.window.toNat := by rw [hcfg, hib, hwin]
  cases h : encodeTokens s.cfg.tbCap s.ibBytes s.window.toNat with
  | error e =>
    exact ⟨_, _, exec_pack_of_error h, exec_pack_of_error (encoded.trans h), raise_sameEnd 7 s s' 0 e 0⟩
  | ok ts =>
    have h' := encoded.trans h
    cases hf : exceeds s.cfg.fbCap (5 * ts.length + 4) with
    | true =>
      exact ⟨_, _, exec_pack_of_exceeds h hf, exec_pack_of_exceeds h' (hcfg ▸ hf),
        raise_sameEnd 7 _ _ 1 .capacity 0⟩
    | false =>
      refine ⟨_, _, exec_pack_of_fits h hf, exec_pack_of_fits h' (hcfg ▸ hf), complete_sameEnd ?_⟩
      rw [outputs_pack, List.forall_mem_cons, List.forall_mem_cons, List.forall_mem_singleton]
      exact ⟨sameValue_tb_of_put rfl rfl rfl rfl, sameValue_fb_of_put rfl rfl rfl rfl, rfl⟩

/-- UNPACK reads what DESERIALIZE reads, and OB's capacity. -/
theorem exec_unpack_sameAnswer {s s' : State} (hcfg : s.cfg = s'.cfg) (hfb : s.fbBytes = s'.fbBytes) :
    SameAnswer 8 (exec .unpack s) (exec .unpack s') := by
  have readBack : deserialize s'.cfg.tbCap s'.fbBytes = deserialize s.cfg.tbCap s.fbBytes := by
    rw [hcfg, hfb]
  cases h : deserialize s.cfg.tbCap s.fbBytes with
  | truncated =>
    exact ⟨_, _, exec_unpack_of_truncated h, exec_unpack_of_truncated (readBack.trans h),
      raise_sameEnd 8 s s' 0 .truncatedFile 0⟩
  | failed e computed stored =>
    exact ⟨_, _, exec_unpack_of_failed h, exec_unpack_of_failed (readBack.trans h),
      raise_sameEnd 8 _ _ 0 e 0⟩
  | tokens ts computed stored =>
    have h' := readBack.trans h
    cases hd : decodeTokens s.cfg.obCap ts with
    | error ek =>
      exact ⟨_, _, exec_unpack_of_decode_error h hd, exec_unpack_of_decode_error h' (hcfg ▸ hd),
        raise_sameEnd 8 _ _ 1 ek.1 ek.2⟩
    | ok bs =>
      refine ⟨_, _, exec_unpack_of_decode_ok h hd, exec_unpack_of_decode_ok h' (hcfg ▸ hd),
        complete_sameEnd ?_⟩
      rw [outputs_unpack, List.forall_mem_cons, List.forall_mem_cons, List.forall_mem_cons,
        List.forall_mem_singleton]
      exact ⟨sameValue_tb_of_put rfl rfl rfl rfl, rfl, rfl, sameValue_ob_of_put rfl rfl rfl rfl⟩

/-- CMP reads the bytes of IB and of OB. -/
theorem exec_cmp_sameAnswer {s s' : State} (hib : s.ibBytes = s'.ibBytes) (hob : s.obBytes = s'.obBytes) :
    SameAnswer 9 (exec .cmp s) (exec .cmp s') := by
  refine ⟨_, _, exec_cmp s, exec_cmp s', complete_sameEnd ?_⟩
  rw [outputs_cmp, List.forall_mem_singleton]
  exact congrArg₂ equalityFlag hib hob

/-- R8 for every operation: states that agree on the declared inputs give answers that look alike. -/
theorem exec_sameAnswer {c : BitVec 4} {i : Instr} {s s' : State} (hc : decodeCommand c = .ok i)
    (agree : InputsAgree c s s') : SameAnswer c (exec i s) (exec i s') := by
  obtain ⟨hcfg, inputs⟩ := agree
  rcases decodeCommand_ok hc with ⟨rfl, rfl⟩ | ⟨rfl, rfl⟩ | ⟨rfl, rfl⟩ | ⟨rfl, rfl⟩ | ⟨rfl, rfl⟩ |
    ⟨rfl, rfl⟩ | ⟨rfl, rfl⟩ | ⟨rfl, rfl⟩ | ⟨rfl, rfl⟩
  · exact exec_crc32_sameAnswer inputs
  · obtain ⟨hib, hpos, hwin⟩ := inputs
    exact exec_find_sameAnswer hib hpos hwin
  · obtain ⟨hib, hwin⟩ := inputs
    exact exec_encode_sameAnswer hcfg hib hwin
  · exact exec_decode_sameAnswer hcfg inputs
  · exact exec_serialize_sameAnswer hcfg inputs
  · exact exec_deserialize_sameAnswer hcfg inputs
  · obtain ⟨hib, hwin⟩ := inputs
    exact exec_pack_sameAnswer hcfg hib hwin
  · exact exec_unpack_sameAnswer hcfg inputs
  · obtain ⟨hib, hob⟩ := inputs
    exact exec_cmp_sameAnswer hib hob

/-- Settles O46: each operation's answer is computed from its declared inputs and the parameters, and a buffer
it filled reads as the sequence it stored. -/
theorem operationsDependOnDeclaredInputsOnly : Obligations.OperationsDependOnDeclaredInputsOnly := by
  unfold Obligations.OperationsDependOnDeclaredInputsOnly
  intro c i s s' t t' hc agree ht ht'
  obtain ⟨u, u', hu, hu', same⟩ := exec_sameAnswer hc agree
  cases ht.symm.trans hu
  cases ht'.symm.trans hu'
  exact same

end Sys2Proof.Machine

/-! PROOFS. The state's rules (spec/10_state.md): what an operation, a row of the reference sequencings, a turn of
the core and a move of the host can do to a state is said once, as an inductive of few cases; the invariant (R25,
R26, R30, R71, R245), the legal lengths (R30, R252), the moves of STATUS (R32) and the frame of an operation (R35)
are read off those cases. -/

namespace Sys2Proof.Machine

/-! ## What may be written without ending an operation -/

/-- A length that is within its capacity in `s` is within it in `t` (R30). -/
structure LengthsKept (s t : State) : Prop where
  ib : exceeds s.cfg.ibCap s.ibLen = false → exceeds t.cfg.ibCap t.ibLen = false
  tb : exceeds s.cfg.tbCap s.tbLen = false → exceeds t.cfg.tbCap t.tbLen = false
  ob : exceeds s.cfg.obCap s.obLen = false → exceeds t.cfg.obCap t.obLen = false
  fb : exceeds s.cfg.fbCap s.fbLen = false → exceeds t.cfg.fbCap t.fbLen = false

/-- `t` is `s` after writes that leave STATUS, ERR and ERR_INFO alone, keep canonical memories canonical and, if
the framer's bounds hold in `s`, keep legal lengths legal. -/
structure Writes (s t : State) : Prop where
  status : t.status = s.status
  err : t.err = s.err
  errInfo : t.errInfo = s.errInfo
  memory : s.MemoryWf → t.MemoryWf
  lengths : s.SeqLegal → LengthsKept s t

section Writes

variable {s t u : State}

/-- Writes after writes, where the first leave the framer's bounds in force. -/
theorem Writes.trans (first : Writes s t) (seq : s.SeqLegal → t.SeqLegal) (second : Writes t u) : Writes s u where
  status := second.status.trans first.status
  err := second.err.trans first.err
  errInfo := second.errInfo.trans first.errInfo
  memory h := second.memory (first.memory h)
  lengths h :=
    have a := first.lengths h
    have b := second.lengths (seq h)
    ⟨b.ib ∘ a.ib, b.tb ∘ a.tb, b.ob ∘ a.ob, b.fb ∘ a.fb⟩

/-- Registers other than STATUS, ERR, ERR_INFO and the lengths may take any value. -/
theorem Writes.registers {window mfOff mfLen : Half} {posIn freeCount : Nat} {crcOut crcStored : Word32}
    {eqFlag : BitVec 1} {work : Work} {seq : Seq} {grain : Grain} {agenda : List Turn} {bus : BusData} :
    Writes s
      { s with
        window := window, posIn := posIn, crcOut := crcOut, crcStored := crcStored, mfOff := mfOff
        mfLen := mfLen, eqFlag := eqFlag, work := work, seq := seq, grain := grain, agenda := agenda
        bus := bus, freeCount := freeCount } :=
  ⟨rfl, rfl, rfl, id, fun _ => ⟨id, id, id, id⟩⟩

theorem Writes.refl (s : State) : Writes s s := .registers

/-- IB and IB_LEN may take canonical contents and a legal length. -/
theorem Writes.ib {ib : Buf Byte} {len : Nat} (wf : Memory.wf s.ib.cells → Memory.wf ib.cells)
    (legal : exceeds s.cfg.ibCap s.ibLen = false → exceeds s.cfg.ibCap len = false) :
    Writes s { s with ib := ib, ibLen := len } :=
  ⟨rfl, rfl, rfl, fun ⟨hib, htb, hob, hfb⟩ => ⟨wf hib, htb, hob, hfb⟩, fun _ => ⟨legal, id, id, id⟩⟩

/-- TB and TB_LEN may, and working registers with them. -/
theorem Writes.tb {tb : Buf Token} {len : Nat} {work : Work} {seq : Seq}
    (wf : Memory.wf s.tb.cells → Memory.wf tb.cells)
    (legal : s.SeqLegal → exceeds s.cfg.tbCap s.tbLen = false → exceeds s.cfg.tbCap len = false) :
    Writes s { s with tb := tb, tbLen := len, work := work, seq := seq } :=
  ⟨rfl, rfl, rfl, fun ⟨hib, htb, hob, hfb⟩ => ⟨hib, wf htb, hob, hfb⟩, fun h => ⟨id, legal h, id, id⟩⟩

/-- OB and OB_LEN may, and working registers with them. -/
theorem Writes.ob {ob : Buf Byte} {len : Nat} {work : Work} {seq : Seq}
    (wf : Memory.wf s.ob.cells → Memory.wf ob.cells)
    (legal : exceeds s.cfg.obCap s.obLen = false → exceeds s.cfg.obCap len = false) :
    Writes s { s with ob := ob, obLen := len, work := work, seq := seq } :=
  ⟨rfl, rfl, rfl, fun ⟨hib, htb, hob, hfb⟩ => ⟨hib, htb, wf hob, hfb⟩, fun _ => ⟨id, id, legal, id⟩⟩

/-- FB and FB_LEN may, and CRC_OUT and working registers with them. -/
theorem Writes.fb {fb : Buf Byte} {len : Nat} {crcOut : Word32} {work : Work} {seq : Seq}
    (wf : Memory.wf s.fb.cells → Memory.wf fb.cells)
    (legal : s.SeqLegal → exceeds s.cfg.fbCap s.fbLen = false → exceeds s.cfg.fbCap len = false) :
    Writes s { s with fb := fb, fbLen := len, crcOut := crcOut, work := work, seq := seq } :=
  ⟨rfl, rfl, rfl, fun ⟨hib, htb, hob, hfb⟩ => ⟨hib, htb, hob, wf hfb⟩, fun h => ⟨id, id, id, legal h⟩⟩

theorem Writes.putSums (computed stored : Word32) : Writes s (s.putSums computed stored) := .registers

theorem Writes.putTokens {ts : List Token} (fits : exceeds s.cfg.tbCap ts.length = false) :
    Writes s (s.putTokens ts) := .tb (fun _ => Memory.wf_cellsOf 0 ts) fun _ _ => fits

theorem Writes.putOutput {bs : List Byte} (fits : exceeds s.cfg.obCap bs.length = false) :
    Writes s (s.putOutput bs) := .ob (fun _ => Memory.wf_cellsOf 0 bs) fun _ => fits

/-- The serializer's writes, of a frame that fits FB (R199). -/
theorem Writes.frame {ts : List Token} (fits : exceeds s.cfg.fbCap (5 * ts.length + 4) = false) :
    Writes s { s.putFrame (frameBytes ts) with crcOut := checksum (bodyBytes ts) } :=
  .fb (fun _ => Memory.wf_cellsOf 0 _) fun _ _ =>
    (congrArg (exceeds s.cfg.fbCap) (length_frameBytes ts)).trans fits

/-- What DESERIALIZE writes, and stage 0 of UNPACK: the checksums, then tokens that fit TB (R202, R226). -/
theorem Writes.readBack {ts : List Token} (computed stored : Word32)
    (fits : exceeds s.cfg.tbCap ts.length = false) : Writes s ((s.putSums computed stored).putTokens ts) :=
  (Writes.putSums computed stored).trans id (.putTokens fits)

end Writes

/-! ## Frames (R35) -/

section Frames

variable {s t u : State} {outs : List Output}

theorem KeepsControl.refl (s : State) : KeepsControl s s := ⟨rfl, rfl, ⟨rfl, fun _ => rfl⟩, rfl, rfl, rfl, rfl⟩

theorem KeepsControl.trans (h : KeepsControl s t) (h' : KeepsControl t u) : KeepsControl s u := by
  obtain ⟨window, posIn, ⟨ibLen, ib⟩, cfg, grain, agenda, bus⟩ := h
  obtain ⟨window', posIn', ⟨ibLen', ib'⟩, cfg', grain', agenda', bus'⟩ := h'
  exact ⟨window'.trans window, posIn'.trans posIn, ⟨ibLen'.trans ibLen, fun a => (ib' a).trans (ib a)⟩,
    cfg'.trans cfg, grain'.trans grain, agenda'.trans agenda, bus'.trans bus⟩

theorem Output.kept_refl (o : Output) (s : State) : o.Kept s s := by
  cases o with
  | crcOut | crcStored | eq => exact rfl
  | mf => exact ⟨rfl, rfl⟩
  | tb | ob | fb => exact ⟨rfl, fun _ => rfl⟩

theorem Output.Kept.trans {o : Output} (h : o.Kept s t) (h' : o.Kept t u) : o.Kept s u := by
  cases o with
  | crcOut | crcStored | eq => exact Eq.trans h' h
  | mf => exact ⟨h'.1.trans h.1, h'.2.trans h.2⟩
  | tb | ob | fb => exact ⟨h'.1.trans h.1, fun a => (h'.2 a).trans (h.2 a)⟩

theorem KeepsAllBut.refl (outs : List Output) (s : State) : KeepsAllBut outs s s :=
  ⟨.refl s, fun o _ => o.kept_refl s⟩

theorem KeepsAllBut.trans (h : KeepsAllBut outs s t) (h' : KeepsAllBut outs t u) : KeepsAllBut outs s u :=
  ⟨h.1.trans h'.1, fun o ho => (h.2 o ho).trans (h'.2 o ho)⟩

theorem keepsAllBut_crcOut {x : Word32} (h : .crcOut ∈ outs) : KeepsAllBut outs s { s with crcOut := x } := by
  refine ⟨.refl s, fun o ho => ?_⟩
  have same := o.kept_refl s
  cases o with
  | crcOut => exact absurd h ho
  | _ => exact same

theorem keepsAllBut_find {x y : Half} (h : .mf ∈ outs) : KeepsAllBut outs s { s with mfOff := x, mfLen := y } := by
  refine ⟨.refl s, fun o ho => ?_⟩
  have same := o.kept_refl s
  cases o with
  | mf => exact absurd h ho
  | _ => exact same

theorem keepsAllBut_eqFlag {x : BitVec 1} (h : .eq ∈ outs) : KeepsAllBut outs s { s with eqFlag := x } := by
  refine ⟨.refl s, fun o ho => ?_⟩
  have same := o.kept_refl s
  cases o with
  | eq => exact absurd h ho
  | _ => exact same

theorem keepsAllBut_putSums {computed stored : Word32} (h : .crcOut ∈ outs) (h' : .crcStored ∈ outs) :
    KeepsAllBut outs s (s.putSums computed stored) := by
  refine ⟨.refl s, fun o ho => ?_⟩
  have same := o.kept_refl s
  cases o with
  | crcOut => exact absurd h ho
  | crcStored => exact absurd h' ho
  | _ => exact same

theorem keepsAllBut_putTokens {ts : List Token} (h : .tb ∈ outs) : KeepsAllBut outs s (s.putTokens ts) := by
  refine ⟨.refl s, fun o ho => ?_⟩
  have same := o.kept_refl s
  cases o with
  | tb => exact absurd h ho
  | _ => exact same

theorem keepsAllBut_putOutput {bs : List Byte} (h : .ob ∈ outs) : KeepsAllBut outs s (s.putOutput bs) := by
  refine ⟨.refl s, fun o ho => ?_⟩
  have same := o.kept_refl s
  cases o with
  | ob => exact absurd h ho
  | _ => exact same

/-- The serializer writes FB and CRC_OUT (R196). -/
theorem keepsAllBut_frame {ts : List Token} (h : .fb ∈ outs) (h' : .crcOut ∈ outs) :
    KeepsAllBut outs s { s.putFrame (frameBytes ts) with crcOut := checksum (bodyBytes ts) } := by
  refine ⟨.refl s, fun o ho => ?_⟩
  have same := o.kept_refl s
  cases o with
  | fb => exact absurd h ho
  | crcOut => exact absurd h' ho
  | _ => exact same

/-- Completing an operation touches the elements of its output buffers alone (R200). -/
theorem complete_keepsAllBut (s : State) (c : BitVec 4) : KeepsAllBut (outputs c) s (s.complete c) := by
  refine ⟨.refl s, fun o ho => ?_⟩
  have same := o.kept_refl s
  cases o with
  | tb => exact ⟨rfl, fun a => by simp only [State.tbAt, State.complete_tb, if_neg ho]⟩
  | ob => exact ⟨rfl, fun a => by simp only [State.obAt, State.complete_ob, if_neg ho]⟩
  | fb => exact ⟨rfl, fun a => by simp only [State.fbAt, State.complete_fb, if_neg ho]⟩
  | _ => exact same

/-- What an error leaves unspecified is among the declared outputs (R252). -/
theorem unspecified_subset_outputs (c : BitVec 4) (p : BitVec 1) (e : ErrKind) :
    unspecified c p e ⊆ outputs c := by
  unfold unspecified
  split
  · next six =>
    simp only [outputs, six]
    split <;> simp
  · next eight =>
    simp only [outputs, eight]
    split
    · simp
    · split <;> simp
  · exact List.Subset.refl _

/-- An error touches declared outputs alone (R252). -/
theorem raise_keepsAllBut (s : State) (c : BitVec 4) (p : BitVec 1) (e : ErrKind) (k : Nat) :
    KeepsAllBut (outputs c) s (s.raise c p e k) := by
  refine ⟨.refl s, fun o ho => ?_⟩
  have same := o.kept_refl s
  have hu : o ∉ unspecified c p e := fun h => ho (unspecified_subset_outputs c p e h)
  cases o with
  | crcOut | crcStored => exact if_neg hu
  | mf | eq => exact same
  | tb => exact ⟨if_neg hu, fun a => by simp only [State.tbAt, State.raise_tb, if_neg hu, if_neg ho]⟩
  | ob => exact ⟨if_neg hu, fun a => by simp only [State.obAt, State.raise_ob, if_neg hu]⟩
  | fb => exact ⟨if_neg hu, fun a => by simp only [State.fbAt, State.raise_fb, if_neg hu]⟩

end Frames

/-! ## How an operation ends (R32, R35) -/

/-- The error kinds operations raise, with the information of R248: 0 but for INVALID_REFERENCE. -/
structure Raisable (e : ErrKind) (info : Nat) : Prop where
  kind : e ≠ .none ∧ e ≠ .io ∧ e ≠ .illegalCommand
  info : e ≠ .invalidReference → info = 0

theorem raisable_zero {e : ErrKind}
    (h : e = .truncatedFile ∨ e = .integrity ∨ e = .malformedRecord ∨ e = .invalidReference ∨ e = .capacity) :
    Raisable e 0 := by
  rcases h with rfl | rfl | rfl | rfl | rfl <;> exact ⟨by decide, fun _ => rfl⟩

theorem raisable_invalidReference (k : Nat) : Raisable .invalidReference k := ⟨by decide, fun h => absurd rfl h⟩

/-- The error of a token, with the index it carries. -/
theorem raisable_tokenErrInfo {e : ErrKind} (k : Nat) (h : e = .capacity ∨ e = .invalidReference) :
    Raisable e (tokenErrInfo e k) := by
  rcases h with rfl | rfl
  · exact raisable_zero (by decide)
  · exact raisable_invalidReference k

/-- The state in which the operation with a code, run from `s`, ends: it completes or raises, after writes to its
declared outputs. -/
inductive OperationEnd (c : BitVec 4) (s : State) : State → Prop
  | completes {u : State} (writes : Writes s u) (frame : KeepsAllBut (outputs c) s u) :
      OperationEnd c s (u.complete c)
  | raises {u : State} {p : BitVec 1} {e : ErrKind} {k : Nat} (writes : Writes s u)
      (frame : KeepsAllBut (outputs c) s u) (kind : Raisable e k) : OperationEnd c s (u.raise c p e k)

/-- An operation that raises before it has written anything. -/
theorem OperationEnd.raisesAtOnce {c : BitVec 4} {s : State} {p : BitVec 1} {e : ErrKind} {k : Nat}
    (kind : Raisable e k) : OperationEnd c s (s.raise c p e k) := .raises (.refl s) (.refl _ s) kind

theorem OperationEnd.frame {c : BitVec 4} {s t : State} (h : OperationEnd c s t) : KeepsAllBut (outputs c) s t := by
  cases h with
  | completes _ frame => exact frame.trans (complete_keepsAllBut _ c)
  | raises _ frame _ => exact frame.trans (raise_keepsAllBut _ c _ _ _)

/-- The tokens of an encoding fit TB. -/
theorem encodeTokens_fits {cap : Option Nat} {buffer : List Byte} {window : Nat} {ts : List Token}
    (h : encodeTokens cap buffer window = .ok ts) : exceeds cap ts.length = false :=
  encodeFrom_ok (tokens := []) (exceeds_zero cap) h

theorem encodeTokens_raisable {cap : Option Nat} {buffer : List Byte} {window : Nat} {e : ErrKind}
    (h : encodeTokens cap buffer window = .error e) : Raisable e 0 :=
  raisable_zero (by simp [encodeFrom_error h])

/-- The output of a token sequence fits OB. -/
theorem decodeTokens_fits {cap : Option Nat} {ts : List Token} {bs : List Byte}
    (h : decodeTokens cap ts = .ok bs) : exceeds cap bs.length = false :=
  decodeFrom_ok (out := []) (exceeds_zero cap) h

theorem decodeTokens_raisable {cap : Option Nat} {ts : List Token} {e : ErrKind} {k : Nat}
    (h : decodeTokens cap ts = .error (e, k)) : Raisable e k := by
  rcases decodeFrom_error h with ⟨rfl, rfl⟩ | rfl
  · exact raisable_zero (by decide)
  · exact raisable_invalidReference k

/-- The tokens of a frame fit TB (R207). -/
theorem deserialize_fits {cap : Option Nat} {content : List Byte} {ts : List Token} {x y : Word32}
    (h : deserialize cap content = .tokens ts x y) : exceeds cap ts.length = false := by
  rcases deserialize_cases cap content with ⟨_, g⟩ |
    ⟨_, body, stored, _, _, ⟨_, g⟩ | ⟨_, _, g⟩ | ⟨_, _, _, g⟩ | ⟨_, _, fits, g⟩⟩
  · cases g.symm.trans h
  · cases g.symm.trans h
  · cases g.symm.trans h
  · cases g.symm.trans h
  · cases g.symm.trans h
    rw [length_parseRecords]
    exact fits

theorem deserialize_raisable {cap : Option Nat} {content : List Byte} {e : ErrKind} {x y : Word32}
    (h : deserialize cap content = .failed e x y) : Raisable e 0 := by
  rcases deserialize_failed h with rfl | rfl | rfl <;> exact raisable_zero (by decide)

/-- An operation answers a state in which it has ended. -/
def Ends (c : BitVec 4) (s : State) (r : Result) : Prop := ∃ t, r = .next t ∧ OperationEnd c s t

section Operations

variable (s : State)

theorem exec_encode_ends : Ends 3 s (exec .encode s) := by
  cases h : encodeTokens s.cfg.tbCap s.ibBytes s.window.toNat with
  | error e => exact ⟨_, exec_encode_of_error h, .raisesAtOnce (encodeTokens_raisable h)⟩
  | ok ts =>
    exact ⟨_, exec_encode_of_ok h,
      .completes (.putTokens (encodeTokens_fits h)) (keepsAllBut_putTokens (by decide))⟩

theorem exec_decode_ends : Ends 4 s (exec .decode s) := by
  cases h : decodeTokens s.cfg.obCap s.tbTokens with
  | error ek => exact ⟨_, exec_decode_of_error h, .raisesAtOnce (decodeTokens_raisable h)⟩
  | ok bs =>
    exact ⟨_, exec_decode_of_ok h,
      .completes (.putOutput (decodeTokens_fits h)) (keepsAllBut_putOutput (by decide))⟩

theorem exec_serialize_ends : Ends 5 s (exec .serialize s) := by
  cases h : exceeds s.cfg.fbCap (5 * s.tbTokens.length + 4) with
  | true => exact ⟨_, exec_serialize_of_exceeds h, .raisesAtOnce (raisable_zero (by decide))⟩
  | false => exact ⟨_, exec_serialize_of_fits h, .completes (.frame h) (keepsAllBut_frame (by decide) (by decide))⟩

theorem exec_deserialize_ends : Ends 6 s (exec .deserialize s) := by
  have sums {x y : Word32} : KeepsAllBut (outputs 6) s (s.putSums x y) :=
    keepsAllBut_putSums (by decide) (by decide)
  cases h : deserialize s.cfg.tbCap s.fbBytes with
  | truncated => exact ⟨_, exec_deserialize_of_truncated h, .raisesAtOnce (raisable_zero (by decide))⟩
  | failed e computed stored =>
    exact ⟨_, exec_deserialize_of_failed h, .raises (.putSums computed stored) sums (deserialize_raisable h)⟩
  | tokens ts computed stored =>
    exact ⟨_, exec_deserialize_of_tokens h,
      .completes (.readBack computed stored (deserialize_fits h)) (sums.trans (keepsAllBut_putTokens (by decide)))⟩

theorem exec_pack_ends : Ends 7 s (exec .pack s) := by
  cases h : encodeTokens s.cfg.tbCap s.ibBytes s.window.toNat with
  | error e => exact ⟨_, exec_pack_of_error h, .raisesAtOnce (encodeTokens_raisable h)⟩
  | ok ts =>
    have encoded : Writes s (s.putTokens ts) := .putTokens (encodeTokens_fits h)
    have tokens : KeepsAllBut (outputs 7) s (s.putTokens ts) := keepsAllBut_putTokens (by decide)
    cases hf : exceeds s.cfg.fbCap (5 * ts.length + 4) with
    | true => exact ⟨_, exec_pack_of_exceeds h hf, .raises encoded tokens (raisable_zero (by decide))⟩
    | false =>
      exact ⟨_, exec_pack_of_fits h hf,
        .completes (encoded.trans id (.frame hf)) (tokens.trans (keepsAllBut_frame (by decide) (by decide)))⟩

theorem exec_unpack_ends : Ends 8 s (exec .unpack s) := by
  have sums {x y : Word32} : KeepsAllBut (outputs 8) s (s.putSums x y) :=
    keepsAllBut_putSums (by decide) (by decide)
  cases h : deserialize s.cfg.tbCap s.fbBytes with
  | truncated => exact ⟨_, exec_unpack_of_truncated h, .raisesAtOnce (raisable_zero (by decide))⟩
  | failed e computed stored =>
    exact ⟨_, exec_unpack_of_failed h, .raises (.putSums computed stored) sums (deserialize_raisable h)⟩
  | tokens ts computed stored =>
    have readBack : Writes s ((s.putSums computed stored).putTokens ts) :=
      .readBack computed stored (deserialize_fits h)
    have tokens : KeepsAllBut (outputs 8) s ((s.putSums computed stored).putTokens ts) :=
      sums.trans (keepsAllBut_putTokens (by decide))
    cases hd : decodeTokens s.cfg.obCap ts with
    | error ek => exact ⟨_, exec_unpack_of_decode_error h hd, .raises readBack tokens (decodeTokens_raisable hd)⟩
    | ok bs =>
      exact ⟨_, exec_unpack_of_decode_ok h hd,
        .completes (readBack.trans id (.putOutput (decodeTokens_fits hd)))
          (tokens.trans (keepsAllBut_putOutput (by decide)))⟩

/-- Every operation ends: DONE, or ERROR (R32). -/
theorem exec_ends {c : BitVec 4} {i : Instr} (hc : decodeCommand c = .ok i) : Ends c s (exec i s) := by
  rcases decodeCommand_ok hc with ⟨rfl, rfl⟩ | ⟨rfl, rfl⟩ | ⟨rfl, rfl⟩ | ⟨rfl, rfl⟩ | ⟨rfl, rfl⟩ |
    ⟨rfl, rfl⟩ | ⟨rfl, rfl⟩ | ⟨rfl, rfl⟩ | ⟨rfl, rfl⟩
  · exact ⟨_, exec_crc32 s, .completes .registers (keepsAllBut_crcOut (by decide))⟩
  · exact ⟨_, exec_find s, .completes .registers (keepsAllBut_find (by decide))⟩
  · exact exec_encode_ends s
  · exact exec_decode_ends s
  · exact exec_serialize_ends s
  · exact exec_deserialize_ends s
  · exact exec_pack_ends s
  · exact exec_unpack_ends s
  · exact ⟨_, exec_cmp s, .completes .registers (keepsAllBut_eqFlag (by decide))⟩

end Operations

/-- Settles O45: an operation completes or raises after writes to its declared outputs, and neither end touches
anything else. -/
theorem operationsKeepWhatTheyDoNotDeclare : Obligations.OperationsKeepWhatTheyDoNotDeclare := by
  unfold Obligations.OperationsKeepWhatTheyDoNotDeclare
  intro c i s t hc ht
  obtain ⟨t', ht', ends⟩ := exec_ends s hc
  cases ht.symm.trans ht'
  refine ⟨ends.frame, ?_⟩
  cases ends with
  | completes _ _ => exact .inl (State.complete_endsDone _ c)
  | raises _ _ kind => exact .inr ⟨rfl, kind.kind⟩

/-! ## What the core's turn can do while BUSY (R32) -/

/-- The state a turn of a BUSY core gives: the operation goes on, with the framer's bounds kept; it completes; it
raises an error; or the code in OPC names no operation (R247). -/
inductive CoreTransition (s : State) : State → Prop
  | goesOn {t : State} (writes : Writes s t) (seq : s.SeqLegal → t.SeqLegal) : CoreTransition s t
  | completes {u : State} {c : BitVec 4} (writes : Writes s u) : CoreTransition s (u.complete c)
  | raises {u : State} {c : BitVec 4} {p : BitVec 1} {e : ErrKind} {k : Nat} (writes : Writes s u)
      (kind : Raisable e k) : CoreTransition s (u.raise c p e k)
  | rejects : CoreTransition s s.rejectCommand

namespace CoreTransition

variable {s t u : State}

/-- A row that writes registers alone, with the bounds its next row needs. -/
theorem row {work : Work} {seq : Seq} {crcOut crcStored : Word32}
    (legal : s.SeqLegal →
      State.SeqLegal { s with crcOut := crcOut, crcStored := crcStored, work := work, seq := seq }) :
    CoreTransition s { s with crcOut := crcOut, crcStored := crcStored, work := work, seq := seq } :=
  .goesOn .registers legal

/-- A transition for each branch of a test. -/
theorem ite {p : Prop} [Decidable p] (yes : p → CoreTransition s t) (no : ¬ p → CoreTransition s u) :
    CoreTransition s (if p then t else u) := by
  split
  · next h => exact yes h
  · next h => exact no h

end CoreTransition

/-- An operation as one step is a transition of the core. -/
theorem OperationEnd.transition {c : BitVec 4} {s t : State} (h : OperationEnd c s t) : CoreTransition s t := by
  cases h with
  | completes writes _ => exact .completes writes
  | raises writes _ kind => exact .raises writes kind

/-! ### Tokens -/

/-- An error of the token at TIX. -/
theorem raiseToken_transition {s : State} {e : ErrKind} (h : e = .capacity ∨ e = .invalidReference) :
    CoreTransition s (s.raiseToken e) :=
  .raises (.refl s) (raisable_tokenErrInfo _ h)

/-- D_INIT: OB is empty, and no bound of the framer is in force. -/
theorem beginTokens_transition (s : State) : CoreTransition s s.beginTokens :=
  .goesOn (.ob id fun _ => exceeds_zero _) fun _ => trivial

/-- A token as one step: its error, or an output that fits OB if the output before it does (R14). -/
theorem exec_decodeToken_transition (s : State) (t : Token) :
    ∃ u, exec (decodeToken t) s = .next u ∧ CoreTransition s u := by
  rcases exec_decodeToken s t with ⟨e, raised, h⟩ | ⟨run, w, decoded, _, h⟩
  · exact ⟨_, h, raiseToken_transition (tokenBytes_error raised)⟩
  · have fits : exceeds s.cfg.obCap s.obLen = false →
        exceeds s.cfg.obCap (s.obBytes ++ run).length = false :=
      fun h0 => (tokenBytes_ok (by rw [obBytes_length]; exact h0) decoded).2
    exact ⟨_, h, .goesOn (.ob (Memory.wf_setAll · _ _) fits) fun _ => trivial⟩

/-! ### The rows of the reference sequencings (R124, R143, R167, R190, R201, R209) -/

/-- The framer sets no bound on the rows of DEC. -/
theorem State.seqLegal_of_decoder {s : State}
    (h : s.seq = .dSym ∨ s.seq = .dCheck ∨ s.seq = .dCopy ∨ s.seq = .dFetch) : s.SeqLegal := by
  unfold State.SeqLegal
  rcases h with h | h | h | h <;> rw [h] <;> trivial

/-- A buffer that is not full has room for one element more (R14). -/
theorem exceeds_succ_of_not_full {cap : Option Nat} {n : Nat} (room : ¬ full cap n = true) :
    exceeds cap (n + 1) = false := by
  rw [← full_iff_exceeds_succ]
  exact Bool.eq_false_iff.mpr room

section Rows

variable (s : State)

theorem emitToken_transition (t : Token) (advance : Nat) : CoreTransition s (s.emitToken t advance) := by
  unfold State.emitToken
  split
  · exact .raises (.refl s) (raisable_zero (by decide))
  · next room =>
    exact .goesOn (.tb (Memory.wf_set · _ _) fun _ _ => exceeds_succ_of_not_full room) fun _ => trivial

/-- `append(OB, b)` of DEC, before the next byte of the copy or the next token. -/
theorem emitByte_transition (b : Byte) (w : Work) {next : Seq} (row : next = .dCopy ∨ next = .dFetch) :
    CoreTransition s (s.emitByte b w next) := by
  unfold State.emitByte
  split
  · exact raiseToken_transition (by decide)
  · next room =>
    exact .goesOn (.ob (Memory.wf_set · _ _) fun _ => exceeds_succ_of_not_full room) fun _ =>
      State.seqLegal_of_decoder (.inr (.inr row))

/-- The first row. A checksum is bounded for the serializer alone, which CRC32 is not; and the deserializer's first
row is entered with the codes of DESERIALIZE and UNPACK only. -/
theorem seqStart_transition : CoreTransition s (seqStart s) := by
  have notCode {c d : BitVec 4} {n : Nat} (h : c.toNat = n) (hd : d.toNat ≠ n) : c ≠ d := fun e => hd (e ▸ h)
  unfold seqStart
  split
  · next code =>
    exact .row fun _ opc => opc.elim (absurd · (notCode code (by decide))) (absurd · (notCode code (by decide)))
  · exact .row fun _ => trivial
  · exact .row fun _ => trivial
  · exact .row fun _ => trivial
  · exact .row fun _ => trivial
  · next code => exact .row fun _ => ⟨notCode code (by decide), notCode code (by decide)⟩
  · exact .row fun _ => trivial
  · next code => exact .row fun _ => ⟨notCode code (by decide), notCode code (by decide)⟩
  · exact .row fun _ => trivial
  · exact .rejects

/-- C_FIN: the frame whose checksum the serializer wanted still fits FB. -/
theorem seqCrcDone_transition : CoreTransition { s with seq := .cFin } (seqCrcDone { s with seq := .cFin }) := by
  unfold seqCrcDone
  split
  · exact .completes .registers
  · next code => exact .row fun frame => frame (.inl (BitVec.eq_of_toNat_eq (y := 5) code))
  · next code => exact .row fun frame => frame (.inr (BitVec.eq_of_toNat_eq (y := 7) code))
  · exact .row fun _ => trivial

theorem seqEmit_transition : CoreTransition s (seqEmit s) := by
  unfold seqEmit
  exact .ite (fun _ => emitToken_transition s _ _) fun _ => emitToken_transition s _ _

/-- S_REC: the frame's length does not change. -/
theorem seqRecord_transition : CoreTransition { s with seq := .sRec } (seqRecord { s with seq := .sRec }) := by
  unfold seqRecord
  exact .ite (fun _ => .row id) fun _ => .goesOn (.fb (Memory.wf_setAll · _ _) fun _ => id) id

/-- X_REC: a record of five bytes below a body of whole records, or the end, where RIX is the number of records. -/
theorem seqParse_transition : CoreTransition { s with seq := .xRec } (seqParse { s with seq := .xRec }) := by
  unfold seqParse
  refine .ite (fun atEnd => .row fun ⟨_, _, fits⟩ => ?_)
    fun more => .goesOn (.tb (Memory.wf_set · _ _) fun _ => id) fun ⟨within, whole, fits⟩ => ⟨?_, whole, fits⟩
  · have count : s.work.bodyLen / 5 = s.work.rix := Nat.div_eq_of_eq_mul_right (by decide) atEnd.symm
    change exceeds s.cfg.tbCap s.work.rix = false
    rw [← count]
    exact fits
  · change 5 * s.work.rix ≠ s.work.bodyLen at more
    change 5 * s.work.rix ≤ s.work.bodyLen at within
    change s.work.bodyLen % 5 = 0 at whole
    change 5 * (s.work.rix + 1) ≤ s.work.bodyLen
    omega

/-- Every row of the reference sequencings is a transition. -/
theorem microStep_transition : CoreTransition s (microStep s) := by
  suffices rows : ∀ q : Seq, CoreTransition { s with seq := q } (microStep { s with seq := q }) from rows s.seq
  intro q
  cases q with
  | opStart => exact seqStart_transition _
  | cInit => exact .row id
  | cByte => exact .ite (fun _ => .row id) fun _ => .row id
  | cBit => exact .ite (fun _ => .row id) fun _ => .row id
  | cFin => exact seqCrcDone_transition s
  | mInit => exact .ite (fun _ => .row fun _ => trivial) fun _ => .row fun _ => trivial
  | mCand => exact .row fun _ => trivial
  | mExt => exact .ite (fun _ => .row fun _ => trivial) fun _ => .row fun _ => trivial
  | mUpd => exact .ite (fun _ => .row fun _ => trivial) fun _ => .row fun _ => trivial
  | mDone => exact .ite (fun _ => .completes .registers) fun _ => .row fun _ => trivial
  | eInit => exact .goesOn (.tb id fun _ _ => exceeds_zero _) fun _ => trivial
  | eTest => exact .ite (fun _ => .row fun _ => trivial) fun _ => .row fun _ => trivial
  | eFind => exact .row fun _ => trivial
  | eEmit => exact seqEmit_transition _
  | eDone => exact .ite (fun _ => .row fun _ => trivial) fun _ => .completes (.refl _)
  | dInit => exact beginTokens_transition _
  | dFetch =>
    exact .ite (fun _ => .row fun _ => trivial) fun _ => .row fun _ => State.seqLegal_of_decoder
      ((ite_eq_or_eq _ Seq.dSym .dCheck).elim .inl fun check => .inr (.inl check))
  | dCheck => exact .ite (fun _ => raiseToken_transition (by decide)) fun _ => .row fun _ => trivial
  | dCopy => exact .ite (fun _ => .row fun _ => trivial) fun _ => emitByte_transition _ _ _ (.inl rfl)
  | dSym => exact emitByte_transition _ _ _ (.inr rfl)
  | dDone => exact .completes (.refl _)
  | sInit =>
    exact .ite (fun _ => .raises (.refl _) (raisable_zero (by decide))) fun fits =>
      .row fun _ => Bool.eq_false_iff.mpr fits
  | sRec => exact seqRecord_transition s
  | sCrc => exact .row fun fits _ => fits
  | sTrl => exact .goesOn (.fb (Memory.wf_setAll · _ _) fun fits _ => fits) fun _ => trivial
  | sDone => exact .completes (.refl _)
  | xLen => exact .ite (fun _ => .raises (.refl _) (raisable_zero (by decide))) fun _ => .row id
  | xCrc => exact .row fun ⟨not5, not7⟩ opc => opc.elim (absurd · not5) (absurd · not7)
  | xCmp => exact .ite (fun _ => .raises (.refl _) (raisable_zero (by decide))) fun _ => .row fun _ => trivial
  | xAlign =>
    exact .ite (fun _ => .raises (.refl _) (raisable_zero (by decide))) fun whole =>
      .ite (fun _ => .raises (.refl _) (raisable_zero (by decide))) fun fits =>
        .row fun _ => ⟨Nat.zero_le _, not_not.mp whole, Bool.eq_false_iff.mpr fits⟩
  | xRec => exact seqParse_transition s
  | xDone =>
    exact .ite (fun _ => .goesOn (.tb id fun fits _ => fits) fun _ => trivial) fun _ =>
      .completes (.tb id fun fits _ => fits)
  | qCmp => exact .completes .registers

end Rows

/-! ### The fetch -/

/-- The answer of a move of the core's turn from a state. -/
def Move.result (s : State) : Move → Result
  | .run i => exec i s
  | .goto t => .next t

/-- A move answers a state the core can go to. -/
def Move.Transits (m : Move) (s : State) : Prop := ∃ t, m.result s = .next t ∧ CoreTransition s t

theorem goto_transits {s t : State} (h : CoreTransition s t) : (Move.goto t).Transits s := ⟨t, rfl, h⟩

/-- The operation latched in OPC, or R247's rejection. -/
theorem fetchOperation_transits (s : State) : (fetchOperation s).Transits s := by
  unfold fetchOperation
  split
  · next hc =>
    obtain ⟨t, ht, ends⟩ := exec_ends s hc
    exact ⟨t, ht, ends.transition⟩
  · exact goto_transits .rejects

/-- The token at TIX, or the end of the sequence. -/
theorem fetchToken_transits (s : State) : (fetchToken s).Transits s := by
  unfold fetchToken
  split
  · exact goto_transits (.completes (.refl s))
  · exact exec_decodeToken_transition s _

/-- Stage 0 of UNPACK, then D_INIT of stage 1 (R226). -/
theorem fetchStepped_transits (s : State) : (fetchStepped s).Transits s := by
  unfold fetchStepped State.unpackStage0
  split
  · exact goto_transits (beginTokens_transition s)
  · split
    · cases h : deserialize s.cfg.tbCap s.fbBytes with
      | truncated => exact goto_transits (.raises (.refl s) (raisable_zero (by decide)))
      | failed e computed stored =>
        exact goto_transits (.raises (.putSums computed stored) (deserialize_raisable h))
      | tokens ts computed stored =>
        have readBack : Writes s ((s.putSums computed stored).putTokens ts) :=
          .readBack computed stored (deserialize_fits h)
        exact goto_transits (.goesOn (readBack.trans id (.ob id fun _ => exceeds_zero _)) fun _ => trivial)
    · exact fetchOperation_transits s

/-- The turn of a BUSY core, at every grain. -/
theorem coreMove_transits {s : State} (busy : s.status = .busy) : (coreMove s).Transits s := by
  unfold coreMove
  rw [if_neg (not_not_intro busy)]
  split
  · exact goto_transits (microStep_transition s)
  · exact fetchOperation_transits s
  · exact fetchStepped_transits s
  · exact fetchToken_transits s
  · exact goto_transits (microStep_transition s)

/-! ## What the host's move can do (R21, R30, R32, R37, R280, R290) -/

/-- The state a move of the host gives: an access, which touches neither STATUS nor the sequencing; the start of an
operation; the rejection of an illegal command; reset. -/
inductive HostTransition (s : State) : HostAct → State → Prop
  | accesses {a : HostAct} {t : State} (writes : Writes s t) (seq : s.SeqLegal → t.SeqLegal) : HostTransition s a t
  | starts {v : Nat} (idle : s.status ≠ .busy) (legal : 1 ≤ v ∧ v ≤ 9) :
      HostTransition s (.writeReg .cmd v) (s.startOp (BitVec.ofNat 4 v))
  | rejects {v : Nat} (idle : s.status ≠ .busy) (illegal : v = 0 ∨ 10 ≤ v) :
      HostTransition s (.writeReg .cmd v) s.rejectCommand
  | resets : HostTransition s .reset s.resetCore

/-- The legal values of CMD are 1 to 9 (R104, R105). -/
theorem decodeCommand_isOk : ∀ v, v < 16 →
    (decodeCommand (BitVec.ofNat 4 v)).isOk = decide (1 ≤ v ∧ v ≤ 9) := by decide

theorem decodeCommand_legal {v : Nat} (legal : 1 ≤ v ∧ v ≤ 9) : ∃ i, decodeCommand (BitVec.ofNat 4 v) = .ok i := by
  have ok := decodeCommand_isOk v (by omega)
  cases h : decodeCommand (BitVec.ofNat 4 v) with
  | ok i => exact ⟨i, rfl⟩
  | error r => rw [h, decide_eq_true legal] at ok; cases ok

theorem writeCommand_of_ok {s : State} {c : BitVec 4} {i : Instr} (idle : s.status ≠ .busy)
    (h : decodeCommand c = .ok i) : s.writeCommand c = s.startOp c := by
  unfold State.writeCommand
  rw [if_neg idle, h]

theorem writeCommand_of_error {s : State} {c : BitVec 4} {r : Reject} (idle : s.status ≠ .busy)
    (h : decodeCommand c = .error r) : s.writeCommand c = s.rejectCommand := by
  unfold State.writeCommand
  rw [if_neg idle, h]

theorem writeCommand_transition (s : State) {v : Nat} (hv : v < 16) :
    HostTransition s (.writeReg .cmd v) (s.writeCommand (BitVec.ofNat 4 v)) := by
  by_cases busy : s.status = .busy
  · rw [writeCommand_of_busy busy]
    exact .accesses (.refl s) id
  · have code := decodeCommand_isOk v hv
    cases h : decodeCommand (BitVec.ofNat 4 v) with
    | ok i =>
      rw [writeCommand_of_ok busy h]
      rw [h] at code
      exact .starts busy (of_decide_eq_true code.symm)
    | error r =>
      rw [writeCommand_of_error busy h]
      rw [h] at code
      have illegal := of_decide_eq_false code.symm
      exact .rejects busy (by omega)

/-- A length write that is a move is of a legal length, and gives the state offered. -/
theorem writeLength_next {b : Space} {r : Reg} {width cap : Option Nat} {v : Nat} {t u : State}
    (h : writeLength b r width cap v t = .next u) : exceeds cap v = false ∧ t = u := by
  unfold writeLength at h
  split at h
  · cases h
  · next fits =>
    split at h
    · cases h; exact ⟨Bool.eq_false_iff.mpr fits, rfl⟩
    · cases h

theorem writeReg_transition {s t : State} {r : Reg} {v : Nat} (h : s.writeReg r v = .next t) :
    HostTransition s (.writeReg r v) t := by
  cases r with
  | cmd =>
    change (if v < 16 then _ else _) = _ at h
    split at h
    · next hv => cases h; exact writeCommand_transition s hv
    · cases h
  | window =>
    change (if v < 65536 then _ else _) = _ at h
    split at h
    · cases h; exact .accesses .registers id
    · cases h
  | posIn =>
    change (if fits s.cfg.aw v = true then _ else _) = _ at h
    split at h
    · cases h; exact .accesses .registers id
    · cases h
  | ibLen =>
    obtain ⟨legal, rfl⟩ := writeLength_next h
    exact .accesses (.ib id fun _ => legal) id
  | tbLen =>
    obtain ⟨legal, rfl⟩ := writeLength_next h
    exact .accesses (.tb id fun _ _ => legal) id
  | obLen =>
    obtain ⟨legal, rfl⟩ := writeLength_next h
    exact .accesses (.ob id fun _ => legal) id
  | fbLen =>
    obtain ⟨legal, rfl⟩ := writeLength_next h
    exact .accesses (.fb id fun _ _ => legal) id
  | status | err | errInfo | crcOut | crcStored | mfOff | mfLen | eq =>
    cases h
    exact .accesses (.refl s) id

/-- A write of one byte keeps canonical memories and every length. -/
theorem setByte_transition (s : State) (b : ByteSpace) (i : Nat) (v : Byte) :
    HostTransition s (.writeByte b i v) (s.setByte b i v) := by
  cases b with
  | ib => exact .accesses (.ib (Memory.wf_set · i v) id) id
  | ob => exact .accesses (.ob (Memory.wf_set · i v) id) id
  | fb => exact .accesses (.fb (Memory.wf_set · i v) fun _ => id) id

theorem hostMove_transition {s t : State} {a : HostAct} (h : hostMove s a = .next t) : HostTransition s a t := by
  cases a with
  | writeReg r v => exact writeReg_transition h
  | readReg r => cases h; exact .accesses .registers id
  | writeByte b i v =>
    simp only [hostMove] at h
    split at h
    · cases h
    · cases h; exact setByte_transition s b i v
  | readByte b i =>
    simp only [hostMove] at h
    split at h
    · cases h
    · cases h; exact .accesses .registers id
  | writeToken i v =>
    simp only [hostMove] at h
    split at h
    · cases h
    · cases h; exact .accesses (.tb (Memory.wf_set · i v) fun _ => id) id
  | readToken i =>
    simp only [hostMove] at h
    split at h
    · cases h
    · cases h; exact .accesses .registers id
  | reset => cases h; exact .resets

theorem hostStep_transition {s t : State} {a : HostAct} (h : hostStep s a = .next t) : HostTransition s a t := by
  unfold hostStep at h
  split at h
  · cases h
  · exact hostMove_transition h

/-! ## What a step can do -/

theorem step_of_host {s : State} {a : HostAct} (h : s.turn = .host a) : step s = hostStep s.popTurn a := by
  simp only [step, h]

theorem step_of_core {s : State} (h : s.turn = .core) : step s = (coreMove s.popTurn).result s.popTurn := by
  simp only [step, h]
  cases coreMove s.popTurn <;> rfl

/-- A step to a next state: the host's move, an idle turn of the core, or a turn of the BUSY core, on the state with
the turn taken. -/
theorem step_cases {s t : State} (h : step s = .next t) :
    (∃ a, s.turn = .host a ∧ HostTransition s.popTurn a t) ∨
    (s.turn = .core ∧ s.status ≠ .busy ∧ t = s.popTurn) ∨
    (s.turn = .core ∧ s.status = .busy ∧ CoreTransition s.popTurn t) := by
  cases turn : s.turn with
  | host a =>
    rw [step_of_host turn] at h
    exact .inl ⟨a, rfl, hostStep_transition h⟩
  | core =>
    rw [step_of_core turn] at h
    by_cases busy : s.status = .busy
    · obtain ⟨u, hu, transition⟩ := coreMove_transits (s := s.popTurn) busy
      cases hu.symm.trans h
      exact .inr (.inr ⟨rfl, busy, transition⟩)
    · rw [coreMove_of_not_busy (s := s.popTurn) busy] at h
      cases h
      exact .inr (.inl ⟨rfl, busy, rfl⟩)

/-! ## The invariant (R25, R26, R30, R71, R245) -/

section Invariant

variable {s t : State}

/-- The error registers of a state that is not in ERROR and holds no error. -/
theorem errorRegsLegal_of_none (status : t.status ≠ .error) (err : t.err = .none) (errInfo : t.errInfo = 0) :
    t.ErrorRegsLegal :=
  ⟨iff_of_false status (not_not_intro err), fun _ => errInfo⟩

/-- The error registers after an error. -/
theorem errorRegsLegal_of_error (status : t.status = .error) (err : t.err ≠ .none)
    (info : t.err ≠ .invalidReference → t.errInfo = 0) : t.ErrorRegsLegal :=
  ⟨iff_of_true status err, info⟩

/-- Writes that keep the framer's bounds keep the invariant. -/
theorem Writes.inv (writes : Writes s t) (seq : s.SeqLegal → t.SeqLegal) (inv : s.Inv) : t.Inv := by
  obtain ⟨memory, ibLegal, errorRegs, noIo, seqLegal⟩ := inv
  refine ⟨writes.memory memory, (writes.lengths seqLegal).ib ibLegal, ?_, writes.err ▸ noIo, seq seqLegal⟩
  unfold State.ErrorRegsLegal
  rw [writes.status, writes.err, writes.errInfo]
  exact errorRegs

/-- A rejected command keeps the invariant (R247). -/
theorem rejectCommand_inv (inv : s.Inv) : s.rejectCommand.Inv := by
  obtain ⟨memory, ibLegal, _, _, seqLegal⟩ := inv
  exact ⟨memory, ibLegal, errorRegsLegal_of_error rfl (by simp) fun _ => rfl, by simp, seqLegal⟩

/-- So does the start of an operation (R32). -/
theorem startOp_inv (inv : s.Inv) (c : BitVec 4) : (s.startOp c).Inv := by
  obtain ⟨memory, ibLegal, _, _, _⟩ := inv
  exact ⟨memory, ibLegal, errorRegsLegal_of_none (by simp) rfl rfl, by simp, trivial⟩

/-- Reset establishes the invariant, whatever the state (R280). -/
theorem resetCore_inv (s : State) : s.resetCore.Inv :=
  ⟨⟨.nil, .nil, .nil, .nil⟩, exceeds_zero _, errorRegsLegal_of_none nofun rfl rfl, nofun, trivial⟩

theorem CoreTransition.inv (h : CoreTransition s t) (inv : s.Inv) : t.Inv := by
  have ⟨memory, ibLegal, _, _, seqLegal⟩ := inv
  cases h with
  | goesOn writes seq => exact writes.inv seq inv
  | completes writes =>
    exact ⟨State.complete_memoryWf (writes.memory memory) _, (writes.lengths seqLegal).ib ibLegal,
      errorRegsLegal_of_none (by simp) rfl rfl, by simp, trivial⟩
  | raises writes kind =>
    obtain ⟨⟨notNone, notIo, _⟩, info⟩ := kind
    exact ⟨State.raise_memoryWf (writes.memory memory) _ _ _ _, (writes.lengths seqLegal).ib ibLegal,
      errorRegsLegal_of_error rfl notNone info, notIo, trivial⟩
  | rejects => exact rejectCommand_inv inv

theorem HostTransition.inv {a : HostAct} (h : HostTransition s a t) (inv : s.Inv) : t.Inv := by
  cases h with
  | accesses writes seq => exact writes.inv seq inv
  | starts _ _ => exact startOp_inv inv _
  | rejects _ _ => exact rejectCommand_inv inv
  | resets => exact resetCore_inv s

end Invariant

/-- Settles O48: every transition of the host or the core keeps the invariant; taking the turn off the agenda
touches nothing it speaks of. -/
theorem everyStepKeepsTheInvariant : Obligations.EveryStepKeepsTheInvariant := by
  unfold Obligations.EveryStepKeepsTheInvariant
  intro s t inv h
  have popped : s.popTurn.Inv := inv
  rcases step_cases h with ⟨a, _, host⟩ | ⟨_, _, rfl⟩ | ⟨_, _, core⟩
  · exact host.inv popped
  · exact popped
  · exact core.inv popped

/-! ## Legal lengths (R30, R252) -/

theorem HostTransition.lengths {s t : State} {a : HostAct} (h : HostTransition s a t) (seqLegal : s.SeqLegal) :
    LengthsKept s t := by
  cases h with
  | accesses writes _ => exact writes.lengths seqLegal
  | starts _ _ => exact ⟨id, id, id, id⟩
  | rejects _ _ => exact ⟨id, id, id, id⟩
  | resets =>
    exact ⟨fun _ => exceeds_zero _, fun _ => exceeds_zero _, fun _ => exceeds_zero _, fun _ => exceeds_zero _⟩

/-- A turn of the core keeps legal lengths legal, or ends in ERROR and keeps that of IB legal. -/
theorem CoreTransition.lengths {s t : State} (h : CoreTransition s t) (seqLegal : s.SeqLegal) :
    LengthsKept s t ∨
    t.status = .error ∧ (exceeds s.cfg.ibCap s.ibLen = false → exceeds t.cfg.ibCap t.ibLen = false) := by
  cases h with
  | goesOn writes _ => exact .inl (writes.lengths seqLegal)
  | completes writes =>
    obtain ⟨ib, tb, ob, fb⟩ := writes.lengths seqLegal
    exact .inl ⟨ib, tb, ob, fb⟩
  | raises writes _ => exact .inr ⟨rfl, (writes.lengths seqLegal).ib⟩
  | rejects => exact .inl ⟨id, id, id, id⟩

/-- Settles O49: only an error of the core may leave a length of TB, OB or FB that is not legal. -/
theorem lengthsStayLegalUnlessAnOperationFails : Obligations.LengthsStayLegalUnlessAnOperationFails := by
  unfold Obligations.LengthsStayLegalUnlessAnOperationFails
  intro s t seqLegal h
  have popped : s.popTurn.SeqLegal := seqLegal
  have kept (l : LengthsKept s.popTurn t) {p : Prop} :
      (exceeds s.cfg.ibCap s.ibLen = false → exceeds t.cfg.ibCap t.ibLen = false) ∧
      (exceeds s.cfg.tbCap s.tbLen = false → exceeds t.cfg.tbCap t.tbLen = false ∨ p) ∧
      (exceeds s.cfg.obCap s.obLen = false → exceeds t.cfg.obCap t.obLen = false ∨ p) ∧
      (exceeds s.cfg.fbCap s.fbLen = false → exceeds t.cfg.fbCap t.fbLen = false ∨ p) :=
    ⟨l.ib, fun g => .inl (l.tb g), fun g => .inl (l.ob g), fun g => .inl (l.fb g)⟩
  rcases step_cases h with ⟨a, _, host⟩ | ⟨_, _, rfl⟩ | ⟨turn, busy, core⟩
  · exact kept (host.lengths popped)
  · exact kept ⟨id, id, id, id⟩
  · rcases core.lengths popped with l | ⟨error, ib⟩
    · exact kept l
    · have failed := And.intro turn (And.intro busy error)
      exact ⟨ib, fun _ => .inr failed, fun _ => .inr failed, fun _ => .inr failed⟩

/-! ## The moves of STATUS (R32) -/

/-- A turn of the core leaves STATUS, or ends the operation. -/
theorem CoreTransition.status {s t : State} (h : CoreTransition s t) :
    t.status = s.status ∨ t.EndsDone ∨
    t.status = .error ∧ t.err ≠ .none ∧ (t.err ≠ .invalidReference → t.errInfo = 0) := by
  cases h with
  | goesOn writes _ => exact .inl writes.status
  | completes _ => exact .inr (.inl (State.complete_endsDone _ _))
  | raises _ kind => exact .inr (.inr ⟨rfl, kind.kind.1, kind.info⟩)
  | rejects => exact .inr (.inr ⟨rfl, by simp, fun _ => rfl⟩)

/-- Settles O8: each transition of the host or the core is one line of the table. -/
theorem statusMovesOnlyAsListed : Obligations.StatusMovesOnlyAsListed := by
  unfold Obligations.StatusMovesOnlyAsListed
  intro s t h
  rcases step_cases h with ⟨a, turn, host⟩ | ⟨_, _, rfl⟩ | ⟨turn, busy, core⟩
  · cases host with
    | accesses writes _ => exact .inl writes.status
    | starts idle legal => exact .inr (.inl ⟨idle, rfl, rfl, rfl, _, turn, legal.1, legal.2, rfl⟩)
    | rejects idle illegal => exact .inr (.inr (.inl ⟨idle, ⟨rfl, rfl, rfl⟩, _, turn, illegal⟩))
    | resets => exact .inr (.inr (.inr (.inr (.inr ⟨turn, rfl⟩))))
  · exact .inl rfl
  · rcases core.status with same | done | error
    · exact .inl same
    · exact .inr (.inr (.inr (.inl ⟨busy, turn, done⟩)))
    · exact .inr (.inr (.inr (.inr (.inl ⟨busy, turn, error⟩))))

/-! ## The fetch of a BUSY core (R32, R176) -/

/-- With nothing begun, a code that names an operation is fetched, at the grain at which the operation is one
step. -/
theorem coreMove_of_opStart {s : State} {i : Instr} (busy : s.status = .busy) (start : s.seq = .opStart)
    (code : decodeCommand s.work.opc = .ok i)
    (grain : s.grain = .operation ∨ s.grain = .instruction ∧ s.work.opc ≠ 4 ∧ s.work.opc ≠ 8) :
    coreMove s = .run i := by
  unfold coreMove
  rw [if_neg (not_not_intro busy), start]
  rcases grain with g | ⟨g, not4, not8⟩
  · simp only [g, fetchOperation, code]
  · simp only [g, fetchStepped, if_neg not4, if_neg not8, fetchOperation, code]

/-- Inside a token sequence, above the micro-step, a token is fetched. -/
theorem coreMove_of_dFetch {s : State} (busy : s.status = .busy) (row : s.seq = .dFetch) (grain : s.grain ≠ .micro) :
    coreMove s = fetchToken s := by
  unfold coreMove
  rw [if_neg (not_not_intro busy), row]
  cases g : s.grain with
  | micro => exact absurd g grain
  | operation => rfl
  | instruction => rfl

/-- Settles O6: the move of the core's turn is the fetch of the operation or of the token. -/
theorem stepRunsTheDecodedInstruction : Obligations.StepRunsTheDecodedInstruction := by
  unfold Obligations.StepRunsTheDecodedInstruction
  intro s turn busy
  refine ⟨fun i start code grain => ?_, fun row grain more => ?_, fun row grain last => ?_⟩
  · rw [step_of_core turn, coreMove_of_opStart (s := s.popTurn) busy start code grain]
    rfl
  · rw [step_of_core turn, coreMove_of_dFetch (s := s.popTurn) busy row grain]
    exact congrArg (Move.result s.popTurn) (if_neg more)
  · rw [step_of_core turn, coreMove_of_dFetch (s := s.popTurn) busy row grain]
    exact congrArg (Move.result s.popTurn) (if_pos last)

/-! ## The host's register accesses (R21 to R27, R30, R37) -/

/-- The start of an operation writes neither a control register nor an output (R35). -/
theorem startOp_keepsAllBut (s : State) (c : BitVec 4) : KeepsAllBut [] s (s.startOp c) := by
  refine ⟨.refl s, fun o _ => ?_⟩
  have same := o.kept_refl s
  cases o <;> exact same

/-- Settles O10: a legal value of CMD starts the operation it names. -/
theorem legalCommandStartsTheOperation : Obligations.LegalCommandStartsTheOperation := by
  unfold Obligations.LegalCommandStartsTheOperation
  intro s v idle low high
  obtain ⟨i, code⟩ := decodeCommand_legal ⟨low, high⟩
  have written : hostStep s (.writeReg .cmd v) = .next (s.startOp (BitVec.ofNat 4 v)) := by
    rw [hostStep_of_not_busy idle, ← writeCommand_of_ok idle code]
    exact if_pos (by omega)
  exact ⟨_, written, rfl, rfl, rfl, rfl, rfl, ⟨i, code⟩, startOp_keepsAllBut s _⟩

/-- A read of a register other than CMD delivers its value and changes nothing else (R71). -/
theorem hostStep_readReg {s : State} (idle : s.status ≠ .busy) {r : Reg} (hr : r ≠ .cmd) :
    hostStep s (.readReg r) = .next { s with bus := .num (s.readReg r) } := by
  rw [hostStep_of_not_busy idle]
  simp only [hostMove, State.deliverReg, if_neg hr]

/-- Settles O14: a read delivers the register, and of CMD a free value of four bits. -/
theorem hostReadsDeliverTheRegister : Obligations.HostReadsDeliverTheRegister := by
  unfold Obligations.HostReadsDeliverTheRegister
  intro s idle
  have read {r : Reg} (hr : r ≠ .cmd) := hostStep_readReg idle hr
  exact ⟨read nofun, read nofun, read nofun, read nofun, read nofun, read nofun, read nofun, read nofun,
    read nofun, read nofun, read nofun, read nofun, read nofun, read nofun,
    _, _, hostStep_of_not_busy idle (.readReg .cmd), rfl, BitVec.isLt _, rfl⟩

/-- Settles O16: the register write of each register of the list is the state itself. -/
theorem readOnlyRegistersIgnoreHostWrites : Obligations.ReadOnlyRegistersIgnoreHostWrites := by
  unfold Obligations.ReadOnlyRegistersIgnoreHostWrites
  intro s r v idle hr
  rw [hostStep_of_not_busy idle]
  cases r with
  | status | err | errInfo | crcOut | crcStored | mfOff | mfLen | eq => rfl
  | cmd | window | posIn | ibLen | tbLen | obLen | fbLen => exact absurd hr (by decide)

end Sys2Proof.Machine

/-! PROOFS. The host's accesses to memory (spec/20_memory.md R70, R71) and to the registers it writes
(spec/10_state.md R22, R23, R30, R37): what each access answers is said once; that a read delivers the last write,
and that an access changes one location, are read off those equations. -/

namespace Sys2Proof.Machine

section HostAccess

variable {s t : State}

/-! ## One byte of a buffer (R70, R71) -/

@[simp] theorem State.setByte_cfg (s : State) (b : ByteSpace) (i : Nat) (v : Byte) : (s.setByte b i v).cfg = s.cfg := by
  cases b <;> rfl

@[simp] theorem State.setByte_status (s : State) (b : ByteSpace) (i : Nat) (v : Byte) :
    (s.setByte b i v).status = s.status := by
  cases b <;> rfl

/-- A byte of the buffer after a write of one of its bytes (R71). -/
@[simp] theorem State.byteAt_setByte (s : State) (b : ByteSpace) (i : Nat) (v : Byte) (j : Nat) :
    (s.setByte b i v).byteAt b j = if j = i then v else s.byteAt b j := by
  cases b <;> exact Buf.read_write ..

/-! ## What an access answers on a state that is not BUSY -/

theorem hostStep_writeByte (idle : s.status ≠ .busy) {b : ByteSpace} {i : Nat} (v : Byte)
    (inside : full (b.cap s.cfg) i = false) : hostStep s (.writeByte b i v) = .next (s.setByte b i v) := by
  rw [hostStep_of_not_busy idle]
  exact if_neg (ne_true_of_eq_false inside)

theorem hostStep_readByte (idle : s.status ≠ .busy) {b : ByteSpace} {i : Nat} (inside : full (b.cap s.cfg) i = false) :
    hostStep s (.readByte b i) = .next { s with bus := .byte (s.byteAt b i) } := by
  rw [hostStep_of_not_busy idle]
  exact if_neg (ne_true_of_eq_false inside)

theorem hostStep_writeToken (idle : s.status ≠ .busy) {i : Nat} (v : Token) (inside : full s.cfg.tbCap i = false) :
    hostStep s (.writeToken i v) = .next { s with tb := s.tb.write i v } := by
  rw [hostStep_of_not_busy idle]
  exact if_neg (ne_true_of_eq_false inside)

theorem hostStep_readToken (idle : s.status ≠ .busy) {i : Nat} (inside : full s.cfg.tbCap i = false) :
    hostStep s (.readToken i) = .next { s with bus := .token (s.tbAt i) } := by
  rw [hostStep_of_not_busy idle]
  exact if_neg (ne_true_of_eq_false inside)

/-- A guarded write that is a move gives the state offered. -/
theorem eq_of_guarded_next {p : Prop} [Decidable p] {r : Refusal}
    (h : (if p then .next t else .refused r : Result) = .next s) : t = s := by
  split at h
  · cases h; rfl
  · cases h

/-! ## A read after a write -/

/-- A register that holds `v` after a write reads as `v`. -/
theorem readReg_after_writeReg {r : Reg} {v : Nat} (written : hostStep s (.writeReg r v) = .next t)
    (idle : t.status ≠ .busy) (hr : r ≠ .cmd) (holds : t.readReg r = v) :
    ∃ t u, hostStep s (.writeReg r v) = .next t ∧ hostStep t (.readReg r) = .next u ∧ u.bus = .num v :=
  ⟨t, _, written, hostStep_readReg idle hr, congrArg BusData.num holds⟩

theorem readByte_after_writeByte (idle : s.status ≠ .busy) {b : ByteSpace} {i j : Nat} (v : Byte)
    (hi : full (b.cap s.cfg) i = false) (hj : full (b.cap s.cfg) j = false) :
    ∃ t u, hostStep s (.writeByte b i v) = .next t ∧ hostStep t (.readByte b j) = .next u ∧
      u.bus = .byte (if j = i then v else s.byteAt b j) :=
  ⟨_, _, hostStep_writeByte idle v hi, hostStep_readByte (by simpa using idle) (by simpa using hj),
    congrArg BusData.byte (s.byteAt_setByte b i v j)⟩

theorem readToken_after_writeToken (idle : s.status ≠ .busy) {i j : Nat} (v : Token)
    (hi : full s.cfg.tbCap i = false) (hj : full s.cfg.tbCap j = false) :
    ∃ t u, hostStep s (.writeToken i v) = .next t ∧ hostStep t (.readToken j) = .next u ∧
      u.bus = .token (if j = i then v else s.tbAt j) :=
  ⟨_, _, hostStep_writeToken idle v hi, hostStep_readToken (s := { s with tb := s.tb.write i v }) idle hj,
    congrArg BusData.token (Buf.read_write ..)⟩

end HostAccess

/-- Settles O13: each write is accepted, leaves the state not BUSY, and leaves the value where the read takes it. -/
theorem hostReadsBackWhatItWrote : Obligations.HostReadsBackWhatItWrote := by
  unfold Obligations.HostReadsBackWhatItWrote
  intro s idle
  have written (a : HostAct) {t : State} (h : hostMove s a = .next t) : hostStep s a = .next t :=
    (hostStep_of_not_busy idle a).trans h
  refine ⟨fun v hv => ?window, fun v hw => ?posIn, fun v hw hc => ?ibLen, fun v hw hc => ?tbLen,
    fun v hw hc => ?obLen, fun v hw hc => ?fbLen, fun b i j v hi hj => readByte_after_writeByte idle v hi hj,
    fun i j v hi hj => readToken_after_writeToken idle v hi hj⟩
  case window =>
    have width : (BitVec.ofNat 16 v).toNat = v := (BitVec.toNat_ofNat v 16).trans (Nat.mod_eq_of_lt hv)
    exact readReg_after_writeReg (written _ (if_pos hv)) idle nofun width
  case posIn => exact readReg_after_writeReg (written _ (if_pos hw)) idle nofun rfl
  case ibLen => exact readReg_after_writeReg (written _ (writeLength_eq_next hc hw)) idle nofun rfl
  case tbLen => exact readReg_after_writeReg (written _ (writeLength_eq_next hc hw)) idle nofun rfl
  case obLen => exact readReg_after_writeReg (written _ (writeLength_eq_next hc hw)) idle nofun rfl
  case fbLen => exact readReg_after_writeReg (written _ (writeLength_eq_next hc hw)) idle nofun rfl

/-- Settles O15: a register write that is a move gives the state with that register replaced; a buffer access below
the capacity is its equation. -/
theorem hostAccessChangesOneLocation : Obligations.HostAccessChangesOneLocation := by
  unfold Obligations.HostAccessChangesOneLocation
  intro s idle
  have move {a : HostAct} {t : State} (h : hostStep s a = .next t) : hostMove s a = .next t :=
    (hostStep_of_not_busy idle a).symm.trans h
  refine ⟨fun v t h => ?window, fun v t h => ?posIn, fun v t h => ?ibLen, fun v t h => ?tbLen, fun v t h => ?obLen,
    fun v t h => ?fbLen, fun i v hi => ⟨_, hostStep_writeByte idle v hi, rfl⟩,
    fun i v hi => ⟨_, hostStep_writeByte idle v hi, rfl⟩, fun i v hi => ⟨_, hostStep_writeByte idle v hi, rfl⟩,
    fun i v hi => ⟨_, hostStep_writeToken idle v hi, rfl⟩, fun b i hi => hostStep_readByte idle hi,
    fun i hi => hostStep_readToken idle hi⟩
  case window => cases eq_of_guarded_next (move h); rfl
  case posIn => cases eq_of_guarded_next (move h); rfl
  case ibLen => obtain ⟨_, rfl⟩ := writeLength_next (move h); rfl
  case tbLen => obtain ⟨_, rfl⟩ := writeLength_next (move h); rfl
  case obLen => obtain ⟨_, rfl⟩ := writeLength_next (move h); rfl
  case fbLen => obtain ⟨_, rfl⟩ := writeLength_next (move h); rfl

end Sys2Proof.Machine

/-! PROOFS. The encodings (spec/30_encoding.md): the word of a token and its record bytes are one encoding (R91, R92),
the kind test on the word (R96), and a placed word is the instruction the next step fetches (R106). -/

namespace Sys2Proof

/-! ## The 40-bit word of a token (R91) -/

/-- The fields of a token's word are the token. -/
@[simp] theorem tokenOfWord_tokenWord (t : Token) : tokenOfWord (tokenWord t) = t := by
  have symbol : (tokenWord t).extractLsb' 32 8 = t.symbol := BitVec.extractLsb'_append_eq_left
  have length : (tokenWord t).extractLsb' 16 16 = t.length :=
    (BitVec.extractLsb'_append_eq_of_add_le (by decide)).trans BitVec.extractLsb'_append_eq_left
  have offset : (tokenWord t).extractLsb' 0 16 = t.offset :=
    (BitVec.extractLsb'_append_eq_of_add_le (by decide)).trans BitVec.extractLsb'_append_eq_right
  simp only [tokenOfWord, symbol, length, offset]

/-- The three fields cover the word. -/
@[simp] theorem tokenWord_tokenOfWord (w : BitVec 40) : tokenWord (tokenOfWord w) = w := by
  have low : w.extractLsb' 16 16 ++ w.extractLsb' 0 16 = w.extractLsb' 0 32 :=
    BitVec.extractLsb'_append_extractLsb'_eq_extractLsb' rfl
  have whole : w.extractLsb' 32 8 ++ w.extractLsb' 0 32 = w.extractLsb' 0 40 :=
    BitVec.extractLsb'_append_extractLsb'_eq_extractLsb' rfl
  simp only [tokenWord, tokenOfWord]
  rw [low, whole, BitVec.extractLsb'_eq_self]

theorem tokenOfWord_eq_iff {w : BitVec 40} {t : Token} : tokenOfWord w = t ↔ w = tokenWord t :=
  ⟨fun h => by rw [← h, tokenWord_tokenOfWord], fun h => by rw [h, tokenOfWord_tokenWord]⟩

theorem tokenOfWord_offset_toNat (w : BitVec 40) : (tokenOfWord w).offset.toNat = w.toNat % 2 ^ 16 :=
  BitVec.extractLsb'_toNat 0 16 w

theorem tokenOfWord_length_toNat (w : BitVec 40) : (tokenOfWord w).length.toNat = w.toNat / 2 ^ 16 % 2 ^ 16 := by
  rw [← Nat.shiftRight_eq_div_pow]
  exact BitVec.extractLsb'_toNat 16 16 w

theorem tokenOfWord_symbol_toNat (w : BitVec 40) : (tokenOfWord w).symbol.toNat = w.toNat / 2 ^ 32 % 2 ^ 8 := by
  rw [← Nat.shiftRight_eq_div_pow]
  exact BitVec.extractLsb'_toNat 32 8 w

/-- The little-endian bytes of a word are the record of the token it holds (R91, R92). -/
theorem leBytes_toNat (w : BitVec 40) : leBytes 5 w.toNat = recordBytes (tokenOfWord w) := by
  have byte {m n : Nat} (h : m % 2 ^ 8 = n % 2 ^ 8) : BitVec.ofNat 8 m = BitVec.ofNat 8 n :=
    BitVec.eq_of_toNat_eq (by rw [BitVec.toNat_ofNat, BitVec.toNat_ofNat, h])
  simp only [recordBytes, leBytes, tokenOfWord_offset_toNat, tokenOfWord_length_toNat, tokenOfWord_symbol_toNat,
    List.cons_append, List.nil_append, List.cons.injEq, and_true]
  refine ⟨byte ?_, byte ?_, byte ?_, byte ?_, byte ?_⟩ <;> omega

/-! ## The kind test (R96) -/

/-- The mask of R96 keeps the offset and the length of a word. -/
theorem and_lowMask_eq_zero_iff (w : BitVec 40) :
    w &&& 0x00FFFFFFFF = 0 ↔ (tokenOfWord w).offset = 0 ∧ (tokenOfWord w).length = 0 := by
  have low : (w &&& 0x00FFFFFFFF).toNat = w.toNat % 2 ^ 32 := Nat.and_two_pow_sub_one_eq_mod w.toNat 32
  rw [← BitVec.toNat_inj, low, ← BitVec.toNat_inj, ← BitVec.toNat_inj, tokenOfWord_offset_toNat,
    tokenOfWord_length_toNat]
  change _ = 0 ↔ _ = 0 ∧ _ = 0
  omega

/-- The token `(0, 0, s)` is the only one that is LIT s. -/
theorem decodeToken_eq_lit_iff {t : Token} {s : Byte} : decodeToken t = .lit s ↔ t = ⟨0, 0, s⟩ := by
  obtain ⟨offset, length, symbol⟩ := t
  unfold decodeToken
  split
  next zero => obtain ⟨rfl, rfl⟩ := zero; simp
  next other => exact ⟨nofun, by rintro ⟨⟩; exact absurd ⟨rfl, rfl⟩ other⟩

/-- The word of `(0, 0, s)` is the symbol above 32 zero bits. -/
theorem tokenWord_lit (s : Byte) : tokenWord ⟨0, 0, s⟩ = s ++ (0 : BitVec 32) :=
  congrArg (s ++ ·) (by decide : (0 : Half) ++ (0 : Half) = (0 : BitVec 32))

/-- Settles O3: the kind test is the masked test, and the words of LIT are those of the tokens `(0, 0, s)`. -/
theorem tokenKindIsDecidedByOffsetAndLength : Obligations.TokenKindIsDecidedByOffsetAndLength := by
  unfold Obligations.TokenKindIsDecidedByOffsetAndLength
  intro w
  refine ⟨if_congr (and_lowMask_eq_zero_iff w).symm rfl rfl, exists_congr fun s => ?_⟩
  rw [decodeToken_eq_lit_iff, tokenOfWord_eq_iff, tokenWord_lit]

/-! ## Decoding a record and a table word (R94, R106) -/

/-- A record decodes to what the kind test gives for its token. -/
theorem decodeCode_recordBytes (t : Token) : decodeCode (.record (recordBytes t)) = .ok (decodeToken t) := by
  have record := decodeRecord_recordBytes_append t []
  rw [List.append_nil] at record
  simp only [decodeCode, record]

/-- Settles O4: the word's bytes are the record of the token it holds. -/
theorem wordAndRecordAreOneEncoding : Obligations.WordAndRecordAreOneEncoding := by
  unfold Obligations.WordAndRecordAreOneEncoding
  intro t
  have bytes := leBytes_toNat (tokenWord t)
  rw [tokenOfWord_tokenWord] at bytes
  exact ⟨bytes, tokenOfWord_tokenWord t, decodeCode_recordBytes t⟩

theorem eq_ok_of_toOption_eq_some {ε α : Type} {x : Except ε α} {a : α} (h : x.toOption = some a) : x = .ok a := by
  cases x with
  | error e => cases h
  | ok b => cases h; rfl

/-- The instruction of a table word: a CMD value's operation, or a token of the word (log 16). -/
theorem decodeTableWord_cases {nbits w : Nat} {i : Instr} (h : decodeTableWord nbits w = some i) :
    (nbits ≤ 8 ∧ decodeCommand (BitVec.ofNat 4 w) = .ok i) ∨
    (¬ nbits ≤ 8 ∧ decodeToken (tokenOfWord (BitVec.ofNat 40 w)) = i) := by
  unfold decodeTableWord at h
  split at h
  next short =>
    split at h
    · exact .inl ⟨short, eq_ok_of_toOption_eq_some h⟩
    · cases h
  next long =>
    split at h
    next inside =>
      have value : (BitVec.ofNat 40 w).toNat = w := (BitVec.toNat_ofNat w 40).trans (Nat.mod_eq_of_lt inside)
      have bytes := leBytes_toNat (BitVec.ofNat 40 w)
      rw [value] at bytes
      rw [bytes, decodeCode_recordBytes] at h
      exact .inr ⟨long, Option.some.inj h⟩
    · cases h

/-- Settles O5: each word is a closed case of the decoder. -/
theorem sampleWordsDecode : Obligations.SampleWordsDecode := by
  unfold Obligations.SampleWordsDecode
  decide

end Sys2Proof

namespace Sys2Proof.Machine

/-! ## The step from a placed word (R106; log 16) -/

/-- The core's turn is next once a word has been placed, whatever the host was about to do. -/
theorem State.placeWord_turn (s : State) (nbits w : Nat) : (s.placeWord nbits w).turn = .core := by
  have head : (s.placeWord nbits w).agenda = if s.agenda = [] then [] else .core :: s.agenda := by
    by_cases short : nbits ≤ 8
    · exact congrArg State.agenda (if_pos short)
    · exact congrArg State.agenda (if_neg short)
  rw [State.turn, head]
  split <;> rfl

/-- A placed CMD value is latched in OPC as by the host's CMD write, at the grain of whole operations. -/
theorem State.placeWord_command (s : State) {nbits : Nat} (w : Nat) (short : nbits ≤ 8) :
    (s.placeWord nbits w).status = .busy ∧ (s.placeWord nbits w).seq = .opStart ∧
      (s.placeWord nbits w).grain = .operation ∧ (s.placeWord nbits w).work.opc = BitVec.ofNat 4 w := by
  have placed : s.placeWord nbits w = _ := if_pos short
  rw [placed]
  exact ⟨rfl, rfl, rfl, rfl⟩

/-- A placed token stands at TIX, inside the token sequence of a running DECODE that is not stepped row by row. -/
theorem State.placeWord_token (s : State) {nbits : Nat} (w : Nat) (long : ¬ nbits ≤ 8) :
    (s.placeWord nbits w).status = .busy ∧ (s.placeWord nbits w).seq = .dFetch ∧
      (s.placeWord nbits w).grain ≠ .micro ∧ (s.placeWord nbits w).work.tix ≠ (s.placeWord nbits w).tbLen ∧
      (s.placeWord nbits w).tbAt (s.placeWord nbits w).work.tix = tokenOfWord (BitVec.ofNat 40 w) := by
  have placed : s.placeWord nbits w = _ := if_neg long
  rw [placed]
  refine ⟨rfl, rfl, ?grain, ?inside, ?token⟩
  case grain =>
    change (if s.grain = .micro then .instruction else s.grain) ≠ .micro
    split
    · decide
    · assumption
  case inside =>
    change s.work.tix ≠ max s.tbLen (s.work.tix + 1)
    omega
  case token => exact (Buf.read_write ..).trans (if_pos rfl)

/-- Settles O7: the step from a placed word is a fetch (O6), of the operation latched in OPC or of the token at TIX. -/
theorem placedWordRunsNext : Obligations.PlacedWordRunsNext := by
  unfold Obligations.PlacedWordRunsNext
  intro s nbits w i decodes
  have fetch := stepRunsTheDecodedInstruction _ (s.placeWord_turn nbits w)
  rcases decodeTableWord_cases decodes with ⟨short, code⟩ | ⟨long, rfl⟩
  · obtain ⟨busy, start, grain, opc⟩ := s.placeWord_command w short
    obtain ⟨operation, _, _⟩ := fetch busy
    exact operation i start (opc ▸ code) (.inl grain)
  · obtain ⟨busy, row, grain, inside, token⟩ := s.placeWord_token w long
    obtain ⟨_, tokens, _⟩ := fetch busy
    exact token ▸ tokens row grain inside

/-! ## The term `MATCH 0, 0, s` (R102, R178; log 17) -/

/-- Settles O29: the reference check refuses offset 0. -/
theorem illFormedMatchRaisesInvalidReference : Obligations.IllFormedMatchRaisesInvalidReference := by
  unfold Obligations.IllFormedMatchRaisesInvalidReference
  intro s symbol
  have refused : matchBytes s.cfg.obCap s.obBytes 0 0 symbol = .error .invalidReference := if_pos (.inl rfl)
  exact ⟨rfl, _, exec_matchTok_of_error refused, State.raise_endsError ..⟩

end Sys2Proof.Machine

/-! PROOFS. The checksum (spec/40_checksum.md): a bit step is linear over XOR, whence the table-driven update (R125);
a byte step loses nothing of the register or of the byte, whence a change of one byte is detected (R129); and what
CRC32 leaves (R121, R126). -/

namespace Sys2Proof.Machine

/-! ## The bit steps are linear, and a shift on zero bits (R125) -/

theorem crcBit_xor (x y : Word32) : crcBit (x ^^^ y) = crcBit x ^^^ crcBit y := by
  unfold crcBit
  rw [BitVec.getLsbD_xor, BitVec.ushiftRight_xor_distrib]
  cases x.getLsbD 0 <;> cases y.getLsbD 0
  case true.true =>
    calc x >>> 1 ^^^ y >>> 1
        = x >>> 1 ^^^ y >>> 1 ^^^ (crcPoly ^^^ crcPoly) := by rw [BitVec.xor_self, BitVec.xor_zero]
      _ = (x >>> 1 ^^^ crcPoly) ^^^ (y >>> 1 ^^^ crcPoly) := by ac_rfl
  case false.false => rfl
  case false.true => exact BitVec.xor_assoc ..
  case true.false =>
    change x >>> 1 ^^^ y >>> 1 ^^^ crcPoly = (x >>> 1 ^^^ crcPoly) ^^^ y >>> 1
    ac_rfl

theorem crcBits_xor (n : Nat) (x y : Word32) : crcBits n (x ^^^ y) = crcBits n x ^^^ crcBits n y := by
  induction n generalizing x y with
  | zero => rfl
  | succ n ih => simp only [crcBits, crcBit_xor, ih]

/-- Bit steps that meet zero bits only never XOR the polynomial in. -/
theorem crcBits_of_low_zero (n : Nat) (x : Word32) (zero : ∀ i < n, x.getLsbD i = false) :
    crcBits n x = x >>> n := by
  induction n generalizing x with
  | zero => exact (BitVec.ushiftRight_zero x).symm
  | succ n ih =>
    have step : crcBit x = x >>> 1 := by simp only [crcBit, zero 0 (by omega), Bool.false_eq_true, if_false]
    have rest : ∀ i < n, (x >>> 1).getLsbD i = false := fun i hi => by
      rw [BitVec.getLsbD_ushiftRight]
      exact zero (1 + i) (by omega)
    rw [crcBits, step, ih _ rest, ← BitVec.shiftRight_add, Nat.add_comm]

/-- A register is its upper bits and its low byte, the index of the table. -/
theorem xor_low_byte (x : Word32) : (x >>> 8) <<< 8 ^^^ (x &&& 0xFF) = x := by
  have mask : ∀ i < 32, (0xFF : Word32).getLsbD i = decide (i < 8) := by decide
  apply BitVec.eq_of_getLsbD_eq
  intro i hi
  rw [BitVec.getLsbD_xor, BitVec.getLsbD_and, mask i hi]
  by_cases low : i < 8
  · simp [low]
  · simp [low, hi, Nat.add_sub_cancel' (Nat.le_of_not_lt low)]

/-- A byte enters below bit 8. -/
theorem xor_byte_ushiftRight (crc : Word32) (b : Byte) : (crc ^^^ b.setWidth 32) >>> 8 = crc >>> 8 := by
  rw [BitVec.ushiftRight_xor_distrib]
  ext i hi
  simp

/-- Settles O19: by linearity the low byte goes through the table, and the other bits are only shifted. -/
theorem tableDrivenCrcIsTheSameFunction : Obligations.TableDrivenCrcIsTheSameFunction := by
  unfold Obligations.TableDrivenCrcIsTheSameFunction
  intro crc b
  have upper (x : Word32) : crcBits 8 ((x >>> 8) <<< 8) = x >>> 8 := by
    rw [crcBits_of_low_zero 8 _ fun i hi => by simp [hi]]
    ext i hi
    simpa using BitVec.lt_of_getLsbD
  calc crcByte crc b
      = crcBits 8 (((crc ^^^ b.setWidth 32) >>> 8) <<< 8 ^^^ ((crc ^^^ b.setWidth 32) &&& 0xFF)) :=
        congrArg (crcBits 8) (xor_low_byte _).symm
    _ = (crc >>> 8) ^^^ crcBits 8 ((crc ^^^ b.setWidth 32) &&& 0xFF) := by
        rw [crcBits_xor, upper, xor_byte_ushiftRight]

/-! ## A byte step loses nothing (R129) -/

/-- The register after a byte determines the register before it. -/
theorem crcByte_injective_left (b : Byte) : Function.Injective fun r => crcByte r b :=
  (crcBits_injective 8).comp fun _ _ => (BitVec.xor_left_inj _).mp

/-- The register before and after a byte determine the byte. -/
theorem crcByte_injective_right (r : Word32) : Function.Injective (crcByte r) := by
  intro b b' h
  have entered : b.setWidth 32 = b'.setWidth 32 := (BitVec.xor_right_inj r).mp (crcBits_injective 8 h)
  simpa using congrArg (BitVec.setWidth 8) entered

theorem crcFold_injective (bs : List Byte) : Function.Injective fun r => crcFold r bs := by
  induction bs with
  | nil => exact Function.injective_id
  | cons b bs ih => exact ih.comp (crcByte_injective_left b)

/-- Settles O20: the registers before the byte agree, and equal checksums trace back to equal registers after it. -/
theorem checksumDetectsAnyChangeOfOneByte : Obligations.ChecksumDetectsAnyChangeOfOneByte := by
  unfold Obligations.ChecksumDetectsAnyChangeOfOneByte
  intro before after b b' h
  have folds : crcFold crcInit (before ++ b :: after) = crcFold crcInit (before ++ b' :: after) :=
    (BitVec.xor_left_inj _).mp h
  rw [crcFold_append, crcFold_append] at folds
  have registers : crcByte (crcFold crcInit before) b = crcByte (crcFold crcInit before) b' :=
    crcFold_injective after folds
  exact crcByte_injective_right _ registers

/-! ## CRC32 (R121, R126) -/

theorem crcBits_eq_iterate (n : Nat) (r : Word32) : crcBits n r = crcBit^[n] r := by
  induction n generalizing r with
  | zero => rfl
  | succ n ih => exact ih (crcBit r)

/-- The checksum as one fold, its eight steps an iterate: the loops of R121. -/
theorem checksum_eq_foldl (bs : List Byte) :
    checksum bs = bs.foldl (fun r b => crcBit^[8] (r ^^^ b.setWidth 32)) crcInit ^^^ crcXorOut := by
  have byte : crcByte = fun r b => crcBit^[8] (r ^^^ b.setWidth 32) :=
    funext₂ fun r b => crcBits_eq_iterate 8 (r ^^^ b.setWidth 32)
  rw [checksum, crcFold, byte]

/-- Settles O18: the answer of CRC32 is one write of CRC_OUT and its completion. -/
theorem crc32LeavesTheChecksum : Obligations.Crc32LeavesTheChecksum := by
  unfold Obligations.Crc32LeavesTheChecksum
  refine ⟨rfl, checksum_eq_foldl, fun s => ⟨_, exec_crc32 s, State.complete_endsDone .., rfl, ?frame, ?empty, ?one⟩⟩
  case frame => exact (keepsAllBut_crcOut (List.mem_singleton_self _)).trans (complete_keepsAllBut _ 1)
  case empty =>
    intro length
    have bytes : s.ibBytes = [] := by rw [State.ibBytes, length]; rfl
    exact (congrArg checksum bytes).trans (by decide)
  case one =>
    intro length value
    have bytes : s.ibBytes = [0x41] := by rw [State.ibBytes, length, ← value]; rfl
    exact (congrArg checksum bytes).trans (by decide)

end Sys2Proof.Machine

/-! PROOFS. The match finder (spec/41_match_finder.md): what the candidate scan has found after any number of
candidates, whence FIND's result (R137, R140, R141) and its bounds (R146); and the encoder with WINDOW 0 (R148, R159). -/

namespace Sys2Proof.Machine

/-! ## Match lengths and candidates (R137, R142) -/

section MatchFinder

variable {buffer : List Byte} {position window p L : Nat} {m : Nat × Nat}

/-- The conditions of R142 admit one largest length only, the one the extension finds. -/
theorem IsMatchLength.eq_matchLength (hp : p ≤ position) (h : IsMatchLength buffer position p L) :
    L = matchLength buffer position p := by
  obtain ⟨agrees, largest⟩ := h
  obtain ⟨agrees', largest'⟩ := matchLength_isMatchLength (buffer := buffer) hp
  exact Nat.le_antisymm (largest' L agrees) (largest _ agrees')

/-- A window one larger has one candidate more, the farthest. -/
theorem candidate_succ_iff (h : window < position) :
    Candidate position (window + 1) p ↔ Candidate position window p ∨ p = position - 1 - window := by
  unfold Candidate
  omega

/-- A window beyond the history adds no candidate (R149). -/
theorem candidate_min_iff : Candidate position (min position window) p ↔ Candidate position window p := by
  unfold Candidate
  omega

/-! ## The candidate scan (R140, R141) -/

/-- An offset and a length are the answer over the candidates of a window: no candidate matches further, and the offset
names the nearest candidate of that length, or is 0 with it. -/
structure NearestLongest (buffer : List Byte) (position window : Nat) (m : Nat × Nat) : Prop where
  longest : ∀ p, Candidate position window p → matchLength buffer position p ≤ m.2
  noMatch : m.2 = 0 → m.1 = 0
  nearest : m.2 ≠ 0 → ∃ p, Candidate position window p ∧ m.1 = position - p ∧
    m.2 = matchLength buffer position p ∧
    ∀ q, Candidate position window q → p < q → matchLength buffer position q < m.2

/-- No candidate: `(0, 0)`. -/
theorem nearestLongest_zero (buffer : List Byte) (position : Nat) : NearestLongest buffer position 0 (0, 0) where
  longest _ hp := absurd hp.1 (Nat.not_le.mpr hp.2)
  noMatch _ := rfl
  nearest h := absurd rfl h

/-- The next candidate is the farthest so far, and replaces the best only when it matches further. -/
theorem NearestLongest.step (h : NearestLongest buffer position window m) (more : window < position)
    (hp : p = position - 1 - window) :
    NearestLongest buffer position (window + 1)
      (if matchLength buffer position p > m.2 then (position - p, matchLength buffer position p) else m) := by
  have farthest : ∀ q, Candidate position window q → p < q := by
    unfold Candidate
    omega
  have candidates : ∀ {q}, Candidate position (window + 1) q ↔ Candidate position window q ∨ q = p := by
    rw [hp]
    exact candidate_succ_iff more
  split
  case isTrue better =>
    have shorter : ∀ q, Candidate position window q →
        matchLength buffer position q < matchLength buffer position p :=
      fun q hq => Nat.lt_of_le_of_lt (h.longest q hq) better
    refine ⟨fun q hq => ?_, fun zero => ?_,
      fun _ => ⟨p, candidates.mpr (.inr rfl), rfl, rfl, fun q hq hpq => ?_⟩⟩
    · rcases candidates.mp hq with hq | rfl
      · exact Nat.le_of_lt (shorter q hq)
      · exact Nat.le_refl _
    · exact absurd (Nat.lt_of_lt_of_eq better zero) (Nat.not_lt_zero _)
    · rcases candidates.mp hq with hq | rfl
      · exact shorter q hq
      · exact absurd hpq (Nat.lt_irrefl q)
  case isFalse noBetter =>
    refine ⟨fun q hq => ?_, h.noMatch, fun pos => ?_⟩
    · rcases candidates.mp hq with hq | rfl
      · exact h.longest q hq
      · exact Nat.not_lt.mp noBetter
    · obtain ⟨best, hbest, offset, length, nearer⟩ := h.nearest pos
      refine ⟨best, candidates.mpr (.inl hbest), offset, length, fun q hq hlt => ?_⟩
      rcases candidates.mp hq with hq | rfl
      · exact nearer q hq hlt
      · exact absurd hlt (Nat.lt_asymm (farthest best hbest))

/-- The scan of `count` more candidates widens the window by as many. -/
theorem NearestLongest.scanCandidates (count : Nat) (h : NearestLongest buffer position window m)
    (inside : window + count ≤ position) :
    NearestLongest buffer position (window + count)
      (scanCandidates buffer position count (position - 1 - window) m) := by
  induction count generalizing window m with
  | zero => exact h
  | succ count ih =>
    have rest := ih (h.step (by omega) rfl) (by omega)
    rwa [Nat.succ_add_eq_add_succ] at rest

/-- `find_longest_match` answers as R142 says. -/
theorem findLongestMatch_nearestLongest (buffer : List Byte) (position window : Nat) :
    NearestLongest buffer position window (findLongestMatch buffer position window) := by
  have scanned := (nearestLongest_zero buffer position).scanCandidates (min position window) (by omega)
  rw [Nat.zero_add] at scanned
  obtain ⟨longest, noMatch, nearest⟩ := scanned
  simp only [candidate_min_iff] at longest nearest
  exact ⟨longest, noMatch, nearest⟩

/-- A match lies wholly before the position, within the window, and its extension within the buffer (R146). -/
theorem NearestLongest.bounds (h : NearestLongest buffer position window m) (pos : m.2 > 0) :
    m.2 ≤ m.1 ∧ m.1 ≤ min window position ∧ position + m.2 ≤ buffer.length := by
  obtain ⟨p, ⟨low, high⟩, offset, length, -⟩ := h.nearest (Nat.ne_of_gt pos)
  obtain ⟨source, target, -⟩ := (matchLength_isMatchLength (buffer := buffer) (Nat.le_of_lt high)).1
  omega

end MatchFinder

/-- Settles O22: the bounds are those of the candidate that the offset names. -/
theorem matchFitsWindowHistoryAndBuffer : Obligations.MatchFitsWindowHistoryAndBuffer := by
  unfold Obligations.MatchFitsWindowHistoryAndBuffer
  intro buffer position window
  have found := findLongestMatch_nearestLongest buffer position window.toNat
  exact ⟨found.noMatch, found.bounds, findLongestMatch_lt buffer position window⟩

/-! ## FIND (R136) -/

/-- Settles O21: the candidate scan gives the nearest longest match, and the two registers hold it untruncated. -/
theorem findNamesTheNearestLongestMatch : Obligations.FindNamesTheNearestLongestMatch := by
  unfold Obligations.FindNamesTheNearestLongestMatch
  intro s
  have isLength {p L : Nat} (hp : Candidate s.posIn s.window.toNat p) :
      IsMatchLength s.ibBytes s.posIn p L → L = matchLength s.ibBytes s.posIn p :=
    IsMatchLength.eq_matchLength (Nat.le_of_lt hp.2)
  obtain ⟨offFits, lenFits⟩ := findLongestMatch_lt s.ibBytes s.posIn s.window
  obtain ⟨longest, noMatch, nearest⟩ := findLongestMatch_nearestLongest s.ibBytes s.posIn s.window.toNat
  refine ⟨_, exec_find s, State.complete_endsDone ..,
    (keepsAllBut_find (by decide)).trans (complete_keepsAllBut _ 2), ?_⟩
  simp only [State.complete_mfLen, State.complete_mfOff]
  generalize findLongestMatch s.ibBytes s.posIn s.window.toNat = m at *
  have off : (BitVec.ofNat 16 m.1).toNat = m.1 := Nat.mod_eq_of_lt offFits
  have len : (BitVec.ofNat 16 m.2).toNat = m.2 := Nat.mod_eq_of_lt lenFits
  have lenZero : BitVec.ofNat 16 m.2 = 0 ↔ m.2 = 0 := by
    rw [← BitVec.toNat_inj, len]
    rfl
  rw [off, len, ne_eq, lenZero]
  refine ⟨fun p L hp hL => isLength hp hL ▸ longest p hp,
    fun zero => congrArg (BitVec.ofNat 16) (noMatch zero), fun pos => ?_⟩
  obtain ⟨p, hp, offset, length, nearer⟩ := nearest pos
  exact ⟨p, hp, offset, length ▸ matchLength_isMatchLength (Nat.le_of_lt hp.2),
    fun q L hq hpq hL => isLength hq hL ▸ nearer q hq hpq⟩

/-! ## ENCODE with WINDOW 0 (R148, R159) -/

/-- The token of a literal byte (R96). -/
def literalToken (b : Byte) : Token := ⟨0, 0, b⟩

/-- A buffer with room takes one element more (R14). -/
theorem appendTo_of_room {α : Type} {cap : Option Nat} {xs : List α} (x : α)
    (room : exceeds cap (xs.length + 1) = false) : appendTo cap xs x = .ok (xs ++ [x]) := by
  rw [appendTo, full_iff_exceeds_succ, room]
  rfl

theorem findLongestMatch_window_zero (buffer : List Byte) (position : Nat) :
    findLongestMatch buffer position 0 = (0, 0) := by
  rw [findLongestMatch, Nat.min_zero, scanCandidates]

theorem nextToken_window_zero (buffer : List Byte) (position : Nat) :
    nextToken buffer 0 position = buffer[position]?.map fun b => (literalToken b, 1) := by
  rw [nextToken, findLongestMatch_window_zero]
  rfl

/-- The encoder's loop with window 0, from the literals of the bytes before its position. -/
theorem encodeFrom_window_zero {cap : Option Nat} (before rest : List Byte)
    (room : exceeds cap (before ++ rest).length = false) :
    encodeFrom cap (before ++ rest) 0 rest.length before.length (before.map literalToken) =
      .ok ((before ++ rest).map literalToken) := by
  induction rest generalizing before with
  | nil => rw [List.append_nil]; rfl
  | cons b rest ih =>
    have emitted : nextToken (before ++ b :: rest) 0 before.length = some (literalToken b, 1) := by
      simp [nextToken_window_zero]
    have appended : appendTo cap (before.map literalToken) (literalToken b) =
        .ok ((before ++ [b]).map literalToken) := by
      rw [List.map_append]
      exact appendTo_of_room _ (exceeds_mono room (by simp))
    have rounds := ih (before ++ [b]) (by simpa using room)
    simpa [encodeFrom, emitted, appended] using rounds

/-- With window 0 and room for one token a byte, the encoding is the literals of the bytes. -/
theorem encodeTokens_window_zero {cap : Option Nat} {buffer : List Byte} (room : exceeds cap buffer.length = false) :
    encodeTokens cap buffer 0 = .ok (buffer.map literalToken) :=
  encodeFrom_window_zero [] buffer room

/-- Settles O26: every round of the encoder emits the literal of its byte, and completing keeps the tokens. -/
theorem zeroWindowEncodesLiterals : Obligations.ZeroWindowEncodesLiterals := by
  unfold Obligations.ZeroWindowEncodesLiterals
  intro s zero room
  have encoded : encodeTokens s.cfg.tbCap s.ibBytes s.window.toNat = .ok (s.ibBytes.map literalToken) := by
    rw [zero]
    exact encodeTokens_window_zero (by rwa [ibBytes_length])
  exact ⟨_, exec_encode_of_ok encoded, State.complete_endsDone .., tbTokens_complete_of_put rfl rfl 3⟩

end Sys2Proof.Machine

/-! PROOFS. The token encoder (spec/42_token_encoder.md): its loop emits what the policy gives (R157 to R161); what each
token of an encoding covers (R146, R160); and the decoder, which appends exactly that (R163, R164). -/

namespace Sys2Proof.Machine

/-! ## The encoder's loop follows the policy (R156 to R161) -/

section Policy

variable {buffer : List Byte} {window : Half} {position : Nat} {t : Token} {ts : List Token}

/-- The fields of a match token hold the match finder's answer untruncated (R146). -/
theorem toNat_findLongestMatch (buffer : List Byte) (position : Nat) (window : Half) :
    (BitVec.ofNat 16 (findLongestMatch buffer position window.toNat).1).toNat =
        (findLongestMatch buffer position window.toNat).1 ∧
      (BitVec.ofNat 16 (findLongestMatch buffer position window.toNat).2).toNat =
        (findLongestMatch buffer position window.toNat).2 :=
  (findLongestMatch_lt buffer position window).imp Nat.mod_eq_of_lt Nat.mod_eq_of_lt

/-- The policy, one token at a time: the token the encoder emits, then the policy past what that token covers. -/
theorem encodesFrom_cons_iff :
    EncodesFrom buffer window.toNat position (t :: ts) ↔
      nextToken buffer window.toNat position = some (t, t.length.toNat + 1) ∧
        EncodesFrom buffer window.toNat (position + t.length.toNat + 1) ts := by
  obtain ⟨off, len⟩ := toNat_findLongestMatch buffer position window
  simp only [EncodesFrom, nextToken]
  generalize findLongestMatch buffer position window.toNat = m at *
  split
  case isTrue accepted =>
    constructor
    · rintro ⟨-, offset, length, symbolAt, rest⟩
      rw [symbolAt, ← offset, ← length, BitVec.ofNat_toNat, BitVec.ofNat_toNat]
      exact ⟨rfl, length ▸ rest⟩
    · rintro ⟨emitted, rest⟩
      obtain ⟨symbol, symbolAt, token⟩ := Option.map_eq_some_iff.mp emitted
      obtain ⟨rfl, -⟩ := Prod.mk.inj token
      rw [len] at rest
      exact ⟨by omega, off, len, symbolAt, rest⟩
  case isFalse refused =>
    constructor
    · rintro ⟨-, offset, length, symbolAt, rest⟩
      obtain ⟨_, _, symbol⟩ := t
      subst offset length
      rw [symbolAt]
      exact ⟨rfl, rest⟩
    · rintro ⟨emitted, rest⟩
      obtain ⟨symbol, symbolAt, token⟩ := Option.map_eq_some_iff.mp emitted
      obtain ⟨rfl, -⟩ := Prod.mk.inj token
      exact ⟨(List.getElem?_eq_some_iff.mp symbolAt).1, rfl, rfl, symbolAt, rest⟩

/-- At the end the encoder emits nothing (R160). -/
theorem nextToken_of_length_le (ended : buffer.length ≤ position) :
    nextToken buffer window.toNat position = none := by
  unfold nextToken
  rw [if_neg (by omega), List.getElem?_eq_none ended]
  rfl

/-- Below the end the encoder emits a token, and it ends with the buffer at the latest (R160). -/
theorem exists_nextToken (more : position < buffer.length) :
    ∃ t, nextToken buffer window.toNat position = some (t, t.length.toNat + 1) ∧
      position + t.length.toNat + 1 ≤ buffer.length := by
  obtain ⟨-, len⟩ := toNat_findLongestMatch buffer position window
  rcases nextToken_cases buffer window.toNat position with
    ⟨-, ended⟩ | ⟨-, inside, symbol, -, emitted⟩ | ⟨-, symbol, -, emitted⟩
  · exact absurd more (Nat.not_lt.mpr ended)
  · refine ⟨_, emitted.trans (congrArg (fun length => some (_, length + 1)) len.symm), ?_⟩
    rw [len]
    exact inside
  · exact ⟨_, emitted, more⟩

/-- From every position the policy gives a token sequence (R160). -/
theorem exists_encodesFrom (buffer : List Byte) (window : Half) (position : Nat) (inside : position ≤ buffer.length) :
    ∃ ts, EncodesFrom buffer window.toNat position ts := by
  rcases Nat.eq_or_lt_of_le inside with rfl | more
  · exact ⟨[], rfl⟩
  · obtain ⟨t, emitted, inside'⟩ := exists_nextToken (window := window) more
    obtain ⟨ts, rest⟩ := exists_encodesFrom buffer window (position + t.length.toNat + 1) inside'
    exact ⟨t :: ts, encodesFrom_cons_iff.mpr ⟨emitted, rest⟩⟩
termination_by buffer.length - position

/-- The lengths of an encoding, each with its symbol's byte, cover what lies past its position (R160). -/
theorem EncodesFrom.length_sum (encodes : EncodesFrom buffer window.toNat position ts) :
    position + (ts.map fun t => t.length.toNat + 1).sum = buffer.length := by
  induction ts generalizing position with
  | nil => exact encodes
  | cons t ts ih =>
    have rest := ih (encodesFrom_cons_iff.mp encodes).2
    rw [List.map_cons, List.sum_cons]
    omega

/-- Every token covers at least one byte (R157, R160). -/
theorem EncodesFrom.length_le (encodes : EncodesFrom buffer window.toNat position ts) :
    position + ts.length ≤ buffer.length := by
  have counted := List.length_le_sum_of_one_le (ts.map fun t => t.length.toNat + 1) (by simp)
  rw [List.length_map] at counted
  have covered := encodes.length_sum
  omega

/-- The encoder's loop gives the tokens of the policy, or CAPACITY when they do not all fit (R161). -/
theorem EncodesFrom.encodeFrom_eq {cap : Option Nat} {rounds : Nat} {tokens : List Token}
    (encodes : EncodesFrom buffer window.toNat position ts) (enough : ts.length ≤ rounds)
    (room : exceeds cap tokens.length = false) :
    encodeFrom cap buffer window.toNat rounds position tokens =
      if exceeds cap (tokens ++ ts).length then .error .capacity else .ok (tokens ++ ts) := by
  induction ts generalizing rounds position tokens with
  | nil =>
    have ended : nextToken buffer window.toNat position = none := nextToken_of_length_le (Nat.le_of_eq encodes.symm)
    rw [List.append_nil, room]
    cases rounds with
    | zero => rfl
    | succ rounds => simp [encodeFrom, ended]
  | cons t ts ih =>
    obtain ⟨emitted, rest⟩ := encodesFrom_cons_iff.mp encodes
    obtain ⟨rounds, rfl⟩ := Nat.exists_eq_add_of_le' (Nat.le_trans (Nat.succ_pos _) enough)
    rcases appendTo_cases cap tokens t with ⟨noRoom, failed⟩ | ⟨oneMore, appended⟩
    · have noRoom : exceeds cap (tokens ++ t :: ts).length = true := by
        rw [full_iff_exceeds_succ] at noRoom
        by_contra fits
        have oneMore := exceeds_mono (m := tokens.length + 1) (Bool.eq_false_of_not_eq_true fits) (by simp)
        exact Bool.false_ne_true (oneMore.symm.trans noRoom)
      rw [encodeFrom, emitted, noRoom]
      simp only [failed, if_true]
    · rw [full_iff_exceeds_succ] at oneMore
      have rounds := ih rest (Nat.le_of_succ_le_succ enough) (tokens := tokens ++ [t]) (by simpa using oneMore)
      simpa [encodeFrom, emitted, appended, Nat.add_assoc] using rounds

/-- `encode` gives the tokens of the policy, or CAPACITY when TB is too small for them (R161). -/
theorem EncodesFrom.encodeTokens_eq (cap : Option Nat) (encodes : EncodesFrom buffer window.toNat 0 ts) :
    encodeTokens cap buffer window.toNat = if exceeds cap ts.length then .error .capacity else .ok ts :=
  encodes.encodeFrom_eq (tokens := []) (by simpa using encodes.length_le) (exceeds_zero cap)

end Policy

/-- Settles O23: the policy gives a sequence for IB, and the encoder's loop emits it. -/
theorem encodeFollowsThePolicy : Obligations.EncodeFollowsThePolicy := by
  unfold Obligations.EncodeFollowsThePolicy
  intro s
  obtain ⟨ts, encodes⟩ := exists_encodesFrom s.ibBytes s.window 0 (Nat.zero_le _)
  have encoded := encodes.encodeTokens_eq s.cfg.tbCap
  refine ⟨ts, encodes, fun fits => ?_, fun tooMany => ?_⟩
  · rw [fits] at encoded
    exact ⟨_, exec_encode_of_ok encoded, State.complete_endsDone .., tbTokens_complete_of_put rfl rfl 3, rfl,
      (keepsAllBut_putTokens (by decide)).trans (complete_keepsAllBut _ 3)⟩
  · rw [tooMany] at encoded
    exact ⟨_, exec_encode_of_error encoded, State.raise_endsError .., raise_keepsAllBut s 3 0 _ 0⟩

/-- With room for a token a byte ENCODE completes, and TB holds an encoding of IB of at most that many tokens. -/
theorem exec_encode_of_room {s : State} (room : exceeds s.cfg.tbCap s.ibLen = false) :
    ∃ t, exec .encode s = .next t ∧ t.EndsDone ∧ EncodesFrom s.ibBytes s.window.toNat 0 t.tbTokens ∧
      t.tbLen ≤ s.ibLen ∧ KeepsAllBut [.tb] s t := by
  obtain ⟨ts, encodes, fits, -⟩ := encodeFollowsThePolicy s
  have few : ts.length ≤ s.ibLen := by simpa [ibBytes_length] using encodes.length_le
  obtain ⟨t, answer, done, rfl, len, kept⟩ := fits (exceeds_mono room few)
  exact ⟨t, answer, done, encodes, len ▸ few, kept⟩

/-- Settles O24: the policy's sequence has at most one token a byte, so it fits TB. -/
theorem encodeCompletesWhenTokensFit : Obligations.EncodeCompletesWhenTokensFit := by
  unfold Obligations.EncodeCompletesWhenTokensFit
  intro s room
  obtain ⟨t, answer, done, -, few, kept⟩ := exec_encode_of_room room
  exact ⟨t, answer, done, few, kept⟩

/-! ## What a token of an encoding covers (R99, R146) -/

/-- A token covers its part of a buffer from a position on: a literal its symbol's byte, a match the bytes that a
candidate of the window agrees with (R142), and then its symbol's byte. -/
inductive Covers (buffer : List Byte) (window position : Nat) : Token → Prop
  | literal {symbol : Byte} (symbolAt : buffer[position]? = some symbol) :
      Covers buffer window position (literalToken symbol)
  | copy {t : Token} {p : Nat} (candidate : Candidate position window p) (offset : t.offset.toNat = position - p)
      (length : 1 ≤ t.length.toNat) (agrees : Agrees buffer position p t.length.toNat)
      (symbolAt : buffer[position + t.length.toNat]? = some t.symbol) : Covers buffer window position t

section Covers

variable {buffer : List Byte} {window position : Nat} {t : Token} {ts : List Token}

/-- The policy's tokens cover the buffer from their positions on. -/
theorem EncodesFrom.head_covers (encodes : EncodesFrom buffer window position (t :: ts)) :
    Covers buffer window position t := by
  obtain ⟨offset, length, symbol⟩ := t
  have found := findLongestMatch_nearestLongest buffer position window
  simp only [EncodesFrom] at encodes
  obtain ⟨-, emitted⟩ := encodes
  split at emitted
  case isTrue accepted =>
    obtain ⟨off, len, symbolAt, -⟩ := emitted
    obtain ⟨p, candidate, offset, length, -⟩ := found.nearest (Nat.ne_of_gt accepted.1)
    rw [← len] at accepted length symbolAt
    refine .copy candidate (off.trans offset) accepted.1 ?_ symbolAt
    exact length ▸ (matchLength_isMatchLength (Nat.le_of_lt candidate.2)).1
  case isFalse =>
    obtain ⟨rfl, rfl, symbolAt, -⟩ := emitted
    exact .literal symbolAt

/-- A token ends with the buffer at the latest (R158). -/
theorem Covers.inside (covers : Covers buffer window position t) :
    position + t.length.toNat + 1 ≤ buffer.length := by
  cases covers with
  | literal symbolAt | copy _ _ _ _ symbolAt => exact (List.getElem?_eq_some_iff.mp symbolAt).1

/-- The bounds of R99 and R146: a match is no longer than its offset, which stays within the window and the history. -/
theorem Covers.bounds (covers : Covers buffer window position t) :
    (t.offset = 0 ∧ t.length = 0) ∨
      (1 ≤ t.length.toNat ∧ t.length.toNat ≤ t.offset.toNat ∧ t.offset.toNat ≤ min window position) := by
  cases covers with
  | literal _ => exact .inl ⟨rfl, rfl⟩
  | copy candidate offset length agrees _ =>
    obtain ⟨near, before⟩ := candidate
    have history := agrees.1
    exact .inr (by omega)

/-- At position 0 there is no history to copy (R166). -/
theorem Covers.literal_of_zero (covers : Covers buffer window 0 t) : t.offset = 0 ∧ t.length = 0 :=
  covers.bounds.resolve_right (by omega)

end Covers

/-- Every token of an encoding covers the buffer from some position on. -/
theorem EncodesFrom.covers_of_mem {buffer : List Byte} {window : Half} {position : Nat} {ts : List Token}
    (encodes : EncodesFrom buffer window.toNat position ts) {t : Token} (mem : t ∈ ts) :
    ∃ position', Covers buffer window.toNat position' t := by
  induction ts generalizing position with
  | nil => cases mem
  | cons t' ts ih =>
    rcases List.mem_cons.mp mem with rfl | mem
    · exact ⟨position, encodes.head_covers⟩
    · exact ih (encodesFrom_cons_iff.mp encodes).2 mem

/-- Settles O25: the tokens' parts follow each other to the end, and each is within the match finder's bounds. -/
theorem encodingCoversTheInput : Obligations.EncodingCoversTheInput := by
  unfold Obligations.EncodingCoversTheInput
  intro buffer window ts encodes
  refine ⟨by simpa using encodes.length_sum, by simpa using encodes.length_le, fun t head => ?_, fun t mem => ?_⟩
  · obtain ⟨rest, rfl⟩ := List.head?_eq_some_iff.mp head
    exact encodes.head_covers.literal_of_zero
  · obtain ⟨position, covers⟩ := encodes.covers_of_mem mem
    exact covers.bounds.imp_right fun ⟨pos, short, near⟩ => ⟨pos, short, near.trans (Nat.min_le_left _ _)⟩

/-! ## The decoder appends what a token covers (R163) -/

section Replay

variable {buffer : List Byte} {window position p n : Nat} {t : Token} {cap : Option Nat}

/-- Appending the byte at a position to the bytes before it, with room for it. -/
theorem appendTo_take {b : Byte} (here : buffer[position]? = some b) (room : exceeds cap (position + 1) = false) :
    appendTo cap (buffer.take position) b = .ok (buffer.take (position + 1)) := by
  have inside := (List.getElem?_eq_some_iff.mp here).1
  rw [List.take_add_one, here]
  exact appendTo_of_room b (by rwa [List.length_take_of_le (Nat.le_of_lt inside)])

/-- One byte further on, candidate and position agree one byte less. -/
theorem Agrees.tail (agrees : Agrees buffer position p (n + 1)) : Agrees buffer (position + 1) (p + 1) n := by
  obtain ⟨history, inside, same⟩ := agrees
  refine ⟨by omega, by omega, fun j hj => ?_⟩
  have next := same (j + 1) (Nat.succ_lt_succ hj)
  rwa [← Nat.add_assoc, ← Nat.add_assoc, Nat.add_right_comm p, Nat.add_right_comm position] at next

/-- The copy from a candidate that agrees with the position writes what stands at the position (R163). -/
theorem Agrees.copyRun_eq (agrees : Agrees buffer position p n) (room : exceeds cap (position + n) = false) :
    copyRun cap n p (buffer.take position) = .ok (buffer.take (position + n)) := by
  induction n generalizing position p with
  | zero => rfl
  | succ n ih =>
    have rest := ih agrees.tail (by rwa [Nat.add_right_comm])
    obtain ⟨history, inside, same⟩ := agrees
    have target : position < buffer.length := by omega
    have here := List.getElem?_eq_getElem target
    have source : (buffer.take position)[p]? = some buffer[position] := by
      rw [List.getElem?_take_of_lt (by omega), ← here]
      exact same 0 (Nat.succ_pos n)
    rw [copyRun, source]
    simp only [appendTo_take here (exceeds_mono room (by omega))]
    rw [rest, Nat.succ_add_eq_add_succ]

/-- A match whose offset names an agreeing candidate appends the bytes at the position and then its symbol (R163). -/
theorem Agrees.matchBytes_eq {offset length : Half} {symbol : Byte} (agrees : Agrees buffer position p length.toNat)
    (before : p < position) (back : offset.toNat = position - p)
    (symbolAt : buffer[position + length.toNat]? = some symbol)
    (room : exceeds cap (position + length.toNat + 1) = false) :
    matchBytes cap (buffer.take position) offset length symbol =
      .ok (buffer.take (position + length.toNat + 1)) := by
  have inside := (List.getElem?_eq_some_iff.mp symbolAt).1
  have taken : (buffer.take position).length = position := List.length_take_of_le (by omega)
  have offsetPos : offset ≠ 0 := by
    rintro rfl
    exact absurd back.symm (Nat.ne_of_gt (Nat.sub_pos_of_lt before))
  have valid : ¬ (offset = 0 ∨ offset.toNat > (buffer.take position).length) := by
    rw [taken]
    exact not_or.mpr ⟨offsetPos, by omega⟩
  have start : (buffer.take position).length - offset.toNat = p := by omega
  rw [matchBytes, if_neg valid, start, agrees.copyRun_eq (exceeds_mono room (Nat.le_succ _))]
  exact appendTo_take symbolAt room

/-- A token appends what it covers to the bytes before it (R163). -/
theorem Covers.tokenBytes_eq (covers : Covers buffer window position t) (room : exceeds cap buffer.length = false) :
    tokenBytes cap (buffer.take position) t = .ok (buffer.take (position + t.length.toNat + 1)) := by
  have room := exceeds_mono room covers.inside
  cases covers with
  | literal symbolAt => exact appendTo_take symbolAt room
  | copy candidate offset length agrees symbolAt =>
    have notLiteral : ¬ (t.offset = 0 ∧ t.length = 0) := fun zero => by simp [zero.2] at length
    rw [tokenBytes, if_neg notLiteral]
    exact agrees.matchBytes_eq candidate.2 offset symbolAt room

end Replay

/-- Decoding an encoding from the bytes before its position gives the buffer (R163, R164). -/
theorem EncodesFrom.decodeFrom_eq {buffer : List Byte} {window : Half} {position k : Nat} {ts : List Token}
    {cap : Option Nat} (encodes : EncodesFrom buffer window.toNat position ts)
    (room : exceeds cap buffer.length = false) : decodeFrom cap k (buffer.take position) ts = .ok buffer := by
  induction ts generalizing position k with
  | nil => rw [decodeFrom, show position = buffer.length from encodes, List.take_length]
  | cons t ts ih =>
    rw [decodeFrom, encodes.head_covers.tokenBytes_eq room]
    exact ih (encodesFrom_cons_iff.mp encodes).2

/-- Settles O33: ENCODE leaves the policy's tokens, and the decoder rebuilds IB from them byte for byte. -/
theorem encodeThenDecodeRestoresTheInput : Obligations.EncodeThenDecodeRestoresTheInput := by
  unfold Obligations.EncodeThenDecodeRestoresTheInput
  intro s tbRoom obRoom
  obtain ⟨t, encoded, done, encodes, -, ⟨-, -, -, cfg, -⟩, -⟩ := exec_encode_of_room tbRoom
  have decoded : decodeTokens t.cfg.obCap t.tbTokens = .ok s.ibBytes := by
    rw [cfg]
    exact encodes.decodeFrom_eq (by rwa [ibBytes_length])
  exact ⟨t, _, encoded, done, exec_decode_of_ok decoded, State.complete_endsDone ..,
    obBytes_complete_of_put rfl rfl 4, ibBytes_length s⟩

end Sys2Proof.Machine

/-! PROOFS. The token decoder (spec/43_token_decoder.md): the copy loop writes the closed form of R183, so a token
appends what its replay says or raises (R178 to R182), and the loop of `decode` is the replay of the tokens (R177,
R184, R185). -/

namespace Sys2Proof.Machine

/-! ## Output within OB (R14, R246) -/

/-- An output sequence if it fits OB, else CAPACITY. -/
def withinCap (cap : Option Nat) (out : List Byte) : Except ErrKind (List Byte) :=
  if exceeds cap out.length then .error .capacity else .ok out

section Capacity

variable {cap : Option Nat} {out : List Byte}

theorem withinCap_of_fits (fits : exceeds cap out.length = false) : withinCap cap out = .ok out := by
  rw [withinCap, fits]
  rfl

theorem withinCap_of_exceeds (noRoom : exceeds cap out.length = true) : withinCap cap out = .error .capacity := by
  rw [withinCap, noRoom]
  rfl

theorem appendTo_eq_withinCap (b : Byte) : appendTo cap out b = withinCap cap (out ++ [b]) := by
  rw [appendTo, withinCap, full_iff_exceeds_succ, List.length_append, List.length_singleton]

/-- A length above the capacity stays above it when more is appended. -/
theorem exceeds_of_le {m n : Nat} (noRoom : exceeds cap m = true) (hmn : m ≤ n) : exceeds cap n = true := by
  by_contra fits
  exact Bool.false_ne_true ((exceeds_mono (Bool.eq_false_of_not_eq_true fits) hmn).symm.trans noRoom)

end Capacity

/-! ## The copy in closed form (R180, R183) -/

/-- The bytes a copy of `count` bytes at an offset appends, by R183. -/
def copiedBytes (out : List Byte) (offset count : Nat) : List Byte :=
  (List.range count).map fun i => out.getD (out.length - offset + i % offset) 0

section Copy

variable {cap : Option Nat} {out : List Byte}

@[simp] theorem length_copiedBytes (out : List Byte) (offset count : Nat) :
    (copiedBytes out offset count).length = count := by
  simp [copiedBytes]

theorem copiedBytes_succ (out : List Byte) (offset count : Nat) :
    copiedBytes out offset (count + 1) =
      copiedBytes out offset count ++ [out.getD (out.length - offset + count % offset) 0] := by
  simp [copiedBytes, List.range_succ]

theorem getElem?_copiedBytes {offset count i : Nat} (inside : i < count) :
    (copiedBytes out offset count)[i]? = some (out.getD (out.length - offset + i % offset) 0) := by
  simp [copiedBytes, inside]

/-- What round `i` of the copy reads, `offset` bytes back: a byte of the old output in the first `offset` rounds,
after them one that the copy itself appended (R76). -/
theorem getElem?_append_copiedBytes {offset : Nat} (positive : 0 < offset) (inside : offset ≤ out.length) (i : Nat) :
    (out ++ copiedBytes out offset i)[out.length - offset + i]? =
      some (out.getD (out.length - offset + i % offset) 0) := by
  rcases Nat.lt_or_ge i offset with old | own
  · have source : out.length - offset + i < out.length := by omega
    rw [List.getElem?_append_left source, Nat.mod_eq_of_lt old, List.getElem?_eq_getElem source,
      List.getD_eq_getElem _ _ source]
  · have period : out.length - offset + i - out.length = i - offset := by omega
    rw [List.getElem?_append_right (by omega), period, getElem?_copiedBytes (by omega), ← Nat.mod_eq_sub_mod own]

/-- The copy loop, after `done` rounds, goes on to the closed form or to CAPACITY. -/
theorem copyRun_append_copiedBytes {offset done rounds : Nat} (positive : 0 < offset) (inside : offset ≤ out.length)
    (room : exceeds cap (out ++ copiedBytes out offset done).length = false) :
    copyRun cap rounds (out.length - offset + done) (out ++ copiedBytes out offset done) =
      withinCap cap (out ++ copiedBytes out offset (done + rounds)) := by
  induction rounds generalizing done with
  | zero => exact (withinCap_of_fits room).symm
  | succ rounds ih =>
    rw [copyRun, getElem?_append_copiedBytes positive inside]
    simp only [appendTo_eq_withinCap, List.append_assoc, ← copiedBytes_succ]
    cases more : exceeds cap (out ++ copiedBytes out offset (done + 1)).length with
    | true =>
      rw [withinCap_of_exceeds more, withinCap_of_exceeds (exceeds_of_le more (by simp))]
    | false =>
      rw [withinCap_of_fits more, ← Nat.add_assoc done, Nat.add_right_comm done]
      exact ih more

end Copy

/-! ## What a token appends (R178 to R182) -/

/-- What a MATCH appends to an output: its copy, then its symbol (R180). -/
def matchRun (out : List Byte) (offset length : Half) (symbol : Byte) : List Byte :=
  copiedBytes out offset.toNat length.toNat ++ [symbol]

theorem offset_toNat_pos {offset : Half} (nonzero : offset ≠ 0) : 0 < offset.toNat :=
  Nat.pos_of_ne_zero fun zero => nonzero (BitVec.eq_of_toNat_eq zero)

section TokenBytes

variable {cap : Option Nat} {out : List Byte} {offset length : Half} {symbol : Byte}

theorem length_matchRun : (matchRun out offset length symbol).length = length.toNat + 1 := by
  simp [matchRun]

theorem getElem?_matchRun_of_lt {i : Nat} (copying : i < length.toNat) :
    (matchRun out offset length symbol)[i]? = some (out.getD (out.length - offset.toNat + i % offset.toNat) 0) := by
  rw [matchRun, List.getElem?_append_left (by rwa [length_copiedBytes]), getElem?_copiedBytes copying]

theorem getElem?_matchRun_last : (matchRun out offset length symbol)[length.toNat]? = some symbol := by
  simp [matchRun]

/-- The reference check comes before anything else (R178). -/
theorem matchBytes_of_invalid (invalid : offset = 0 ∨ out.length < offset.toNat) :
    matchBytes cap out offset length symbol = .error .invalidReference :=
  if_pos invalid

/-- A MATCH that passes the check appends its copy and its symbol, within OB (R180, R183). -/
theorem matchBytes_of_valid (nonzero : offset ≠ 0) (inside : offset.toNat ≤ out.length)
    (room : exceeds cap out.length = false) :
    matchBytes cap out offset length symbol =
      withinCap cap (out ++ matchRun out offset length symbol) := by
  have copied : copyRun cap length.toNat (out.length - offset.toNat) out =
      withinCap cap (out ++ copiedBytes out offset.toNat length.toNat) := by
    simpa [copiedBytes] using
      copyRun_append_copiedBytes (cap := cap) (done := 0) (rounds := length.toNat) (offset_toNat_pos nonzero) inside
        (by simpa [copiedBytes] using room)
  rw [matchRun, ← List.append_assoc, matchBytes, if_neg (not_or.mpr ⟨nonzero, Nat.not_lt.mpr inside⟩), copied]
  cases more : exceeds cap (out ++ copiedBytes out offset.toNat length.toNat).length with
  | true => rw [withinCap_of_exceeds more, withinCap_of_exceeds (exceeds_of_le more (by simp))]
  | false => rw [withinCap_of_fits more]; exact appendTo_eq_withinCap symbol

/-- A MATCH of length 0 that passes the check does to the output what LIT does (R181). -/
theorem matchBytes_zero_length (nonzero : offset ≠ 0) (inside : offset.toNat ≤ out.length) :
    matchBytes cap out offset 0 symbol = litBytes cap out symbol :=
  if_neg (not_or.mpr ⟨nonzero, Nat.not_lt.mpr inside⟩)

/-- A token does what its replay says: INVALID_REFERENCE where there is none, else the replay's output within OB. -/
theorem tokenBytes_eq_replayToken (t : Token) (room : exceeds cap out.length = false) :
    tokenBytes cap out t = (replayToken out t).elim (.error .invalidReference) (withinCap cap) := by
  rw [tokenBytes, replayToken]
  split
  next literal => exact appendTo_eq_withinCap t.symbol
  next =>
    split
    next invalid => exact matchBytes_of_invalid invalid
    next valid =>
      obtain ⟨nonzero, inside⟩ := not_or.mp valid
      rw [matchBytes_of_valid nonzero (Nat.not_lt.mp inside) room, matchRun, ← List.append_assoc]
      rfl

end TokenBytes

/-! ## The decoder's loop is the replay (R177, R184, R185) -/

section Replay

variable {cap : Option Nat} {out out' : List Byte}

/-- A replayed token appends `length + 1` bytes (R184). -/
theorem length_of_replayToken {t : Token} (replayed : replayToken out t = some out') :
    out'.length = out.length + (t.length.toNat + 1) := by
  unfold replayToken at replayed
  split at replayed
  next literal =>
    cases replayed
    simp [literal.2]
  next =>
    split at replayed
    · cases replayed
    · cases replayed
      simp

/-- The output of a replay is as long as its tokens say (R184). -/
theorem length_of_replay {ts : List Token} (replayed : replay out ts = some out') :
    out'.length = out.length + (ts.map fun t => t.length.toNat + 1).sum := by
  induction ts generalizing out with
  | nil => cases replayed; rfl
  | cons t ts ih =>
    obtain ⟨mid, first, rest⟩ := Option.bind_eq_some_iff.mp replayed
    rw [ih rest, length_of_replayToken first, List.map_cons, List.sum_cons, Nat.add_assoc]

/-- Decoding tokens that replay, then more: CAPACITY if the replay does not fit OB, else the rest from its output. -/
theorem decodeFrom_append_of_replay {k : Nat} {ts rest : List Token} (room : exceeds cap out.length = false)
    (replayed : replay out ts = some out') :
    decodeFrom cap k out (ts ++ rest) =
      if exceeds cap out'.length then .error (.capacity, 0) else decodeFrom cap (k + ts.length) out' rest := by
  induction ts generalizing k out with
  | nil =>
    cases replayed
    rw [room]
    rfl
  | cons t ts ih =>
    obtain ⟨mid, first, later⟩ := Option.bind_eq_some_iff.mp replayed
    have token := tokenBytes_eq_replayToken t room
    rw [first, Option.elim_some] at token
    rw [List.cons_append, decodeFrom, token]
    cases more : exceeds cap mid.length with
    | true =>
      have noRoom := exceeds_of_le more (Nat.le.intro (length_of_replay later).symm)
      rw [withinCap_of_exceeds more, noRoom]
      rfl
    | false =>
      rw [withinCap_of_fits more, List.length_cons, Nat.add_comm ts.length, ← Nat.add_assoc]
      exact ih more later

end Replay

/-- Settles O31: the decoder's loop gives the replay of all the tokens, or CAPACITY when it does not fit. -/
theorem decodeReplaysTheTokens : Obligations.DecodeReplaysTheTokens := by
  unfold Obligations.DecodeReplaysTheTokens
  intro s out replayed
  have decoded := decodeFrom_append_of_replay (k := 0) (rest := []) (exceeds_zero s.cfg.obCap) replayed
  rw [List.append_nil] at decoded
  refine ⟨fun fits => ?_, fun noRoom => ?_⟩
  · rw [fits] at decoded
    have length := length_of_replay replayed
    exact ⟨_, exec_decode_of_ok decoded, State.complete_endsDone .., obBytes_complete_of_put rfl rfl 4, rfl,
      length.trans (Nat.zero_add _), (keepsAllBut_putOutput (by decide)).trans (complete_keepsAllBut _ 4)⟩
  · rw [noRoom] at decoded
    exact ⟨_, exec_decode_of_error decoded, State.raise_endsError .., raise_keepsAllBut s 4 0 _ 0⟩

/-- Settles O32: the loop reaches the bad token with the output of the tokens before it, and its check ends it. -/
theorem decodeReportsTheFirstBadToken : Obligations.DecodeReportsTheFirstBadToken := by
  unfold Obligations.DecodeReportsTheFirstBadToken
  intro s before after bad out tokens replayed fits invalid
  have decoded : decodeTokens s.cfg.obCap s.tbTokens = .error (.invalidReference, before.length) := by
    have check := tokenBytes_eq_replayToken bad fits
    rw [invalid, Option.elim_none] at check
    rw [tokens, decodeTokens, decodeFrom_append_of_replay (exceeds_zero _) replayed, fits, decodeFrom, check,
      Nat.zero_add]
    rfl
  exact ⟨_, exec_decode_of_error decoded, State.raise_endsError .., rfl, raise_keepsAllBut s 4 0 _ _⟩

/-! ## The state after a token (R176, R179, R180) -/

section AfterToken

variable (s : State) {run : List Byte} {w : Work}

theorem raiseToken_endsError (e : ErrKind) : (s.raiseToken e).EndsError e (tokenErrInfo e s.work.tix) :=
  State.raise_endsError ..

theorem afterToken_keepsAllBut (out : List Byte) (w : Work) : KeepsAllBut [.ob] s (s.afterToken out w) := by
  refine ⟨.refl s, fun o ho => ?_⟩
  have same := o.kept_refl s
  cases o with
  | ob => exact absurd (List.mem_singleton_self _) ho
  | _ => exact same

/-- OB after a token: what it appended from the old OB_LEN on, and the old elements elsewhere. -/
theorem obAt_afterToken (a : Nat) :
    (s.afterToken (s.obBytes ++ run) w).obAt a =
      if s.obLen ≤ a then run[a - s.obLen]?.getD (s.obAt a) else s.obAt a := by
  have appended : (s.obBytes ++ run).drop s.obLen = run := by rw [← obBytes_length s, List.drop_left]
  rw [State.obAt, State.afterToken_ob, appended, Buf.read_writeAll]
  rfl

theorem obAt_afterToken_of_appended {i : Nat} {b : Byte} (here : run[i]? = some b) :
    (s.afterToken (s.obBytes ++ run) w).obAt (s.obLen + i) = b := by
  rw [obAt_afterToken, if_pos (Nat.le_add_right _ _), Nat.add_sub_cancel_left, here]
  rfl

theorem obAt_afterToken_of_outside {a : Nat} (outside : a < s.obLen ∨ s.obLen + run.length ≤ a) :
    (s.afterToken (s.obBytes ++ run) w).obAt a = s.obAt a := by
  rw [obAt_afterToken]
  split
  next => rw [List.getElem?_eq_none (by omega)]; rfl
  next => rfl

theorem obBytes_getD {i : Nat} (inside : i < s.obLen) : s.obBytes.getD i 0 = s.obAt i := by
  rw [List.getD_eq_getElem?_getD, obBytes_getElem?, if_pos inside]
  rfl

end AfterToken

/-- The record of LIT: four zero bytes and the symbol (R92, R102). -/
theorem encodeInstr_lit (symbol : Byte) : encodeInstr (.lit symbol) = .record [0, 0, 0, 0, symbol] := by
  simp [encodeInstr, recordBytes_eq]

/-- Settles O27: LIT is `append(OB, symbol)`, which raises CAPACITY alone. -/
theorem litAppendsItsSymbol : Obligations.LitAppendsItsSymbol := by
  unfold Obligations.LitAppendsItsSymbol
  intro s symbol
  have appended : litBytes s.cfg.obCap s.obBytes symbol = withinCap s.cfg.obCap (s.obBytes ++ [symbol]) :=
    appendTo_eq_withinCap symbol
  have length : (s.obBytes ++ [symbol]).length = s.obLen + 1 := by simp [obBytes_length]
  refine ⟨rfl, encodeInstr_lit symbol, fun room => ?_, fun noRoom _ written => ?_⟩
  · rw [full_iff_exceeds_succ, ← length] at room
    exact ⟨_, exec_lit_of_ok (appended.trans (withinCap_of_fits room)), length,
      obAt_afterToken_of_appended s (i := 0) rfl,
      fun a elsewhere => obAt_afterToken_of_outside s (Nat.lt_or_gt_of_ne elsewhere), rfl, rfl, rfl, rfl, rfl, rfl,
      afterToken_keepsAllBut ..⟩
  · rw [full_iff_exceeds_succ, ← length] at noRoom
    exact ⟨_, exec_lit_of_error (appended.trans (withinCap_of_exceeds noRoom)), raiseToken_endsError ..,
      State.raiseToken_keepsDecoderInputs written _⟩

/-- A MATCH whose reference check fails ends with INVALID_REFERENCE and its index (R178, R248). -/
theorem exec_matchTok_of_invalid {s : State} {offset length : Half} {symbol : Byte}
    (invalid : offset = 0 ∨ s.obLen < offset.toNat) :
    exec (.matchTok offset length symbol) s = .next (s.raiseToken .invalidReference) :=
  exec_matchTok_of_error (matchBytes_of_invalid (by rwa [obBytes_length]))

/-- A MATCH whose check passes appends its copy and its symbol to OB, or raises CAPACITY (R180). -/
theorem matchBytes_obBytes {s : State} {offset length : Half} {symbol : Byte} (nonzero : offset ≠ 0)
    (inside : offset.toNat ≤ s.obLen) (legal : exceeds s.cfg.obCap s.obLen = false) :
    matchBytes s.cfg.obCap s.obBytes offset length symbol =
      withinCap s.cfg.obCap (s.obBytes ++ matchRun s.obBytes offset length symbol) := by
  rw [← obBytes_length s] at inside legal
  exact matchBytes_of_valid nonzero inside legal

/-- The bytes of its copy, as OB held them (R183). -/
theorem getElem?_matchRun_obBytes {s : State} {offset length : Half} {symbol : Byte} (nonzero : offset ≠ 0)
    (inside : offset.toNat ≤ s.obLen) {i : Nat} (copying : i < length.toNat) :
    (matchRun s.obBytes offset length symbol)[i]? =
      some (s.obAt (s.obLen - offset.toNat + i % offset.toNat)) := by
  have period := Nat.mod_lt i (offset_toNat_pos nonzero)
  rw [getElem?_matchRun_of_lt copying, obBytes_length, obBytes_getD s (by omega)]

/-- Settles O28: the check, then the closed form of the copy and the symbol, within OB. -/
theorem matchCopiesThenAppendsItsSymbol : Obligations.MatchCopiesThenAppendsItsSymbol := by
  unfold Obligations.MatchCopiesThenAppendsItsSymbol
  intro s offset length symbol
  have size : (s.obBytes ++ matchRun s.obBytes offset length symbol).length = s.obLen + length.toNat + 1 := by
    rw [List.length_append, obBytes_length, length_matchRun, Nat.add_assoc]
  refine ⟨fun kind => if_neg fun zero => kind.elim (· zero.1) (· zero.2), fun _ invalid written => ?_,
    fun nonzero inside room => ?_, fun nonzero inside noRoom legal written => ?_⟩
  · exact ⟨_, exec_matchTok_of_invalid invalid, raiseToken_endsError .., rfl,
      State.raiseToken_keepsDecoderInputs written _⟩
  · have appended := (matchBytes_obBytes nonzero inside (exceeds_mono room (by omega))).trans
      (withinCap_of_fits (by rwa [size]))
    refine ⟨_, exec_matchTok_of_ok appended, size,
      fun i copying => obAt_afterToken_of_appended s (getElem?_matchRun_obBytes nonzero inside copying),
      obAt_afterToken_of_appended s getElem?_matchRun_last, fun a outside => obAt_afterToken_of_outside s ?_,
      rfl, rfl, rfl, rfl, rfl, rfl, afterToken_keepsAllBut ..⟩
    rwa [length_matchRun, ← Nat.add_assoc]
  · have raised := (matchBytes_obBytes nonzero inside legal).trans (withinCap_of_exceeds (by rwa [size]))
    exact ⟨_, exec_matchTok_of_error raised, raiseToken_endsError ..,
      State.raiseToken_keepsDecoderInputs written _⟩

/-- Settles O30: without a copy the two tokens do the same to the output, and differ in working registers alone. -/
theorem zeroLengthMatchActsAsLit : Obligations.ZeroLengthMatchActsAsLit := by
  unfold Obligations.ZeroLengthMatchActsAsLit
  intro s offset symbol nonzero
  refine ⟨fun inside => ?_, fun outside => ?_⟩
  · have same : matchBytes s.cfg.obCap s.obBytes offset 0 symbol = litBytes s.cfg.obCap s.obBytes symbol :=
      matchBytes_zero_length nonzero (by rwa [obBytes_length])
    cases literal : litBytes s.cfg.obCap s.obBytes symbol with
    | error e => exact ⟨_, _, exec_matchTok_of_error (same.trans literal), exec_lit_of_error literal, rfl⟩
    | ok out => exact ⟨_, _, exec_matchTok_of_ok (same.trans literal), exec_lit_of_ok literal, rfl⟩
  · exact ⟨_, exec_matchTok_of_invalid (.inr outside), raiseToken_endsError ..⟩

end Sys2Proof.Machine

/-! PROOFS. The framer (spec/44_framer.md): FB as a body and four bytes, and what a record and the trailer read back as
(R65, R197, R198); the checks of `deserialize` on such a split (R203 to R205), whence a frame gives back its tokens
(R211) and one changed byte of it is an INTEGRITY error (R213). -/

namespace Sys2Proof.Machine

/-! ## The value of little-endian bytes (R65) -/

theorem leNat_lt (bs : List Byte) : leNat bs < 256 ^ bs.length := by
  induction bs with
  | nil => exact Nat.one_pos
  | cons b bs ih =>
    have low := b.isLt
    rw [leNat, List.length_cons, Nat.pow_succ]
    omega

/-- Byte strings of one length with one value are one string. -/
theorem eq_of_leNat_eq {xs ys : List Byte} (len : xs.length = ys.length) (value : leNat xs = leNat ys) : xs = ys := by
  induction xs generalizing ys with
  | nil => exact (List.length_eq_zero_iff.mp len.symm).symm
  | cons x xs ih =>
    cases ys with
    | nil => cases len
    | cons y ys =>
      have lowX := x.isLt
      have lowY := y.isLt
      rw [leNat, leNat] at value
      rw [BitVec.eq_of_toNat_eq (by omega : x.toNat = y.toNat), ih (Nat.succ.inj len) (by omega)]

/-! ## What FB holds, by address (R14, R197) -/

section Frame

variable {s : State} {before bytes after : List Byte}

theorem getElem_fbBytes (s : State) {i : Nat} (inside : i < s.fbBytes.length) : s.fbBytes[i] = s.fbAt i := by
  simp [State.fbBytes]

theorem getElem_tbTokens (s : State) {k : Nat} (inside : k < s.tbTokens.length) : s.tbTokens[k] = s.tbAt k := by
  simp [State.tbTokens]

/-- FB as its first bytes and those that follow. -/
theorem fbBytes_eq_append {m n : Nat} (len : s.fbLen = m + n) :
    s.fbBytes = (List.range m).map s.fbAt ++ (List.range n).map fun j => s.fbAt (m + j) := by
  rw [State.fbBytes, len, List.range_add, List.map_append, List.map_map]
  rfl

theorem map_fbAt_of_fbBytes (holds : s.fbBytes = before ++ after) :
    (List.range before.length).map s.fbAt = before := by
  have len : s.fbLen = before.length + after.length := by rw [← fbBytes_length, holds, List.length_append]
  exact (List.append_inj ((fbBytes_eq_append len).symm.trans holds) (by simp)).1

/-- MemRead at the address where bytes stand is their value. -/
theorem fbRead_of_fbBytes (holds : s.fbBytes = before ++ (bytes ++ after)) :
    s.fbRead before.length bytes.length = leNat bytes := by
  have len : s.fbLen = before.length + (bytes.length + after.length) := by
    rw [← fbBytes_length, holds, List.length_append, List.length_append]
  have rest := (List.append_inj ((fbBytes_eq_append len).symm.trans holds) (by simp)).2
  rw [List.range_add, List.map_append] at rest
  exact congrArg leNat (List.append_inj rest (by simp)).1

/-- The bytes MemWrite stores read back as their value (R14, R65). -/
theorem fbRead_of_leBytes {n v : Nat} (holds : s.fbBytes = before ++ (leBytes n v ++ after)) (fits : v < 256 ^ n) :
    s.fbRead before.length n = v := by
  have value := fbRead_of_fbBytes holds
  rwa [length_leBytes, leNat_leBytes, Nat.mod_eq_of_lt fits] at value

theorem fbRead_one (s : State) (a : Nat) : s.fbRead a 1 = (s.fbAt a).toNat := rfl

/-- The fields of a record, read at its address (R92, R94). -/
theorem fields_of_record {t : Token} {a : Nat} (holds : s.fbBytes = before ++ (recordBytes t ++ after))
    (address : before.length = a) :
    s.fbRead a 2 = t.offset.toNat ∧ s.fbRead (a + 2) 2 = t.length.toNat ∧ s.fbAt (a + 4) = t.symbol := by
  subst address
  simp only [recordBytes, List.append_assoc] at holds
  have length : s.fbRead (before ++ leBytes 2 t.offset.toNat).length 2 = t.length.toNat :=
    fbRead_of_leBytes (by rw [List.append_assoc]; exact holds) t.length.isLt
  have symbol : s.fbRead (before ++ (leBytes 2 t.offset.toNat ++ leBytes 2 t.length.toNat)).length 1 = t.symbol.toNat :=
    fbRead_of_leBytes (by simpa only [List.append_assoc] using holds) t.symbol.isLt
  simp only [List.length_append, length_leBytes, fbRead_one] at length symbol
  exact ⟨fbRead_of_leBytes holds t.offset.isLt, length, BitVec.eq_of_toNat_eq symbol⟩

theorem bodyBytes_append (ts us : List Token) : bodyBytes (ts ++ us) = bodyBytes ts ++ bodyBytes us :=
  List.flatMap_append

/-- Record `k` of a body at the front of FB is token `k`'s (R197). -/
theorem fields_of_body {ts : List Token} (holds : s.fbBytes = bodyBytes ts ++ after) {k : Nat} (inside : k < ts.length) :
    s.fbRead (5 * k) 2 = ts[k].offset.toNat ∧ s.fbRead (5 * k + 2) 2 = ts[k].length.toNat ∧
      s.fbAt (5 * k + 4) = ts[k].symbol := by
  have split : bodyBytes ts = bodyBytes (ts.take k) ++ (recordBytes ts[k] ++ bodyBytes (ts.drop (k + 1))) := by
    conv_lhs => rw [← List.take_append_drop k ts, List.drop_eq_getElem_cons inside, bodyBytes_append]
    rfl
  rw [split, List.append_assoc, List.append_assoc] at holds
  exact fields_of_record holds (by simp [Nat.min_eq_left (Nat.le_of_lt inside)])

/-- A host write changes one byte of the sequence (R70). -/
theorem fbBytes_write (s : State) (i : Nat) (b : Byte) :
    ({ s with fb := s.fb.write i b } : State).fbBytes = s.fbBytes.set i b := by
  apply List.ext_getElem
  · simp [State.fbBytes]
  · intro j _ _
    rw [List.getElem_set, getElem_fbBytes, getElem_fbBytes, State.fbAt, Buf.read_write]
    exact if_congr eq_comm rfl rfl

end Frame

/-! ## The checks on a body and its trailer (R203 to R205) -/

/-- The checksum that the last four bytes of a frame hold (R204). -/
def storedSum (trailer : List Byte) : Word32 := BitVec.ofNat 32 (leNat trailer)

theorem storedSum_leBytes (w : Word32) : storedSum (leBytes 4 w.toNat) = w := by
  have value : leNat (leBytes 4 w.toNat) = w.toNat := (leNat_leBytes 4 _).trans (Nat.mod_eq_of_lt w.isLt)
  rw [storedSum, value, BitVec.ofNat_toNat, BitVec.setWidth_eq]

section Checks

variable {cap : Option Nat} {body trailer : List Byte} {s t : State}

/-- Four bytes fill the 32-bit register exactly. -/
theorem toNat_storedSum (four : trailer.length = 4) : (storedSum trailer).toNat = leNat trailer := by
  have bound := leNat_lt trailer
  rw [four] at bound
  exact Nat.mod_eq_of_lt bound

theorem storedSum_injective {trailer' : List Byte} (four : trailer.length = 4) (four' : trailer'.length = 4)
    (same : storedSum trailer = storedSum trailer') : trailer = trailer' :=
  eq_of_leNat_eq (four.trans four'.symm) (by rw [← toNat_storedSum four, ← toNat_storedSum four', same])

/-- The split of R204, and the checks of R203 in their order. -/
theorem deserialize_append (four : trailer.length = 4) :
    deserialize cap (body ++ trailer) =
      if checksum body ≠ storedSum trailer then .failed .integrity (checksum body) (storedSum trailer)
      else if body.length % 5 ≠ 0 then .failed .malformedRecord (checksum body) (storedSum trailer)
      else if exceeds cap (body.length / 5) then .failed .capacity (checksum body) (storedSum trailer)
      else .tokens (parseRecords body) (checksum body) (storedSum trailer) := by
  have all : trailer.take 4 = trailer := List.take_of_length_le (Nat.le_of_eq four)
  simp [deserialize, memRead, storedSum, four, all]

section Answers

variable (holds : s.fbBytes = body ++ trailer) (four : trailer.length = 4)

include holds four

/-- MemRead after the body is the stored checksum (R204). -/
theorem fbRead_trailer : s.fbRead body.length 4 = (storedSum trailer).toNat := by
  have value := fbRead_of_fbBytes (after := []) (holds.trans (congrArg (body ++ ·) (List.append_nil _).symm))
  rwa [four, ← toNat_storedSum four] at value

theorem exec_deserialize_of_differ (differ : checksum body ≠ storedSum trailer) :
    exec .deserialize s = .next ((s.putSums (checksum body) (storedSum trailer)).raise 6 0 .integrity 0) :=
  exec_deserialize_of_failed (by rw [holds, deserialize_append four, if_pos differ])

theorem exec_deserialize_of_misaligned (agree : checksum body = storedSum trailer) (misaligned : body.length % 5 ≠ 0) :
    exec .deserialize s = .next ((s.putSums (checksum body) (storedSum trailer)).raise 6 0 .malformedRecord 0) :=
  exec_deserialize_of_failed (by
    rw [holds, deserialize_append four, if_neg (not_not.mpr agree), if_pos misaligned])

theorem exec_deserialize_of_exceeds (agree : checksum body = storedSum trailer) (aligned : body.length % 5 = 0)
    (noRoom : exceeds s.cfg.tbCap (body.length / 5) = true) :
    exec .deserialize s = .next ((s.putSums (checksum body) (storedSum trailer)).raise 6 0 .capacity 0) :=
  exec_deserialize_of_failed (by
    rw [holds, deserialize_append four, if_neg (not_not.mpr agree), if_neg (not_not.mpr aligned), if_pos noRoom])

theorem exec_deserialize_of_fits (agree : checksum body = storedSum trailer) (aligned : body.length % 5 = 0)
    (fits : exceeds s.cfg.tbCap (body.length / 5) = false) :
    exec .deserialize s =
      .next (((s.putSums (checksum body) (storedSum trailer)).putTokens (parseRecords body)).complete 6) :=
  exec_deserialize_of_tokens (by
    rw [holds, deserialize_append four, if_neg (not_not.mpr agree), if_neg (not_not.mpr aligned), fits]
    rfl)

theorem tokens_of_exec_deserialize (agree : checksum body = storedSum trailer) (aligned : body.length % 5 = 0)
    (fits : exceeds s.cfg.tbCap (body.length / 5) = false) (answer : exec .deserialize s = .next t) :
    t.EndsDone ∧ t.tbTokens = parseRecords body := by
  cases answer.symm.trans (exec_deserialize_of_fits holds four agree aligned fits)
  exact ⟨State.complete_endsDone .., tbTokens_complete_of_put rfl rfl 6⟩

/-- DESERIALIZE records both checksums once check 1 passes, whichever check fails next (R208; log 19). -/
theorem sums_of_exec_deserialize (answer : exec .deserialize s = .next t) :
    t.crcOut = checksum body ∧ t.crcStored = storedSum trailer := by
  by_cases agree : checksum body = storedSum trailer
  · by_cases aligned : body.length % 5 = 0
    · cases room : exceeds s.cfg.tbCap (body.length / 5) with
      | true =>
        cases answer.symm.trans (exec_deserialize_of_exceeds holds four agree aligned room)
        exact ⟨rfl, rfl⟩
      | false =>
        cases answer.symm.trans (exec_deserialize_of_fits holds four agree aligned room)
        exact ⟨rfl, rfl⟩
    · cases answer.symm.trans (exec_deserialize_of_misaligned holds four agree aligned)
      exact ⟨rfl, rfl⟩
  · cases answer.symm.trans (exec_deserialize_of_differ holds four agree)
    exact ⟨rfl, rfl⟩

end Answers

/-- A body of whole records is the records of the tokens parsed from it (R205, R206). -/
theorem bodyBytes_parseRecords {bs : List Byte} (aligned : bs.length % 5 = 0) : bodyBytes (parseRecords bs) = bs := by
  induction bs using parseRecords.induct with
  | case1 b0 b1 b2 b3 b4 rest ih =>
    have rest : bodyBytes (parseRecords rest) = rest := ih ((Nat.add_mod_right rest.length 5).symm.trans aligned)
    rw [parseRecords, bodyBytes, List.flatMap_cons, recordBytes_tokenOfBytes]
    exact congrArg ([b0, b1, b2, b3, b4] ++ ·) rest
  | case2 bs short =>
    match bs, short with
    | [], _ => rfl
    | b0 :: b1 :: b2 :: b3 :: b4 :: rest, short => exact absurd rfl (short b0 b1 b2 b3 b4 rest)

end Checks

/-! ## A frame reads back (R211) -/

theorem deserialize_frameBytes {cap : Option Nat} {ts : List Token} (fits : exceeds cap ts.length = false) :
    deserialize cap (frameBytes ts) = .tokens ts (checksum (bodyBytes ts)) (checksum (bodyBytes ts)) := by
  rw [frameBytes, deserialize_append (length_leBytes 4 _), storedSum_leBytes, parseRecords_bodyBytes]
  simp [fits]

/-- Settles O38: with no bound on TB every frame reads back, so the frame determines the tokens. -/
theorem framesAreInjective : Obligations.FramesAreInjective := by
  unfold Obligations.FramesAreInjective
  intro ts ts' same
  have readBack := deserialize_frameBytes (exceeds_none ts.length)
  rw [same, deserialize_frameBytes (exceeds_none ts'.length)] at readBack
  injection readBack with tokens
  exact tokens.symm

/-- What SERIALIZE leaves when the frame fits FB (R196 to R198). -/
theorem exec_serialize_writes {s : State} (fits : exceeds s.cfg.fbCap (5 * s.tbLen + 4) = false) :
    ∃ t, exec .serialize s = .next t ∧ t.EndsDone ∧ t.fbBytes = frameBytes s.tbTokens ∧
      t.crcOut = checksum (bodyBytes s.tbTokens) ∧ KeepsAllBut [.fb, .crcOut] s t :=
  ⟨_, exec_serialize_of_fits (by rwa [tbTokens_length]), State.complete_endsDone .., fbBytes_complete_of_put rfl rfl 5,
    rfl, (keepsAllBut_frame (by decide) (by decide)).trans (complete_keepsAllBut _ 5)⟩

/-- Settles O37: SERIALIZE leaves the frame in FB, and DESERIALIZE parses its records back. -/
theorem serializeThenDeserializeRestoresTheTokens : Obligations.SerializeThenDeserializeRestoresTheTokens := by
  unfold Obligations.SerializeThenDeserializeRestoresTheTokens
  intro s fbRoom tbRoom
  obtain ⟨t, written, done, frame, -, ⟨-, -, -, cfg, -⟩, -⟩ := exec_serialize_writes fbRoom
  have readBack : deserialize t.cfg.tbCap t.fbBytes =
      .tokens s.tbTokens (checksum (bodyBytes s.tbTokens)) (checksum (bodyBytes s.tbTokens)) := by
    rw [cfg, frame]
    exact deserialize_frameBytes (by rwa [tbTokens_length])
  exact ⟨t, _, written, done, exec_deserialize_of_tokens readBack, State.complete_endsDone ..,
    tbTokens_complete_of_put rfl rfl 6, rfl⟩

/-- Settles O34: FB holds the body and the bytes of its checksum, and each address reads what stands there. -/
theorem serializeWritesTheFrame : Obligations.SerializeWritesTheFrame := by
  unfold Obligations.SerializeWritesTheFrame
  intro s
  refine ⟨fun fits => ?_, fun noRoom => ?_⟩
  · obtain ⟨t, answer, done, frame, crcOut, kept⟩ := exec_serialize_writes fits
    have bodyLength : (bodyBytes s.tbTokens).length = 5 * s.tbLen := by rw [length_bodyBytes, tbTokens_length]
    refine ⟨t, answer, done, ?_, fun k inside => ?_, ?_, ?_, kept⟩
    · rw [← fbBytes_length, frame, length_frameBytes, tbTokens_length]
    · have fields := fields_of_body frame (inside.trans_eq (tbTokens_length s).symm)
      rwa [getElem_tbTokens] at fields
    · rw [crcOut, ← bodyLength, map_fbAt_of_fbBytes frame]
    · rw [crcOut, ← bodyLength]
      exact fbRead_of_leBytes (after := []) (by rw [List.append_nil]; exact frame) (BitVec.isLt _)
  · exact ⟨_, exec_serialize_of_exceeds (by rwa [tbTokens_length]), State.raise_endsError .., raise_keepsAllBut s 5 0 _ 0⟩

/-- Settles O35: each check is read off the split of FB, and the body is the records of the tokens in TB. -/
theorem deserializeChecksInOrder : Obligations.DeserializeChecksInOrder := by
  unfold Obligations.DeserializeChecksInOrder
  intro s
  obtain ⟨t, answer⟩ := everyInstructionAnswersANextState .deserialize s
  have frame := (operationsKeepWhatTheyDoNotDeclare 6 .deserialize s t rfl answer).1
  refine ⟨t, answer, frame, fun short => ?_, fun enough => ?_⟩
  · cases answer.symm.trans (exec_deserialize_of_truncated (if_pos (by rwa [fbBytes_length])))
    exact State.raise_endsError ..
  obtain ⟨body, trailer, holds, four⟩ : ∃ body trailer, s.fbBytes = body ++ trailer ∧ trailer.length = 4 :=
    ⟨_, _, (List.take_append_drop (s.fbLen - 4) _).symm, by
      rw [List.length_drop, fbBytes_length, Nat.sub_sub_self enough]⟩
  have bodyLength : s.fbLen - 4 = body.length := by
    rw [← fbBytes_length, holds, List.length_append, four, Nat.add_sub_cancel]
  have sum : s.fbRead body.length 4 = (storedSum trailer).toNat := fbRead_trailer holds four
  simp only [bodyLength, map_fbAt_of_fbBytes holds, sum, ne_eq, BitVec.toNat_inj]
  refine ⟨fun _ => sums_of_exec_deserialize holds four answer, fun differ => ?_, fun agree misaligned => ?_,
    fun agree aligned noRoom => ?_, fun agree aligned fits => ?_⟩
  · cases answer.symm.trans (exec_deserialize_of_differ holds four differ)
    exact State.raise_endsError ..
  · cases answer.symm.trans (exec_deserialize_of_misaligned holds four agree misaligned)
    exact State.raise_endsError ..
  · cases answer.symm.trans (exec_deserialize_of_exceeds holds four agree aligned noRoom)
    exact State.raise_endsError ..
  · obtain ⟨done, tokens⟩ := tokens_of_exec_deserialize holds four agree aligned fits answer
    have count : t.tbTokens.length = body.length / 5 := by rw [tokens, length_parseRecords]
    have records : s.fbBytes = bodyBytes t.tbTokens ++ trailer := by rw [tokens, bodyBytes_parseRecords aligned, holds]
    refine ⟨done, (tbTokens_length t).symm.trans count, fun k inside => ?_⟩
    obtain ⟨offset, length, symbol⟩ := fields_of_body records (inside.trans_eq count.symm)
    rw [getElem_tbTokens] at offset length symbol
    exact ⟨offset.symm, length.symm, symbol.symm⟩

/-! ## One changed byte (R213) -/

/-- Another byte at one place gives another checksum (R129). -/
theorem checksum_set_ne {bs : List Byte} {i : Nat} (inside : i < bs.length) {b : Byte} (other : b ≠ bs[i]) :
    checksum (bs.set i b) ≠ checksum bs := by
  intro same
  rw [List.set_eq_take_append_cons_drop, if_pos inside] at same
  conv_rhs at same => rw [← List.take_append_drop i bs, List.drop_eq_getElem_cons inside]
  exact other (checksumDetectsAnyChangeOfOneByte _ _ _ _ same)

theorem storedSum_set_ne {trailer : List Byte} (four : trailer.length = 4) {i : Nat} (inside : i < trailer.length)
    {b : Byte} (other : b ≠ trailer[i]) : storedSum (trailer.set i b) ≠ storedSum trailer := by
  intro same
  have bytes := storedSum_injective (List.length_set.trans four) four same
  exact other ((List.getElem_set_self (by rwa [List.length_set])).symm.trans (List.getElem_of_eq bytes _))

/-- A changed byte is in the body, whose checksum changes, or in the trailer, whose value changes. -/
theorem set_frameBytes_differs {ts : List Token} {i : Nat} (inside : i < (frameBytes ts).length) {b : Byte}
    (other : b ≠ (frameBytes ts)[i]) :
    ∃ body trailer, (frameBytes ts).set i b = body ++ trailer ∧ trailer.length = 4 ∧
      checksum body ≠ storedSum trailer := by
  have agree := storedSum_leBytes (checksum (bodyBytes ts))
  have four := length_leBytes 4 (checksum (bodyBytes ts)).toNat
  unfold frameBytes at inside other ⊢
  rcases Nat.lt_or_ge i (bodyBytes ts).length with inBody | inTrailer
  · rw [List.getElem_append_left inBody] at other
    have differ := checksum_set_ne inBody other
    rw [← agree] at differ
    exact ⟨_, _, List.set_append_left _ _ inBody, four, differ⟩
  · rw [List.getElem_append_right inTrailer] at other
    have differ := (storedSum_set_ne four _ other).symm
    rw [agree] at differ
    exact ⟨_, _, List.set_append_right _ _ inTrailer, List.length_set.trans four, differ⟩

/-- Settles O39: the changed frame's checksum and trailer differ, and that is the first check DESERIALIZE makes. -/
theorem anyCorruptByteRaisesIntegrity : Obligations.AnyCorruptByteRaisesIntegrity := by
  unfold Obligations.AnyCorruptByteRaisesIntegrity
  intro s i b fits inside
  obtain ⟨t, answer, done, frame, -⟩ := exec_serialize_writes fits
  have within : i < (frameBytes s.tbTokens).length := by rwa [length_frameBytes, tbTokens_length]
  refine ⟨t, answer, done, fun other => ?_⟩
  have byte : t.fbAt i = (frameBytes s.tbTokens)[i] := by simp only [← frame, getElem_fbBytes]
  obtain ⟨body, trailer, changed, four, differ⟩ := set_frameBytes_differs within (byte ▸ other)
  have holds := fbBytes_write t i b
  rw [frame, changed] at holds
  exact ⟨_, exec_deserialize_of_differ holds four differ, State.raise_endsError ..⟩

end Sys2Proof.Machine

/-! PROOFS. The composite operations (spec/45_composite_ops.md): PACK leaves what ENCODE and then SERIALIZE leave
(R225), UNPACK what DESERIALIZE and then DECODE leave (R226), so UNPACK of PACK restores the input (R228); CMP compares
the sequences (R230); and the tokens that stage 1 of UNPACK decodes are those that stage 0 has written (R205, R226). -/

namespace Sys2Proof.Machine

/-! ## What the units' functions give when there is room -/

/-- With room for a token a byte `encode` gives an encoding of the buffer, of at most that many tokens. -/
theorem encodeTokens_of_room {cap : Option Nat} {buffer : List Byte} (window : Half)
    (room : exceeds cap buffer.length = false) :
    ∃ ts, encodeTokens cap buffer window.toNat = .ok ts ∧ EncodesFrom buffer window.toNat 0 ts ∧
      ts.length ≤ buffer.length := by
  obtain ⟨ts, encodes⟩ := exists_encodesFrom buffer window 0 (Nat.zero_le _)
  have few : ts.length ≤ buffer.length := by simpa using encodes.length_le
  have encoded := encodes.encodeTokens_eq cap
  rw [exceeds_mono room few] at encoded
  exact ⟨ts, encoded, encodes, few⟩

/-- `decode` of tokens whose replay fits OB gives the replay (R177, R183). -/
theorem decodeTokens_of_replay {cap : Option Nat} {ts : List Token} {out : List Byte}
    (replayed : replay [] ts = some out) (fits : exceeds cap out.length = false) : decodeTokens cap ts = .ok out := by
  have decoded := decodeFrom_append_of_replay (k := 0) (rest := []) (exceeds_zero cap) replayed
  rw [List.append_nil, fits] at decoded
  exact decoded

/-! ## What the composite operations leave when they complete (R225, R226) -/

section Completed

variable {s : State} {ts : List Token}

/-- PACK leaves the tokens, their frame and its checksum. -/
theorem exec_pack_writes (encoded : encodeTokens s.cfg.tbCap s.ibBytes s.window.toNat = .ok ts)
    (fits : exceeds s.cfg.fbCap (5 * ts.length + 4) = false) :
    ∃ v, exec .pack s = .next v ∧ v.EndsDone ∧ v.tbTokens = ts ∧ v.fbBytes = frameBytes ts ∧
      v.crcOut = checksum (bodyBytes ts) :=
  ⟨_, exec_pack_of_fits encoded fits, State.complete_endsDone .., tbTokens_complete_of_put rfl rfl 7,
    fbBytes_complete_of_put rfl rfl 7, rfl⟩

/-- UNPACK leaves the tokens of the frame, the two checksums and the output of the tokens. -/
theorem exec_unpack_writes {computed stored : Word32} {bs : List Byte}
    (readBack : deserialize s.cfg.tbCap s.fbBytes = .tokens ts computed stored)
    (decoded : decodeTokens s.cfg.obCap ts = .ok bs) :
    ∃ v, exec .unpack s = .next v ∧ v.EndsDone ∧ v.tbTokens = ts ∧ v.crcOut = computed ∧ v.crcStored = stored ∧
      v.obBytes = bs :=
  ⟨_, exec_unpack_of_decode_ok readBack decoded, State.complete_endsDone .., tbTokens_complete_of_put rfl rfl 8, rfl,
    rfl, obBytes_complete_of_put rfl rfl 8⟩

end Completed

/-! ## The round trip (R228) -/

theorem KeepsIb.ibBytes_eq {s t : State} (kept : KeepsIb s t) : t.ibBytes = s.ibBytes := by
  obtain ⟨len, bytes⟩ := kept
  rw [State.ibBytes, State.ibBytes, len, funext bytes]

theorem KeepsTb.tbTokens_eq {s t : State} (kept : KeepsTb s t) : t.tbTokens = s.tbTokens := by
  obtain ⟨len, tokens⟩ := kept
  rw [State.tbTokens, State.tbTokens, len, funext tokens]

/-- Settles O42: PACK leaves the frame of an encoding of IB, UNPACK reads its tokens back and decodes them to IB, and
neither has written IB. -/
theorem packThenUnpackRestoresTheInput : Obligations.PackThenUnpackRestoresTheInput := by
  unfold Obligations.PackThenUnpackRestoresTheInput
  intro s tbRoom fbRoom obRoom
  rw [← ibBytes_length] at tbRoom fbRoom obRoom
  obtain ⟨ts, encoded, encodes, few⟩ := encodeTokens_of_room s.window tbRoom
  obtain ⟨t, packed, done, -, frame, -⟩ := exec_pack_writes encoded (exceeds_mono fbRoom (by omega))
  obtain ⟨⟨-, -, ib, cfg, -⟩, -⟩ := (operationsKeepWhatTheyDoNotDeclare 7 .pack s t rfl packed).1
  have readBack := deserialize_frameBytes (encodeTokens_fits encoded)
  have decoded : decodeTokens s.cfg.obCap ts = .ok s.ibBytes := encodes.decodeFrom_eq obRoom
  rw [← frame, ← cfg] at readBack
  rw [← cfg] at decoded
  obtain ⟨u, unpacked, done', -, -, -, output⟩ := exec_unpack_writes readBack decoded
  obtain ⟨⟨-, -, ib', -⟩, -⟩ := (operationsKeepWhatTheyDoNotDeclare 8 .unpack t u rfl unpacked).1
  have same : u.ibBytes = u.obBytes := by rw [ib'.ibBytes_eq, ib.ibBytes_eq, output]
  refine ⟨t, u, _, packed, done, unpacked, done', output, ?_, exec_cmp u, ?_⟩
  · rw [← obBytes_length, output, ibBytes_length]
  · exact (equalityFlag_eq _ _).trans (if_pos same)

/-! ## PACK as two operations (R225) -/

/-- Settles O40: both ways the tokens are those of `encode`, and the frame is theirs. -/
theorem packIsEncodeThenSerialize : Obligations.PackIsEncodeThenSerialize := by
  unfold Obligations.PackIsEncodeThenSerialize
  intro s
  obtain ⟨v, packed, ends⟩ := exec_pack_ends s
  refine ⟨v, packed, ends.frame, fun tbRoom fbRoom => ?_, ?_⟩
  · rw [← ibBytes_length] at tbRoom fbRoom
    obtain ⟨ts, encoded, -, few⟩ := encodeTokens_of_room s.window tbRoom
    cases packed.symm.trans (exec_pack_of_fits encoded (exceeds_mono fbRoom (by omega)))
    exact State.complete_endsDone ..
  cases encoded : encodeTokens s.cfg.tbCap s.ibBytes s.window.toNat with
  | error e =>
    cases packed.symm.trans (exec_pack_of_error encoded)
    exact ⟨_, exec_encode_of_error encoded, fun _ => ⟨State.raise_endsError .., encodeFrom_error encoded⟩, nofun⟩
  | ok ts =>
    refine ⟨_, exec_encode_of_ok encoded, nofun, fun _ => ?_⟩
    have tokens : ((s.putTokens ts).complete 3).tbTokens = ts := tbTokens_complete_of_put rfl rfl 3
    cases fits : exceeds s.cfg.fbCap (5 * ts.length + 4) with
    | true =>
      cases packed.symm.trans (exec_pack_of_exceeds encoded fits)
      exact ⟨_, exec_serialize_of_exceeds (by rw [tokens]; exact fits), rfl, rfl, rfl, fun _ => rfl, nofun⟩
    | false =>
      cases packed.symm.trans (exec_pack_of_fits encoded fits)
      obtain ⟨u, written, ⟨status, err, errInfo⟩, frame, crcOut, -, kept⟩ :=
        exec_serialize_writes (s := (s.putTokens ts).complete 3) fits
      have tb := (kept .tb (by decide)).tbTokens_eq
      rw [tokens] at frame crcOut tb
      exact ⟨u, written, status.symm, err.symm, errInfo.symm, (fun error => nomatch status.symm.trans error), fun _ =>
        ⟨(tbTokens_complete_of_put rfl rfl 7).trans tb.symm, (fbBytes_complete_of_put rfl rfl 7).trans frame.symm,
          crcOut.symm⟩⟩

/-! ## UNPACK as two operations (R226) -/

/-- An error that leaves TB specified leaves a sequence that was stored whole in it. -/
theorem tbTokens_raise_of_put {s : State} {b : Buf Token} {ts : List Token} (hb : s.tb = b.put ts)
    (hl : s.tbLen = ts.length) {c : BitVec 4} {p : BitVec 1} {e : ErrKind} (specified : .tb ∉ unspecified c p e)
    (k : Nat) : (s.raise c p e k).tbTokens = ts := by
  unfold State.tbTokens State.tbAt
  rw [State.raise_tb, State.raise_tbLen, if_neg specified, if_neg specified, hb, hl]
  split
  · exact Buf.map_read_sealAt_put _ b ts _
  · exact Buf.map_read_put _ b ts

/-- An error of stage 1 of UNPACK leaves TB as stage 0 wrote it (R226). -/
theorem tb_specified_unpack_decoding (e : ErrKind) : .tb ∉ unspecified 8 1 e := by
  change .tb ∉ [Output.ob]
  decide

/-- Settles O41: both ways `deserialize` of FB decides stage 0, and `decode` of its tokens stage 1. -/
theorem unpackIsDeserializeThenDecode : Obligations.UnpackIsDeserializeThenDecode := by
  unfold Obligations.UnpackIsDeserializeThenDecode
  intro s
  obtain ⟨v, unpacked, ends⟩ := exec_unpack_ends s
  refine ⟨v, unpacked, ends.frame, fun ts x y out readBack replayed fits => ?_, ?_⟩
  · obtain ⟨v', unpacked', written⟩ := exec_unpack_writes readBack (decodeTokens_of_replay replayed fits)
    cases unpacked.symm.trans unpacked'
    exact written
  cases readBack : deserialize s.cfg.tbCap s.fbBytes with
  | truncated =>
    cases unpacked.symm.trans (exec_unpack_of_truncated readBack)
    exact ⟨_, exec_deserialize_of_truncated readBack,
      fun _ => ⟨State.raise_endsError .., .inl rfl, fun later => absurd rfl later⟩, nofun⟩
  | failed e x y =>
    cases unpacked.symm.trans (exec_unpack_of_failed readBack)
    have kind := deserialize_failed readBack
    refine ⟨_, exec_deserialize_of_failed readBack, fun _ => ⟨State.raise_endsError .., .inr kind, ?_⟩, nofun⟩
    rcases kind with rfl | rfl | rfl <;> exact fun _ _ => ⟨rfl, rfl⟩
  | tokens ts x y =>
    refine ⟨_, exec_deserialize_of_tokens readBack, nofun, fun _ => ?_⟩
    have tokens : (((s.putSums x y).putTokens ts).complete 6).tbTokens = ts := tbTokens_complete_of_put rfl rfl 6
    rw [tokens]
    cases decoded : decodeTokens s.cfg.obCap ts with
    | error ek =>
      obtain ⟨e, k⟩ := ek
      cases unpacked.symm.trans (exec_unpack_of_decode_error readBack decoded)
      have tb := tb_specified_unpack_decoding e
      exact ⟨tbTokens_raise_of_put rfl rfl tb k, rfl, rfl, _, exec_decode_of_error (by rw [tokens]; exact decoded),
        rfl, rfl, rfl, fun _ => (decodeFrom_error decoded).elim (fun capacity => .inr capacity.1) .inl, nofun⟩
    | ok bs =>
      obtain ⟨v', unpacked', ⟨status, err, errInfo⟩, tb, crcOut, crcStored, ob⟩ := exec_unpack_writes readBack decoded
      cases unpacked.symm.trans unpacked'
      exact ⟨tb, crcOut, crcStored, _, exec_decode_of_ok (by rw [tokens]; exact decoded), status, err, errInfo, nofun,
        fun _ => ob.trans (obBytes_complete_of_put rfl rfl 4).symm⟩

/-! ## CMP (R230) -/

theorem ibBytes_eq_obBytes_iff (s : State) :
    s.ibBytes = s.obBytes ↔ s.ibLen = s.obLen ∧ ∀ i, i < s.ibLen → s.ibAt i = s.obAt i := by
  constructor
  · intro same
    have len : s.ibLen = s.obLen := by rw [← ibBytes_length, same, obBytes_length]
    rw [State.ibBytes, State.obBytes, ← len, List.map_inj_left] at same
    exact ⟨len, fun i inside => same i (List.mem_range.mpr inside)⟩
  · rintro ⟨len, bytes⟩
    rw [State.ibBytes, State.obBytes, ← len, List.map_inj_left]
    exact fun i inside => bytes i (List.mem_range.mp inside)

/-- Settles O43: EQ is the equality of the two sequences. -/
theorem cmpComparesLengthsThenBytes : Obligations.CmpComparesLengthsThenBytes := by
  unfold Obligations.CmpComparesLengthsThenBytes
  refine ⟨rfl, fun s => ⟨_, exec_cmp s, State.complete_endsDone ..,
    (keepsAllBut_eqFlag (by decide)).trans (complete_keepsAllBut _ 9), ?_⟩⟩
  simp only [State.complete_eqFlag, equalityFlag_eq, ibBytes_eq_obBytes_iff]

/-! ## The tokens that stage 1 of UNPACK decodes (R205, R226) -/

theorem Buf.isSome_get?_write_self {α : Type} (b : Buf α) (i : Nat) (v : α) :
    (Memory.get? (b.write i v).cells i).isSome = true := by
  simp [Buf.write]

section StageLegal

variable {s t u : State}

theorem stageLegal_ite {p : Prop} [Decidable p] (yes : p → t.StageLegal) (no : ¬ p → u.StageLegal) :
    (if p then t else u).StageLegal := by
  split
  · next h => exact yes h
  · next h => exact no h

theorem complete_stageLegal {c : BitVec 4} : (s.complete c).StageLegal :=
  State.stageLegal_of_not_busy nofun

theorem raise_stageLegal {c : BitVec 4} {p : BitVec 1} {e : ErrKind} {k : Nat} : (s.raise c p e k).StageLegal :=
  State.stageLegal_of_not_busy nofun

theorem rejectCommand_stageLegal : s.rejectCommand.StageLegal :=
  State.stageLegal_of_not_busy nofun

theorem OperationEnd.stageLegal {c : BitVec 4} (h : OperationEnd c s t) : t.StageLegal := by
  cases h with
  | completes _ _ => exact complete_stageLegal
  | raises _ _ _ => exact raise_stageLegal

/-- `append(OB, b)` of DEC leaves TB and OPC alone. -/
theorem emitByte_stageLegal (b : Byte) {w : Work} {next : Seq} (row : next = .dCopy ∨ next = .dFetch)
    (opc : w.opc = s.work.opc) (written : s.status = .busy → s.work.opc = 8 → s.TokensWritten) :
    (s.emitByte b w next).StageLegal := by
  refine stageLegal_ite (fun _ => raise_stageLegal) fun _ => ?_
  rw [← opc] at written
  rcases row with rfl | rfl <;> exact written

/-- The first row: DEC begins with the code of DECODE, no record has been read back. -/
theorem seqStart_stageLegal (s : State) : (seqStart s).StageLegal := by
  unfold seqStart
  split
  case h_4 code =>
    intro _ eight
    change s.work.opc = 8 at eight
    rw [eight] at code
    cases code
  case h_10 => exact rejectCommand_stageLegal
  all_goals exact fun _ => trivial

theorem seqCrcDone_stageLegal (s : State) : (seqCrcDone s).StageLegal := by
  unfold seqCrcDone
  split
  · exact complete_stageLegal
  all_goals exact fun _ => trivial

/-- X_REC writes the token at RIX and steps RIX past it. -/
theorem seqParse_stageLegal (s : State) (legal : State.StageLegal { s with seq := .xRec }) :
    (seqParse { s with seq := .xRec }).StageLegal := by
  refine stageLegal_ite (fun _ => legal) fun _ busy k below => ?_
  rcases Nat.lt_succ_iff_lt_or_eq.mp below with before | rfl
  · exact Buf.isSome_get?_write (legal busy k before)
  · exact Buf.isSome_get?_write_self ..

/-- Every row of the reference sequencings keeps it: TB_LEN is set to RIX when the records have been read back, and no
row of DEC writes TB, TB_LEN or OPC. -/
theorem microStep_stageLegal (legal : s.StageLegal) : (microStep s).StageLegal := by
  suffices rows : ∀ q : Seq, State.StageLegal { s with seq := q } → (microStep { s with seq := q }).StageLegal from
    rows s.seq legal
  intro q legal
  cases q with
  | opStart => exact seqStart_stageLegal _
  | cFin => exact seqCrcDone_stageLegal _
  | cInit | mCand | eInit | eFind | sCrc | sTrl | xCrc => exact fun _ => trivial
  | cByte | cBit | mInit | mExt | mUpd | eTest | sRec => exact stageLegal_ite (fun _ _ => trivial) fun _ _ => trivial
  | mDone => exact stageLegal_ite (fun _ => complete_stageLegal) fun _ _ => trivial
  | eEmit =>
    exact stageLegal_ite (fun _ => stageLegal_ite (fun _ => raise_stageLegal) fun _ _ => trivial) fun _ =>
      stageLegal_ite (fun _ => raise_stageLegal) fun _ _ => trivial
  | eDone => exact stageLegal_ite (fun _ _ => trivial) fun _ => complete_stageLegal
  | sInit => exact stageLegal_ite (fun _ => raise_stageLegal) fun _ _ => trivial
  | sDone | dDone | qCmp => exact complete_stageLegal
  | xLen | xCmp => exact stageLegal_ite (fun _ => raise_stageLegal) fun _ _ => trivial
  | xAlign =>
    exact stageLegal_ite (fun _ => raise_stageLegal) fun _ =>
      stageLegal_ite (fun _ => raise_stageLegal) fun _ _ k below => absurd below (Nat.not_lt_zero k)
  | xRec => exact seqParse_stageLegal s legal
  | xDone => exact stageLegal_ite (fun _ busy _ => legal busy) fun _ => complete_stageLegal
  | dInit => exact legal
  | dFetch =>
    refine stageLegal_ite (fun _ => legal) fun _ => ?_
    dsimp only
    split <;> exact legal
  | dCheck => exact stageLegal_ite (fun _ => raise_stageLegal) fun _ => legal
  | dCopy => exact stageLegal_ite (fun _ => legal) fun _ => emitByte_stageLegal _ (.inl rfl) rfl legal
  | dSym => exact emitByte_stageLegal _ (.inr rfl) rfl legal

/-- What a move answers keeps it. -/
def Move.KeepsStage (m : Move) (s : State) : Prop := ∀ t, m.result s = .next t → t.StageLegal

theorem goto_keepsStage (legal : t.StageLegal) : (Move.goto t).KeepsStage s := by
  rintro _ ⟨⟩
  exact legal

/-- An operation as one step ends. -/
theorem fetchOperation_keepsStage (s : State) : (fetchOperation s).KeepsStage s := by
  unfold fetchOperation
  split
  · next code =>
    intro t answer
    obtain ⟨u, answer', ends⟩ := exec_ends s code
    cases answer'.symm.trans answer
    exact ends.stageLegal
  · exact goto_keepsStage rejectCommand_stageLegal

/-- A token as one step leaves TB and OPC alone. -/
theorem fetchToken_keepsStage (row : s.seq = .dFetch) (legal : s.StageLegal) : (fetchToken s).KeepsStage s := by
  unfold fetchToken
  split
  · exact goto_keepsStage complete_stageLegal
  · intro t answer
    change exec _ s = _ at answer
    rcases exec_decodeToken s (s.tbAt s.work.tix) with ⟨e, -, raised⟩ | ⟨run, w, -, opc, goesOn⟩
    · cases raised.symm.trans answer
      exact raise_stageLegal
    · cases goesOn.symm.trans answer
      unfold State.StageLegal at legal
      rw [row, ← opc] at legal
      exact legal

/-- Stage 0 of UNPACK as one step stores the tokens whole. -/
theorem fetchStepped_keepsStage (s : State) : (fetchStepped s).KeepsStage s := by
  unfold fetchStepped State.unpackStage0
  split
  · next four =>
    exact goto_keepsStage fun _ eight => absurd (four.symm.trans eight) (by decide)
  · split
    · cases deserialize s.cfg.tbCap s.fbBytes with
      | truncated => exact goto_keepsStage raise_stageLegal
      | failed e computed stored => exact goto_keepsStage raise_stageLegal
      | tokens ts computed stored => exact goto_keepsStage fun _ _ => State.tokensWritten_putTokens _ ts
    · exact fetchOperation_keepsStage s

theorem coreMove_keepsStage (legal : s.StageLegal) : (coreMove s).KeepsStage s := by
  unfold coreMove
  split
  · exact goto_keepsStage legal
  · split
    · exact goto_keepsStage (microStep_stageLegal legal)
    · exact fetchOperation_keepsStage s
    · exact fetchStepped_keepsStage s
    · next row _ => exact fetchToken_keepsStage row legal
    · exact goto_keepsStage (microStep_stageLegal legal)

/-- While BUSY the host reads STATUS, writes CMD in vain or resets (R231, R281, R290). -/
theorem hostStep_busy_cases {a : HostAct} (busy : s.status = .busy) (h : hostStep s a = .next t) :
    t = s.deliverReg .status ∨ t = s ∨ t = s.resetCore := by
  rw [hostStep_of_busy busy] at h
  split at h
  · next allowed =>
    unfold HostAct.allowedWhileBusy at allowed
    split at allowed
    · cases h
      exact .inl rfl
    · rename_i v
      change (if v < 16 then _ else _) = _ at h
      rw [writeCommand_of_busy busy] at h
      split at h
      · cases h
        exact .inr (.inl rfl)
      · cases h
    · cases h
      exact .inr (.inr rfl)
    · cases allowed
  · cases h

theorem hostStep_stageLegal {a : HostAct} (legal : s.StageLegal) (h : hostStep s a = .next t) : t.StageLegal := by
  by_cases busy : s.status = .busy
  · rcases hostStep_busy_cases busy h with rfl | rfl | rfl
    · exact legal
    · exact legal
    · exact State.stageLegal_of_not_busy nofun
  · cases hostStep_transition h with
    | accesses writes _ => exact State.stageLegal_of_not_busy (writes.status ▸ busy)
    | starts _ _ => exact fun _ => trivial
    | rejects _ _ => exact rejectCommand_stageLegal
    | resets => exact State.stageLegal_of_not_busy nofun

end StageLegal

/-- Settles O50: stage 0 writes every token below RIX, hands RIX on as TB_LEN, and nothing in stage 1 writes TB. -/
theorem unpackDecodesWrittenTokens : Obligations.UnpackDecodesWrittenTokens := by
  unfold Obligations.UnpackDecodesWrittenTokens
  refine ⟨State.stageLegal_of_not_busy nofun, fun s t legal h => ?_, fun s legal busy row opc => ?_⟩
  · have popped : s.popTurn.StageLegal := legal
    cases turn : s.turn with
    | host a => exact hostStep_stageLegal popped ((step_of_host turn).symm.trans h)
    | core => exact coreMove_keepsStage popped t ((step_of_core turn).symm.trans h)
  · have written := legal busy
    rw [row] at written
    exact written opc

end Sys2Proof.Machine

/-! PROOFS. Exceptions (spec/60_exceptions.md): a CMD value that names no operation is rejected, and the rejection
writes only STATUS, ERR and ERR_INFO (R247). -/

namespace Sys2Proof.Machine

/-- The other 4-bit values of CMD, 0 and 10 to 15, name no operation (R105). -/
theorem decodeCommand_illegal {v : Nat} (illegal : v = 0 ∨ 10 ≤ v ∧ v ≤ 15) :
    ∃ r, decodeCommand (BitVec.ofNat 4 v) = .error r := by
  have notOk := decodeCommand_isOk v (by omega)
  cases h : decodeCommand (BitVec.ofNat 4 v) with
  | ok i => rw [h, decide_eq_false (by omega)] at notOk; cases notOk
  | error r => exact ⟨r, rfl⟩

/-- The rejection of a command writes neither a control register nor an output (R247). -/
theorem rejectCommand_keepsAllBut (s : State) : KeepsAllBut [] s s.rejectCommand := by
  refine ⟨.refl s, fun o _ => ?_⟩
  have same := o.kept_refl s
  cases o <;> exact same

/-- Settles O11: an illegal value of CMD is rejected, and no operation runs. -/
theorem illegalCommandChangesNothingElse : Obligations.IllegalCommandChangesNothingElse := by
  unfold Obligations.IllegalCommandChangesNothingElse
  intro s v idle illegal
  obtain ⟨r, code⟩ := decodeCommand_illegal illegal
  have written : hostStep s (.writeReg .cmd v) = .next s.rejectCommand := by
    rw [hostStep_of_not_busy idle, ← writeCommand_of_error idle code]
    exact if_pos (by omega)
  exact ⟨_, written, ⟨rfl, rfl, rfl⟩, rfl, rejectCommand_keepsAllBut s⟩

end Sys2Proof.Machine

/-! PROOFS. The encodings as inverses (spec/30_encoding.md R92, R96, R102, R104): a token's record and an operation's
code each decode to it, and nothing else does. -/

namespace Sys2Proof

/-! ## Tokens and their records (R92, R96, R102) -/

/-- R102 leaves out only the term whose record is a LIT's. -/
theorem wellFormed_matchTok_iff {offset length : Half} {symbol : Byte} :
    (Instr.matchTok offset length symbol).wellFormed = true ↔ ¬ (offset = 0 ∧ length = 0) := by
  simp [Instr.wellFormed, imp_iff_not_or]

/-- A MATCH that R102 admits is what the kind test gives for its fields. -/
theorem decodeToken_of_wellFormed {offset length : Half} {symbol : Byte}
    (admitted : (Instr.matchTok offset length symbol).wellFormed = true) :
    decodeToken ⟨offset, length, symbol⟩ = .matchTok offset length symbol :=
  if_neg (wellFormed_matchTok_iff.mp admitted)

/-- What the kind test gives is well formed, and its encoding is the token's record. -/
theorem encodeInstr_decodeToken (t : Token) :
    encodeInstr (decodeToken t) = .record (recordBytes t) ∧ (decodeToken t).wellFormed = true := by
  obtain ⟨offset, length, symbol⟩ := t
  unfold decodeToken
  split
  next zero => obtain ⟨rfl, rfl⟩ := zero; exact ⟨rfl, rfl⟩
  next other => exact ⟨rfl, wellFormed_matchTok_iff.mpr other⟩

/-- The bytes that decode to an instruction are the record of the token it is (R98, R101). -/
theorem eq_recordBytes_of_decodeCode {bytes : List Byte} {i : Instr} (h : decodeCode (.record bytes) = .ok i) :
    ∃ t, bytes = recordBytes t ∧ i = decodeToken t := by
  match bytes with
  | [b0, b1, b2, b3, b4] =>
    cases h
    exact ⟨_, (recordBytes_tokenOfBytes b0 b1 b2 b3 b4).symm, rfl⟩
  | [] | [_] | [_, _] | [_, _, _] | [_, _, _, _] | _ :: _ :: _ :: _ :: _ :: _ :: _ => cases h

/-- Settles O1: a token decodes by the kind test on its record, an operation by the table of codes. -/
theorem decodeInvertsEncode : Obligations.DecodeInvertsEncode := by
  unfold Obligations.DecodeInvertsEncode
  intro i admitted
  cases i with
  | lit symbol => exact (decodeCode_recordBytes _).trans (congrArg _ (decodeToken_eq_lit_iff.mpr rfl))
  | matchTok offset length symbol =>
    exact (decodeCode_recordBytes _).trans (congrArg _ (decodeToken_of_wellFormed admitted))
  | crc32 | find | encode | decode | serialize | deserialize | pack | unpack | cmp => rfl

/-- Settles O2: a code that decodes is one of the nine CMD values, or the record of a token. -/
theorem encodeInvertsDecode : Obligations.EncodeInvertsDecode := by
  unfold Obligations.EncodeInvertsDecode
  intro code i decodes
  cases code with
  | command c =>
    rcases decodeCommand_ok decodes with ⟨rfl, rfl⟩ | ⟨rfl, rfl⟩ | ⟨rfl, rfl⟩ | ⟨rfl, rfl⟩ | ⟨rfl, rfl⟩ | ⟨rfl, rfl⟩ |
      ⟨rfl, rfl⟩ | ⟨rfl, rfl⟩ | ⟨rfl, rfl⟩ <;> exact ⟨rfl, rfl⟩
  | record bytes =>
    obtain ⟨t, rfl, rfl⟩ := eq_recordBytes_of_decodeCode decodes
    exact encodeInstr_decodeToken t

end Sys2Proof

/-! PROOFS. Reset and the host's moves (spec/70_reset_and_hazards.md R280 to R282, R288, R290). -/

namespace Sys2Proof.Machine

/-! ## Reset (R36, R280) -/

/-- In its turn a core that is not BUSY does nothing (R280). -/
theorem step_of_not_busy {s : State} (idle : s.status ≠ .busy) (turn : s.turn = .core) : step s = .next s.popTurn := by
  have popped : s.popTurn.status ≠ .busy := idle
  rw [step_of_core turn, coreMove_of_not_busy popped]
  rfl

/-- Settles O9: reset sets each register, and the core of an idle state does nothing. -/
theorem resetGivesTheResetState : Obligations.ResetGivesTheResetState := by
  unfold Obligations.ResetGivesTheResetState
  refine ⟨fun s => ⟨s.resetCore, ?moves, rfl, rfl, rfl, rfl, rfl, rfl, rfl, rfl, rfl, rfl, rfl, rfl, rfl, rfl, rfl,
    step_of_not_busy nofun⟩, fun s => step_of_not_busy,
    rfl, rfl, rfl, rfl, rfl, rfl, rfl, rfl, rfl, rfl, rfl, rfl, rfl, rfl, step_of_not_busy nofun rfl⟩
  case moves => exact if_neg fun refused => nomatch refused.2

/-- Settles O47: the reset state has empty memories, lengths 0, no error, and is no row of a sequencing. -/
theorem invariantHoldsAtReset : Obligations.InvariantHoldsAtReset := by
  unfold Obligations.InvariantHoldsAtReset
  have memory : State.reset.MemoryWf := ⟨.nil, .nil, .nil, .nil⟩
  have errorRegs : State.reset.ErrorRegsLegal := errorRegsLegal_of_none nofun rfl rfl
  have lengths : State.reset.LengthsLegal := ⟨rfl, rfl, rfl, rfl⟩
  exact ⟨⟨memory, rfl, errorRegs, nofun, trivial⟩, nofun, lengths, rfl, rfl⟩

/-! ## The host while BUSY (R281, R290) -/

/-- The three moves of R290 and R281 are the only ones a BUSY core allows. -/
theorem not_allowedWhileBusy {a : HostAct} (notRead : a ≠ .readReg .status) (notCmd : ∀ v, a ≠ .writeReg .cmd v)
    (notReset : a ≠ .reset) : a.allowedWhileBusy = false := by
  unfold HostAct.allowedWhileBusy
  split
  · exact absurd rfl notRead
  · exact absurd rfl (notCmd _)
  · exact absurd rfl notReset
  · rfl

/-- Settles O12: a move is allowed and has its plain effect, or it is refused. -/
theorem hostHasNoMoveWhileBusy : Obligations.HostHasNoMoveWhileBusy := by
  unfold Obligations.HostHasNoMoveWhileBusy
  intro s busy
  refine ⟨⟨s.deliverReg .status, hostStep_of_busy busy _, ?delivered, rfl⟩, fun v small => ?ignored,
    fun a notRead notCmd notReset => ?refused⟩
  case delivered =>
    change BusData.num s.status.code.toNat = .num 1
    rw [busy]
    rfl
  case ignored =>
    have written : hostMove s (.writeReg .cmd v) = .next (s.writeCommand (BitVec.ofNat 4 v)) := if_pos small
    exact (hostStep_of_busy busy _).trans (written.trans (congrArg _ (writeCommand_of_busy busy _)))
  case refused =>
    rw [hostStep_of_busy busy, not_allowedWhileBusy notRead notCmd notReset]
    rfl

/-! ## Length writes (R288) -/

/-- A length that is the capacity is within it. -/
theorem exceeds_of_eq_some {cap : Option Nat} {v : Nat} (h : cap = some v) : exceeds cap v = false := by
  simp [h, exceeds]

/-- Settles O17: each write of a length register is `writeLength` of its buffer. -/
theorem lengthsAboveCapacityAreRefused : Obligations.LengthsAboveCapacityAreRefused := by
  unfold Obligations.LengthsAboveCapacityAreRefused
  intro s v idle
  have move (a : HostAct) := hostStep_of_not_busy idle a
  exact ⟨fun above => (move _).trans (writeLength_eq_refused above),
    fun above => (move _).trans (writeLength_eq_refused above),
    fun above => (move _).trans (writeLength_eq_refused above),
    fun above => (move _).trans (writeLength_eq_refused above),
    fun cap width => (move _).trans (writeLength_eq_next (exceeds_of_eq_some cap) width),
    fun cap width => (move _).trans (writeLength_eq_next (exceeds_of_eq_some cap) width),
    fun cap width => (move _).trans (writeLength_eq_next (exceeds_of_eq_some cap) width),
    fun cap width => (move _).trans (writeLength_eq_next (exceeds_of_eq_some cap) width)⟩

/-! ## The two checksums after DESERIALIZE and UNPACK (R27, R208; log 19) -/

/-- FB with at least the trailer's four bytes is a body and a trailer (R204). -/
theorem exists_body_trailer {s : State} (enough : 4 ≤ s.fbLen) :
    ∃ body trailer, s.fbBytes = body ++ trailer ∧ trailer.length = 4 ∧ s.fbLen - 4 = body.length := by
  have len : s.fbBytes.length = s.fbLen := fbBytes_length s
  refine ⟨s.fbBytes.take (s.fbLen - 4), s.fbBytes.drop (s.fbLen - 4), (List.take_append_drop ..).symm, ?_, ?_⟩
  · rw [List.length_drop, len, Nat.sub_sub_self enough]
  · rw [List.length_take, len, Nat.min_eq_left (Nat.sub_le ..)]

/-- Past check 1 UNPACK leaves in the checksum registers what DESERIALIZE leaves there, whatever error follows. -/
theorem sums_of_exec_unpack {s t u : State} (enough : 4 ≤ s.fbLen) (deserialized : exec .deserialize s = .next t)
    (unpacked : exec .unpack s = .next u) : u.crcOut = t.crcOut ∧ u.crcStored = t.crcStored := by
  cases readBack : deserialize s.cfg.tbCap s.fbBytes with
  | truncated =>
    rcases deserialize_cases s.cfg.tbCap s.fbBytes with ⟨short, -⟩ | ⟨-, body, stored, -, -, outcome⟩
    · rw [fbBytes_length] at short
      omega
    · simp [readBack] at outcome
  | failed e computed stored =>
    cases deserialized.symm.trans (exec_deserialize_of_failed readBack)
    cases unpacked.symm.trans (exec_unpack_of_failed readBack)
    rcases deserialize_failed readBack with rfl | rfl | rfl <;> exact ⟨rfl, rfl⟩
  | tokens ts computed stored =>
    cases deserialized.symm.trans (exec_deserialize_of_tokens readBack)
    cases decoded : decodeTokens s.cfg.obCap ts with
    | error failure =>
      cases unpacked.symm.trans (exec_unpack_of_decode_error readBack decoded)
      exact ⟨rfl, rfl⟩
    | ok bytes =>
      cases unpacked.symm.trans (exec_unpack_of_decode_ok readBack decoded)
      exact ⟨rfl, rfl⟩

/-- Settles O36: DESERIALIZE records the sums of the body and the trailer, and UNPACK records the same two. -/
theorem checksumsAreRecordedOnceCheckOnePasses : Obligations.ChecksumsAreRecordedOnceCheckOnePasses := by
  unfold Obligations.ChecksumsAreRecordedOnceCheckOnePasses
  intro s enough
  obtain ⟨t, deserialized⟩ := everyInstructionAnswersANextState .deserialize s
  obtain ⟨u, unpacked⟩ := everyInstructionAnswersANextState .unpack s
  obtain ⟨body, trailer, holds, four, bodyLength⟩ := exists_body_trailer enough
  obtain ⟨computed, stored⟩ := sums_of_exec_deserialize holds four deserialized
  refine ⟨t, u, deserialized, unpacked, ?_, ?_, sums_of_exec_unpack enough deserialized unpacked⟩
  · rw [computed, bodyLength, map_fbAt_of_fbBytes holds]
  · rw [stored, bodyLength, fbRead_trailer holds four]

end Sys2Proof.Machine

/-! PROOFS. The reference sequencings meet the operations (spec/70_reset_and_hazards.md R296, 00_scope.md R6). Each unit
is run once from its first row to its last, for every operation that calls it: what a unit writes element by element is,
once the operation has ended, what its function puts there at once. An operation is then its first step and the runs of
its units. -/

namespace Sys2Proof.Machine

/-! ## A buffer written element by element -/

/-- Writing one sequence after another. -/
theorem Buf.writeAll_writeAll {α : Type} (b : Buf α) (xs ys : List α) :
    (b.writeAll 0 xs).writeAll xs.length ys = b.writeAll 0 (xs ++ ys) := by
  unfold Buf.writeAll
  rw [setAll_append, Nat.zero_add]

/-- The sequence a buffer holds after it was written from index 0. -/
theorem Buf.map_read_writeAll {α : Type} (free : Nat → Nat → α) (b : Buf α) (xs : List α) :
    (List.range xs.length).map ((b.writeAll 0 xs).read free) = xs := by
  apply List.ext_getElem
  · simp
  · intro i _ inside
    simp [Buf.read_writeAll, List.getElem?_eq_getElem inside]

/-- What a unit leaves that appends tokens to TB one by one: TB's elements beyond them stay as they were. -/
def State.fillTokens (s : State) (ts : List Token) : State :=
  { s with tb := s.tb.writeAll 0 ts, tbLen := ts.length }

/-- What a unit leaves that appends bytes to OB one by one. -/
def State.fillOutput (s : State) (bs : List Byte) : State :=
  { s with ob := s.ob.writeAll 0 bs, obLen := bs.length }

/-- What a unit leaves that writes FB piece by piece. -/
def State.fillFrame (s : State) (bs : List Byte) : State :=
  { s with fb := s.fb.writeAll 0 bs, fbLen := bs.length }

section Fill

variable {s : State} {c : BitVec 4}

theorem tbTokens_fillTokens (s : State) (ts : List Token) : (s.fillTokens ts).tbTokens = ts :=
  Buf.map_read_writeAll Config.freeToken s.tb ts

/-- Once the operation has completed, tokens appended one by one are tokens stored at once (R200, U6). -/
theorem complete_fillTokens (out : .tb ∈ outputs c) (canonical : Memory.wf s.tb.cells) (ts : List Token) :
    (s.fillTokens ts).complete c = (s.putTokens ts).complete c := by
  simp only [State.complete, if_pos out, State.fillTokens, State.putTokens, Buf.sealAt_writeAll_zero canonical]

theorem complete_fillOutput (out : .ob ∈ outputs c) (canonical : Memory.wf s.ob.cells) (bs : List Byte) :
    (s.fillOutput bs).complete c = (s.putOutput bs).complete c := by
  simp only [State.complete, if_pos out, State.fillOutput, State.putOutput, Buf.sealAt_writeAll_zero canonical]

theorem complete_fillFrame (out : .fb ∈ outputs c) (canonical : Memory.wf s.fb.cells) (bs : List Byte) :
    (s.fillFrame bs).complete c = (s.putFrame bs).complete c := by
  simp only [State.complete, if_pos out, State.fillFrame, State.putFrame, Buf.sealAt_writeAll_zero canonical]

/-- So they are once the operation has failed, whether the error leaves TB specified or not (R226, R252). -/
theorem raise_fillTokens (out : .tb ∈ outputs c) (canonical : Memory.wf s.tb.cells) (ts : List Token) (p : BitVec 1)
    (e : ErrKind) (k : Nat) : (s.fillTokens ts).raise c p e k = (s.putTokens ts).raise c p e k := by
  simp only [State.raise, if_pos out, State.fillTokens, State.putTokens, Buf.sealAt_writeAll_zero canonical]

end Fill

/-! ## From the latched operation to its end -/

/-- A state whose sequencing stands at a row, with its working registers. -/
def State.atRow (s : State) (w : Work) (q : Seq) : State := { s with work := w, seq := q }

/-- The end of an operation forgets the row and the working registers (R29). -/
@[simp] theorem complete_atRow (s : State) (w : Work) (q : Seq) (c : BitVec 4) :
    (s.atRow w q).complete c = s.complete c := rfl

@[simp] theorem raise_atRow (s : State) (w : Work) (q : Seq) (c : BitVec 4) (p : BitVec 1) (e : ErrKind) (k : Nat) :
    (s.atRow w q).raise c p e k = s.raise c p e k := rfl

/-- One row ends a run. -/
theorem Runs.last {k : Nat} {s u t : State} (run : Runs k s u) (stepping : Stepping u) (row : microStep u = t) :
    Runs (k + 1) s t :=
  run.trans (.row stepping row (.refl t))

/-- Some number of steps, one at least, give an answer. -/
def Meets (s : State) (answer : Result) : Prop := ∃ k, core.run (k + 1) s = answer

theorem run_one (s : State) : core.run 1 s = step s := by
  change core.run 1 s = core.step s
  simp only [Host.Core.run]
  cases core.step s <;> rfl

section Latched

variable {s s' t : State} {c : BitVec 4} {i : Instr}

theorem State.Latched.opc_eq (latched : s.Latched c) : s.work.opc = c := by
  obtain ⟨-, -, opc, -⟩ := latched
  exact opc

theorem State.Latched.stepping (latched : s.Latched c) (grain : s.grain = .micro) : Stepping s := by
  obtain ⟨busy, -, -, agenda⟩ := latched
  exact ⟨busy, grain, agenda⟩

/-- At a coarser grain than the row every operation but DECODE and UNPACK is one step (log 1). -/
theorem run_one_of_latched (latched : s.Latched c) (code : decodeCommand c = .ok i) (whole : c ≠ 4 ∧ c ≠ 8)
    (coarse : s.grain ≠ .micro) : core.run 1 s = exec i s := by
  refine (run_one s).trans (step_latched latched code ?_)
  cases grain : s.grain with
  | operation => exact .inl rfl
  | instruction => exact .inr ⟨rfl, whole⟩
  | micro => exact absurd grain coarse

/-- For such an operation only its rows are in question. -/
theorem meets_of_rows (latched : s.Latched c) (code : decodeCommand c = .ok i) (whole : c ≠ 4 ∧ c ≠ 8)
    (rows : Stepping s → Meets s (exec i s)) : Meets s (exec i s) := by
  by_cases grain : s.grain = .micro
  · exact rows (latched.stepping grain)
  · exact ⟨0, run_one_of_latched latched code whole grain⟩

/-- By rows an operation is the row that starts it, and then the rows of its units. -/
theorem meets_of_start {k : Nat} (latched : s.Latched c) (stepping : Stepping s) (start : seqStart s = s')
    (answer : exec i s = .next t) (run : Runs k s' t) : Meets s (exec i s) := by
  obtain ⟨-, grain, -⟩ := stepping
  exact ⟨k, Eq.trans (Runs.head (step_latched_row latched grain start) run) answer.symm⟩

end Latched

/-! ## CRC32 and FIND (R124, R143) -/

/-- The CRC unit, from C_INIT to C_FIN, in terms of the checksum of its source. -/
theorem crc_sum_run (s : State) (stepping : Stepping s) (row : s.seq = .cInit) {bytes : List Byte}
    (source : (List.range s.work.crcN).map s.crcSource = bytes) :
    ∃ w, w.opc = s.work.opc ∧ w.bodyLen = s.work.bodyLen ∧ w.crc ^^^ crcXorOut = checksum bytes ∧
      Runs (9 * s.work.crcN + 2) s (s.atRow w .cFin) := by
  obtain ⟨b, run⟩ := crc_unit_run s stepping row
  rw [source] at run
  exact ⟨{ s.work with crc := crcFold crcInit bytes, bix := s.work.crcN, bitcnt := b }, rfl, rfl, rfl, run⟩

/-- Settles O51: the row that latches IB_LEN, the `9n + 2` rows of the unit, and C_FIN. -/
theorem sequencedCrc32MeetsTheOperation : Obligations.SequencedCrc32MeetsTheOperation := by
  unfold Obligations.SequencedCrc32MeetsTheOperation
  intro s latched
  refine ⟨fun grain => ?_, run_one_of_latched latched rfl (by decide)⟩
  have opc := latched.opc_eq
  have stepping := latched.stepping grain
  obtain ⟨w, code, -, sum, unit⟩ := crc_sum_run (s.atRow { s.work with crcN := s.ibLen } .cInit) stepping rfl
    (bytes := s.ibBytes) (List.map_congr_left fun _ _ => if_pos opc)
  have last : microStep (s.atRow w .cFin) = ({ s with crcOut := checksum s.ibBytes } : State).complete 1 := by
    rw [← sum]
    exact seqCrcDone_crc32 (code.trans opc)
  exact Runs.head (step_latched_row latched grain (seqStart_crc32 opc)) (unit.last stepping last)

/-- Settles O52: the match finder's unit, from POS_IN, and M_DONE. -/
theorem sequencedFindMeetsTheOperation : Obligations.SequencedFindMeetsTheOperation := by
  unfold Obligations.SequencedFindMeetsTheOperation
  intro s latched
  refine meets_of_rows latched rfl (by decide) fun stepping => ?_
  have opc := latched.opc_eq
  obtain ⟨k, p, dl, unit⟩ := mf_unit_run { s with seq := .mInit } stepping rfl
  have position : ({ s with seq := .mInit } : State).mfPosition = s.posIn := if_pos opc
  rw [position] at unit
  exact meets_of_start latched stepping (seqStart_find opc) (exec_find s) (unit.last stepping (if_pos opc))

/-! ## ENCODE (R167) -/

/-- The encoder's unit, from E_INIT to E_DONE or the error, for ENCODE and PACK. -/
theorem enc_unit_run (s : State) (stepping : Stepping s) (row : s.seq = .eInit)
    (opc : s.work.opc = 3 ∨ s.work.opc = 7) :
    (∃ ts k w, encodeTokens s.cfg.tbCap s.ibBytes s.window.toNat = .ok ts ∧ w.opc = s.work.opc ∧
      Runs k s ((s.fillTokens ts).atRow w .eDone)) ∨
    (∃ k, encodeTokens s.cfg.tbCap s.ibBytes s.window.toNat = .error .capacity ∧
      Runs k s (s.raise s.work.opc 0 .capacity 0)) := by
  have first : microStep s = { s with tbLen := 0, work := { s.work with pos := 0 }, seq := .eTest } := by
    simp only [microStep, row]
  have bound : s.ibLen ≤ 0 + s.ibBytes.length := by rw [ibBytes_length, Nat.zero_add]
  rcases enc_loop_run s.ibBytes.length { s with tbLen := 0, work := { s.work with pos := 0 }, seq := .eTest } []
    stepping rfl bound (Nat.zero_le _) rfl opc with ⟨ts, k, w, encoded, code, run⟩ | ⟨k, encoded, run⟩
  · rw [Nat.zero_add] at run
    exact .inl ⟨ts, k + 1, w, encoded, code, Runs.row stepping first run⟩
  · have same := raise_encoder s s.tb 0 { s.work with pos := 0 } .eTest opc
    exact .inr ⟨k + 1, encoded, same ▸ Runs.row stepping first run⟩

/-- Settles O53: the encoder's unit, and E_DONE. -/
theorem sequencedEncodeMeetsTheOperation : Obligations.SequencedEncodeMeetsTheOperation := by
  unfold Obligations.SequencedEncodeMeetsTheOperation
  intro s latched ⟨_, canonical, _, _⟩
  refine meets_of_rows latched rfl (by decide) fun stepping => ?_
  have opc := latched.opc_eq
  rcases enc_unit_run { s with seq := .eInit } stepping rfl (.inl opc) with
    ⟨ts, k, w, encoded, code, unit⟩ | ⟨k, encoded, unit⟩
  · have last : microStep ((s.fillTokens ts).atRow w .eDone) = (s.putTokens ts).complete 3 := by
      have three : w.opc = 3 := code.trans opc
      have row : microStep ((s.fillTokens ts).atRow w .eDone) = ((s.fillTokens ts).atRow w .eDone).complete w.opc :=
        if_neg fun seven : w.opc = 7 => nomatch three.symm.trans seven
      rw [row, three, complete_atRow, complete_fillTokens (by decide) canonical]
    exact meets_of_start latched stepping (seqStart_encode opc) (exec_encode_of_ok encoded) (unit.last stepping last)
  · rw [show ({ s with seq := .eInit } : State).work.opc = 3 from opc] at unit
    exact meets_of_start latched stepping (seqStart_encode opc) (exec_encode_of_error encoded) unit

/-! ## DECODE (R176, R190) -/

section Decoder

variable (s : State)

theorem ob_mem_outputs_tokenOwner : .ob ∈ outputs (tokenOwner s).1 := by
  unfold tokenOwner
  split <;> decide

/-- An error of a token forgets OB and its length, so that D_INIT has cleared it says nothing (R252). -/
theorem raise_beginTokens (e : ErrKind) (k : Nat) :
    s.beginTokens.raise (tokenOwner s).1 (tokenOwner s).2 e k = s.raise (tokenOwner s).1 (tokenOwner s).2 e k := by
  unfold tokenOwner
  split <;> rfl

/-- The decoder's unit at any grain, from the first D_FETCH to the end of the operation, for DECODE and stage 1 of
UNPACK: but by rows it is one step a token and one to end. -/
theorem dec_unit_run (busy : s.status = .busy) (agenda : s.agenda = []) (canonical : Memory.wf s.ob.cells) :
    (∃ bs k, decodeTokens s.cfg.obCap s.tbTokens = .ok bs ∧ (s.grain ≠ .micro → k = s.tbLen + 1) ∧
      Runs k s.beginTokens ((s.putOutput bs).complete (tokenOwner s).1)) ∨
    (∃ e j k, decodeTokens s.cfg.obCap s.tbTokens = .error (e, j) ∧
      Runs k s.beginTokens (s.raise (tokenOwner s).1 (tokenOwner s).2 e j)) := by
  have token : ∀ j, j < s.tbTokens.length → s.tbTokens[j]? = some (s.beginTokens.tbAt (0 + j)) := fun j inside => by
    rw [List.getElem?_eq_getElem inside, getElem_tbTokens, Nat.zero_add]
    rfl
  rcases dec_loop_run s.tbTokens s.beginTokens busy agenda rfl ((Nat.zero_add _).trans (tbTokens_length s)) token with
    ⟨bs, k, w, decoded, code, tix, count, run⟩ | ⟨k, e, j, decoded, run⟩
  · have filled : Runs k s.beginTokens ((s.fillOutput bs).atRow w .dFetch) := by
      rw [show s.beginTokens.obLen = 0 from rfl, Nat.zero_add] at run
      exact run
    obtain ⟨m, last, one⟩ := tokens_end_run ((s.fillOutput bs).atRow w .dFetch) busy agenda rfl tix
    have owner : tokenOwner ((s.fillOutput bs).atRow w .dFetch) = tokenOwner s := by
      unfold tokenOwner
      rw [show ((s.fillOutput bs).atRow w .dFetch).work.opc = s.work.opc from code]
    rw [State.finishTokens, owner, complete_atRow, complete_fillOutput (ob_mem_outputs_tokenOwner s) canonical] at last
    refine .inl ⟨bs, k + (m + 1), decoded, fun coarse => ?_, filled.trans last⟩
    rw [count coarse, one coarse, tbTokens_length]
  · rw [show tokenOwner s.beginTokens = tokenOwner s from rfl, raise_beginTokens] at run
    exact .inr ⟨e, j, k, decoded, run⟩

end Decoder

/-- DECODE from its first D_FETCH is DECODE, token by token in one step a token. -/
theorem decode_tokens_run (s : State) (busy : s.status = .busy) (agenda : s.agenda = []) (opc : s.work.opc = 4)
    (canonical : Memory.wf s.ob.cells) :
    ∃ t k, exec .decode s = .next t ∧ Runs k s.beginTokens t ∧
      (s.grain ≠ .micro → t.status = .done → k = s.tbLen + 1) := by
  have owner : tokenOwner s = (4, 0) := if_neg (by rw [opc]; decide)
  have unit := dec_unit_run s busy agenda canonical
  rw [owner] at unit
  rcases unit with ⟨bs, k, decoded, count, run⟩ | ⟨e, j, k, decoded, run⟩
  · exact ⟨_, k, exec_decode_of_ok decoded, run, fun coarse _ => count coarse⟩
  · exact ⟨_, k, exec_decode_of_error decoded, run, fun _ done => nomatch done⟩

/-- Settles O54: one step or two begin the token sequence, or DECODE is one step. -/
theorem sequencedDecodeMeetsTheOperation : Obligations.SequencedDecodeMeetsTheOperation := by
  unfold Obligations.SequencedDecodeMeetsTheOperation
  intro s latched ⟨_, _, canonical, _⟩
  have ⟨busy, _, opc, agenda⟩ := latched
  obtain ⟨t, k, answer, run, count⟩ := decode_tokens_run s busy agenda opc canonical
  have stepped (grain : s.grain = .instruction) : Runs (k + 1) s t :=
    Runs.head (step_decode_instruction latched grain) run
  refine ⟨?_, fun u grain answer' done => ?_⟩
  · cases grain : s.grain with
    | operation => exact ⟨0, (run_one s).trans (step_latched latched rfl (.inl grain))⟩
    | instruction => exact ⟨k, Eq.trans (stepped grain) answer.symm⟩
    | micro =>
      have stepping := latched.stepping grain
      exact meets_of_start latched stepping (seqStart_decode opc) answer
        (Runs.row (s' := s.beginTokens) stepping rfl run)
  · cases answer.symm.trans answer'
    have coarse : s.grain ≠ .micro := by rw [grain]; decide
    obtain rfl := count coarse done
    exact stepped grain

/-! ## SERIALIZE (R201) -/

section Framer

variable {s : State}

/-- C_FIN inside the serializer goes on to S_TRL. -/
theorem seqCrcDone_of_serializer (opc : s.work.opc = 5 ∨ s.work.opc = 7) :
    seqCrcDone s = { s with crcOut := s.work.crc ^^^ crcXorOut, seq := .sTrl } :=
  opc.elim seqCrcDone_serialize seqCrcDone_pack

/-- C_FIN inside the deserializer goes on to X_CMP. -/
theorem seqCrcDone_of_deserializer (opc : s.work.opc = 6 ∨ s.work.opc = 8) :
    seqCrcDone s = { s with crcOut := s.work.crc ^^^ crcXorOut, seq := .xCmp } :=
  opc.elim seqCrcDone_deserialize seqCrcDone_unpack

/-- The checksum of the framer's body, from C_INIT to the row `q` that C_FIN hands it to (R130). -/
theorem frm_sum_run {bytes : List Byte} {q : Seq} (stepping : Stepping s) (row : s.seq = .cInit)
    (framer : s.work.opc ≠ 1) (source : (List.range s.work.crcN).map s.fbAt = bytes)
    (done : ∀ u : State, u.work.opc = s.work.opc →
      seqCrcDone u = { u with crcOut := u.work.crc ^^^ crcXorOut, seq := q }) :
    ∃ k w, w.opc = s.work.opc ∧ w.bodyLen = s.work.bodyLen ∧
      Runs k s (({ s with crcOut := checksum bytes } : State).atRow w q) := by
  obtain ⟨w, code, bodyLen, sum, unit⟩ := crc_sum_run s stepping row (bytes := bytes)
    (source ▸ List.map_congr_left fun _ _ => if_neg framer)
  have last : microStep (s.atRow w .cFin) = ({ s with crcOut := checksum bytes } : State).atRow w q := by
    rw [← sum]
    exact done (s.atRow w .cFin) code
  exact ⟨_, w, code, bodyLen, unit.last stepping last⟩

/-- S_INIT refuses a frame that does not fit FB (R199). -/
theorem ser_refused_run (stepping : Stepping s) (row : s.seq = .sInit)
    (noRoom : exceeds s.cfg.fbCap (5 * s.tbLen + 4) = true) :
    Runs 1 s (s.raise s.work.opc s.work.phase .capacity 0) := by
  refine Runs.row stepping ?_ (Runs.refl _)
  simp only [microStep, row]
  rw [if_pos noRoom]

/-- The serializer's records and their checksum, from S_INIT to S_TRL. -/
theorem ser_body_run (stepping : Stepping s) (row : s.seq = .sInit) (opc : s.work.opc = 5 ∨ s.work.opc = 7)
    (fits : exceeds s.cfg.fbCap (5 * s.tbLen + 4) = false) :
    ∃ k w, w.opc = s.work.opc ∧ w.bodyLen = 5 * s.tbLen ∧
      Runs k s
        (({ s with
            fb := s.fb.writeAll 0 (bodyBytes s.tbTokens)
            crcOut := checksum (bodyBytes s.tbTokens) } : State).atRow w .sTrl) := by
  have first : microStep s = s.atRow { s.work with rix := 0, bodyLen := 5 * s.tbLen } .sRec := by
    simp only [microStep, row]
    rw [fits]
    rfl
  have token : ∀ j, j < s.tbTokens.length → s.tbTokens[j]? = some (s.tbAt (0 + j)) := fun j inside => by
    rw [List.getElem?_eq_getElem inside, getElem_tbTokens, Nat.zero_add]
  obtain ⟨m, w, code, -, bodyLen, records⟩ := ser_records_run s.tbTokens
    (s.atRow { s.work with rix := 0, bodyLen := 5 * s.tbLen } .sRec) stepping rfl
    ((Nat.zero_add _).trans (tbTokens_length s)) token
  have code : w.opc = s.work.opc := code
  have framer : w.opc ≠ 1 := by rcases opc with h | h <;> rw [code, h] <;> decide
  have length : w.bodyLen = (bodyBytes s.tbTokens).length := by
    rw [length_bodyBytes, tbTokens_length]
    exact bodyLen
  have source : (List.range w.bodyLen).map ((s.fb.writeAll 0 (bodyBytes s.tbTokens)).read (Config.freeByte .fb)) =
      bodyBytes s.tbTokens := by
    rw [length]
    exact Buf.map_read_writeAll ..
  obtain ⟨n, v, code', bodyLen', sum⟩ := frm_sum_run
    (s := ({ s with fb := s.fb.writeAll 0 (bodyBytes s.tbTokens) } : State).atRow { w with crcN := w.bodyLen } .cInit)
    stepping rfl framer source
    fun u same => seqCrcDone_of_serializer (by rw [same.trans code]; exact opc)
  exact ⟨_, v, code'.trans code, bodyLen'.trans bodyLen,
    Runs.row stepping first (records.trans (Runs.row stepping rfl sum))⟩

/-- S_TRL writes the checksum after the records, so that FB holds the frame (R198). -/
theorem ser_trailer_row {w : Work} (bodyLen : w.bodyLen = 5 * s.tbLen) :
    microStep
        (({ s with
            fb := s.fb.writeAll 0 (bodyBytes s.tbTokens)
            crcOut := checksum (bodyBytes s.tbTokens) } : State).atRow w .sTrl) =
      (({ s with crcOut := checksum (bodyBytes s.tbTokens) } : State).fillFrame (frameBytes s.tbTokens)).atRow
        w .sDone := by
  have length : w.bodyLen = (bodyBytes s.tbTokens).length := by rw [bodyLen, length_bodyBytes, tbTokens_length]
  have written : (s.fb.writeAll 0 (bodyBytes s.tbTokens)).writeAll w.bodyLen
      (leBytes 4 (checksum (bodyBytes s.tbTokens)).toNat) = s.fb.writeAll 0 (frameBytes s.tbTokens) := by
    rw [length, Buf.writeAll_writeAll]
    rfl
  have total : w.bodyLen + 4 = (frameBytes s.tbTokens).length := by rw [bodyLen, length_frameBytes, tbTokens_length]
  unfold State.fillFrame
  rw [← written, ← total]
  rfl

/-- The serializer's unit, from S_INIT to the end of SERIALIZE or PACK, when the frame fits FB. -/
theorem ser_unit_run (stepping : Stepping s) (row : s.seq = .sInit) (opc : s.work.opc = 5 ∨ s.work.opc = 7)
    (fits : exceeds s.cfg.fbCap (5 * s.tbLen + 4) = false) (canonical : Memory.wf s.fb.cells) :
    ∃ k, Runs k s
      (({ s.putFrame (frameBytes s.tbTokens) with crcOut := checksum (bodyBytes s.tbTokens) } : State).complete
        s.work.opc) := by
  obtain ⟨k, w, code, bodyLen, run⟩ := ser_body_run stepping row opc fits
  have out : .fb ∈ outputs w.opc := by rcases opc with h | h <;> rw [code, h] <;> decide
  refine ⟨k + 1 + 1, (run.last stepping (ser_trailer_row bodyLen)).last stepping ?_⟩
  rw [← code]
  exact complete_fillFrame (s := { s with crcOut := checksum (bodyBytes s.tbTokens) }) out canonical _

end Framer

/-- Settles O55: the serializer's unit, or its refusal. -/
theorem sequencedSerializeMeetsTheOperation : Obligations.SequencedSerializeMeetsTheOperation := by
  unfold Obligations.SequencedSerializeMeetsTheOperation
  intro s latched ⟨_, _, _, canonical⟩
  refine meets_of_rows latched rfl (by decide) fun stepping => ?_
  have opc := latched.opc_eq
  cases room : exceeds s.cfg.fbCap (5 * s.tbLen + 4) with
  | true =>
    have run := ser_refused_run (s := { s with seq := .sInit }) stepping rfl room
    rw [show ({ s with seq := .sInit } : State).work.opc = 5 from opc] at run
    exact meets_of_start latched stepping (seqStart_serialize opc)
      (exec_serialize_of_exceeds (by rwa [tbTokens_length])) run
  | false =>
    obtain ⟨k, run⟩ := ser_unit_run (s := { s with seq := .sInit }) stepping rfl (.inl opc) room canonical
    rw [show ({ s with seq := .sInit } : State).work.opc = 5 from opc] at run
    exact meets_of_start latched stepping (seqStart_serialize opc)
      (exec_serialize_of_fits (by rwa [tbTokens_length])) run

/-! ## DESERIALIZE (R209) -/

section Reader

variable {s : State} {body trailer : List Byte}

/-- X_LEN refuses a frame without a trailer (R203). -/
theorem des_refused_run (stepping : Stepping s) (row : s.seq = .xLen) (short : s.fbLen < 4) :
    Runs 1 s (s.raise s.work.opc 0 .truncatedFile 0) := by
  refine Runs.row stepping ?_ (Runs.refl _)
  simp only [microStep, row]
  rw [if_pos short]

/-- The two checksums, from X_LEN to X_CMP (R204). -/
theorem des_sums_run (stepping : Stepping s) (row : s.seq = .xLen) (opc : s.work.opc = 6 ∨ s.work.opc = 8)
    (holds : s.fbBytes = body ++ trailer) (four : trailer.length = 4) :
    ∃ k w, w.opc = s.work.opc ∧ w.bodyLen = body.length ∧
      Runs k s ((s.putSums (checksum body) (storedSum trailer)).atRow w .xCmp) := by
  have total : s.fbLen = body.length + 4 := by rw [← fbBytes_length, holds, List.length_append, four]
  have stored : BitVec.ofNat 32 (s.fbRead body.length 4) = storedSum trailer := by
    rw [fbRead_trailer holds four, BitVec.ofNat_toNat, BitVec.setWidth_eq]
  have first : microStep s = s.atRow { s.work with bodyLen := body.length } .xCrc := by
    simp only [microStep, row]
    rw [if_neg (by omega), show body.length = s.fbLen - 4 by omega]
    rfl
  have second : microStep (s.atRow { s.work with bodyLen := body.length } .xCrc) =
      ({ s with crcStored := storedSum trailer } : State).atRow
        { s.work with bodyLen := body.length, crcN := body.length } .cInit := by
    rw [← stored]
    rfl
  have framer : s.work.opc ≠ 1 := by rcases opc with h | h <;> rw [h] <;> decide
  obtain ⟨k, w, code, bodyLen, sum⟩ := frm_sum_run
    (s := ({ s with crcStored := storedSum trailer } : State).atRow
      { s.work with bodyLen := body.length, crcN := body.length } .cInit)
    stepping rfl framer (map_fbAt_of_fbBytes holds)
    fun u same => seqCrcDone_of_deserializer (by rw [same]; exact opc)
  exact ⟨_, w, code, bodyLen, Runs.row stepping first (Runs.row stepping second sum)⟩

/-- The records, from X_ALIGN to X_DONE, when the checks of a body of whole records that fit TB have passed (R205). -/
theorem des_body_run (stepping : Stepping s) (holds : s.fbBytes = body ++ trailer) {w : Work}
    (bodyLen : w.bodyLen = body.length) (aligned : body.length % 5 = 0)
    (fits : exceeds s.cfg.tbCap (body.length / 5) = false) :
    ∃ k v, v.opc = w.opc ∧ v.rix = (parseRecords body).length ∧
      Runs k (s.atRow w .xAlign)
        (({ s with tb := s.tb.writeAll 0 (parseRecords body) } : State).atRow v .xDone) := by
  have first : microStep (s.atRow w .xAlign) = s.atRow { w with rix := 0 } .xRec := by
    refine (if_neg (not_not.mpr ?_)).trans (if_neg ?_)
    · exact bodyLen ▸ aligned
    · exact ne_true_of_eq_false (bodyLen ▸ fits)
  have whole : 5 * (0 + body.length / 5) = w.bodyLen := by omega
  obtain ⟨k, v, code, -, rix, run⟩ := des_records_run (body.length / 5) (s.atRow { w with rix := 0 } .xRec) stepping rfl
    whole
  have bytes : (List.range' (5 * 0) (5 * (body.length / 5))).map s.fbAt = body := by
    rw [show 5 * (body.length / 5) = body.length by omega, Nat.mul_zero, ← List.range_eq_range']
    exact map_fbAt_of_fbBytes holds
  have read : Runs k (s.atRow { w with rix := 0 } .xRec)
      (({ s with tb := s.tb.writeAll 0 (parseRecords body) } : State).atRow v .xDone) := by
    conv => rhs; rw [← bytes]
    exact run
  refine ⟨k + 1, v, code, ?_, Runs.row stepping first read⟩
  rw [rix, length_parseRecords]
  exact Nat.zero_add _

/-- The deserializer's unit, from X_LEN to X_DONE or the first check that fails, for DESERIALIZE and UNPACK (R203). -/
theorem des_unit_run (stepping : Stepping s) (row : s.seq = .xLen) (opc : s.work.opc = 6 ∨ s.work.opc = 8) :
    (deserialize s.cfg.tbCap s.fbBytes = .truncated ∧ Runs 1 s (s.raise s.work.opc 0 .truncatedFile 0)) ∨
    (∃ e x y k, deserialize s.cfg.tbCap s.fbBytes = .failed e x y ∧
      Runs k s ((s.putSums x y).raise s.work.opc 0 e 0)) ∨
    (∃ ts x y k w, deserialize s.cfg.tbCap s.fbBytes = .tokens ts x y ∧ w.opc = s.work.opc ∧ w.rix = ts.length ∧
      Runs k s (({ s.putSums x y with tb := s.tb.writeAll 0 ts } : State).atRow w .xDone)) := by
  rcases Nat.lt_or_ge s.fbLen 4 with short | enough
  · exact .inl ⟨if_pos (by rwa [fbBytes_length]), des_refused_run stepping row short⟩
  obtain ⟨body, trailer, holds, four, -⟩ := exists_body_trailer enough
  obtain ⟨k, w, code, bodyLen, sums⟩ := des_sums_run stepping row opc holds four
  rw [holds, deserialize_append four, ← code]
  refine .inr ?_
  by_cases agree : checksum body = storedSum trailer
  · have compared := sums.last stepping (if_neg (not_not.mpr agree))
    rw [if_neg (not_not.mpr agree)]
    by_cases aligned : body.length % 5 = 0
    · rw [if_neg (not_not.mpr aligned)]
      cases room : exceeds s.cfg.tbCap (body.length / 5) with
      | true =>
        have refused := compared.last stepping
          ((if_neg (not_not.mpr (bodyLen ▸ aligned))).trans (if_pos (bodyLen ▸ room)))
        exact .inl ⟨_, _, _, _, rfl, refused⟩
      | false =>
        obtain ⟨m, v, code', rix, records⟩ :=
          des_body_run (s := s.putSums (checksum body) (storedSum trailer)) stepping holds bodyLen aligned room
        exact .inr ⟨_, _, _, _, v, rfl, code', rix, compared.trans records⟩
    · rw [if_pos aligned]
      exact .inl ⟨_, _, _, _, rfl, compared.last stepping (if_pos (bodyLen ▸ aligned))⟩
  · rw [if_pos agree]
    exact .inl ⟨_, _, _, _, rfl, sums.last stepping (if_pos agree)⟩

end Reader

/-- Settles O56: the deserializer's unit, and X_DONE, which sets TB_LEN. -/
theorem sequencedDeserializeMeetsTheOperation : Obligations.SequencedDeserializeMeetsTheOperation := by
  unfold Obligations.SequencedDeserializeMeetsTheOperation
  intro s latched ⟨_, canonical, _, _⟩
  refine meets_of_rows latched rfl (by decide) fun stepping => ?_
  have opc := latched.opc_eq
  have unit := des_unit_run (s := s.atRow s.work .xLen) stepping rfl (.inl opc)
  rw [show (s.atRow s.work .xLen).work.opc = 6 from opc] at unit
  rcases unit with ⟨readBack, run⟩ | ⟨e, x, y, k, readBack, run⟩ | ⟨ts, x, y, k, w, readBack, code, rix, run⟩
  · exact meets_of_start latched stepping (seqStart_deserialize opc) (exec_deserialize_of_truncated readBack) run
  · exact meets_of_start latched stepping (seqStart_deserialize opc) (exec_deserialize_of_failed readBack) run
  · have last : microStep (({ s.putSums x y with tb := s.tb.writeAll 0 ts } : State).atRow w .xDone) =
        ((s.putSums x y).putTokens ts).complete 6 := by
      rw [← complete_fillTokens (s := s.putSums x y) (c := 6) (by decide) canonical, State.fillTokens, ← rix]
      refine (if_neg ?_).trans ?_
      · exact fun eight => nomatch code.symm.trans eight
      · exact congrArg _ code
    exact meets_of_start latched stepping (seqStart_deserialize opc) (exec_deserialize_of_tokens readBack)
      (run.last stepping last)

/-! ## PACK (R225) -/

/-- PACK by rows: the encoder's unit, then from E_DONE the serializer's on the tokens it has appended. -/
theorem pack_rows_meet {s : State} (latched : s.Latched 7) (canonical : s.MemoryWf) (stepping : Stepping s) :
    Meets s (exec .pack s) := by
  obtain ⟨-, canonicalTb, -, canonicalFb⟩ := canonical
  have opc := latched.opc_eq
  have unit := enc_unit_run (s.atRow { s.work with phase := 0 } .eInit) stepping rfl (.inr opc)
  rw [show (s.atRow { s.work with phase := 0 } .eInit).work.opc = 7 from opc] at unit
  rcases unit with ⟨ts, k, w, encoded, code, encoder⟩ | ⟨k, encoded, run⟩
  · have stage : Runs (k + 1) (s.atRow { s.work with phase := 0 } .eInit)
        ((s.fillTokens ts).atRow { w with phase := 1 } .sInit) := encoder.last stepping (if_pos code)
    have tokens : ((s.fillTokens ts).atRow { w with phase := 1 } .sInit).tbTokens = ts := tbTokens_fillTokens s ts
    cases room : exceeds s.cfg.fbCap (5 * ts.length + 4) with
    | true =>
      have serializer := ser_refused_run (s := (s.fillTokens ts).atRow { w with phase := 1 } .sInit) stepping rfl room
      rw [show ((s.fillTokens ts).atRow { w with phase := 1 } .sInit).work.opc = 7 from code, raise_atRow,
        raise_fillTokens (by decide) canonicalTb] at serializer
      exact meets_of_start latched stepping (seqStart_pack opc) (exec_pack_of_exceeds encoded room)
        (stage.trans serializer)
    | false =>
      obtain ⟨m, serializer⟩ := ser_unit_run (s := (s.fillTokens ts).atRow { w with phase := 1 } .sInit) stepping rfl
        (.inr code) room canonicalFb
      rw [show ((s.fillTokens ts).atRow { w with phase := 1 } .sInit).work.opc = 7 from code, tokens] at serializer
      have answer := exec_pack_of_fits (s := s) encoded room
      have same := complete_fillTokens (c := 7)
        (s := { s.putFrame (frameBytes ts) with crcOut := checksum (bodyBytes ts) }) (by decide) canonicalTb ts
      exact meets_of_start latched stepping (seqStart_pack opc) (answer.trans (congrArg _ same.symm))
        (stage.trans serializer)
  · exact meets_of_start latched stepping (seqStart_pack opc) (exec_pack_of_error encoded) run

/-! ## UNPACK (R226) -/

section Unpack

variable {s u : State} {ts : List Token} {x y : Word32}

/-- Stage 1 of UNPACK from its first D_FETCH, in a state whose end is the end of what stage 0 leaves. -/
theorem stage1_run (readBack : deserialize s.cfg.tbCap s.fbBytes = .tokens ts x y) (busy : u.status = .busy)
    (agenda : u.agenda = []) (opc : u.work.opc = 8) (canonical : Memory.wf u.ob.cells) (cap : u.cfg.obCap = s.cfg.obCap)
    (tokens : u.tbTokens = ts)
    (completes : ∀ bs, (u.putOutput bs).complete 8 = (((s.putSums x y).putTokens ts).putOutput bs).complete 8)
    (raises : ∀ e k, u.raise 8 1 e k = ((s.putSums x y).putTokens ts).raise 8 1 e k) :
    ∃ t k, exec .unpack s = .next t ∧ Runs k u.beginTokens t := by
  have owner : tokenOwner u = (8, 1) := if_pos opc
  have unit := dec_unit_run u busy agenda canonical
  rw [owner, tokens, cap] at unit
  rcases unit with ⟨bs, k, decoded, -, run⟩ | ⟨e, j, k, decoded, run⟩
  · exact ⟨_, k, exec_unpack_of_decode_ok readBack decoded, completes bs ▸ run⟩
  · exact ⟨_, k, exec_unpack_of_decode_error readBack decoded, raises e j ▸ run⟩

/-- UNPACK by rows: the deserializer's unit, then from X_DONE the decoder's on the tokens it has written. -/
theorem unpack_rows_meet (latched : s.Latched 8) (canonical : s.MemoryWf) (stepping : Stepping s) :
    Meets s (exec .unpack s) := by
  obtain ⟨-, canonicalTb, canonicalOb, -⟩ := canonical
  have ⟨busy, _, opc, agenda⟩ := latched
  have unit := des_unit_run (s := s.atRow { s.work with phase := 0 } .xLen) stepping rfl (.inr opc)
  rw [show (s.atRow { s.work with phase := 0 } .xLen).work.opc = 8 from opc] at unit
  rcases unit with ⟨readBack, run⟩ | ⟨e, x, y, k, readBack, run⟩ | ⟨ts, x, y, k, w, readBack, code, rix, run⟩
  · exact meets_of_start latched stepping (seqStart_unpack opc) (exec_unpack_of_truncated readBack) run
  · exact meets_of_start latched stepping (seqStart_unpack opc) (exec_unpack_of_failed readBack) run
  · have stage : microStep (({ s.putSums x y with tb := s.tb.writeAll 0 ts } : State).atRow w .xDone) =
        ((s.putSums x y).fillTokens ts).atRow { w with phase := 1 } .dInit := by
      rw [State.fillTokens, ← rix]
      exact if_pos code
    obtain ⟨t, m, answer, decoder⟩ := stage1_run (s := s)
      (u := ((s.putSums x y).fillTokens ts).atRow { w with phase := 1 } .dInit)
      readBack busy agenda code canonicalOb rfl (tbTokens_fillTokens _ ts)
      (fun bs => complete_fillTokens (s := (s.putSums x y).putOutput bs) (c := 8) (by decide) canonicalTb ts)
      (fun e k => raise_fillTokens (s := s.putSums x y) (by decide) canonicalTb ts 1 e k)
    exact meets_of_start latched stepping (seqStart_unpack opc) answer
      ((run.last stepping stage).trans (Runs.row stepping rfl decoder))

/-- When instructions are stepped, a latched operation is fetched by `fetchStepped` (log 1). -/
theorem step_latched_stepped {c : BitVec 4} (latched : s.Latched c) (grain : s.grain = .instruction) :
    step s = (fetchStepped s).result s := by
  obtain ⟨busy, row, -, agenda⟩ := latched
  have move : coreMove s = fetchStepped s := by
    unfold coreMove
    rw [if_neg (not_not.mpr busy), grain, row]
  rw [step_of_core (turn_of_nil agenda), popTurn_of_nil agenda, move]

/-- UNPACK token by token: its first step is stage 0, and ends it there or enters stage 1. -/
theorem unpack_instructions_meet (latched : s.Latched 8) (canonical : s.MemoryWf) (grain : s.grain = .instruction) :
    Meets s (exec .unpack s) := by
  obtain ⟨-, -, canonicalOb, -⟩ := canonical
  have ⟨busy, _, opc, agenda⟩ := latched
  have first := step_latched_stepped latched grain
  unfold fetchStepped at first
  rw [if_neg (by rw [opc]; decide), if_pos opc] at first
  cases readBack : deserialize s.cfg.tbCap s.fbBytes with
  | truncated =>
    simp only [State.unpackStage0, readBack] at first
    exact ⟨0, (run_one s).trans (first.trans (exec_unpack_of_truncated readBack).symm)⟩
  | failed e x y =>
    simp only [State.unpackStage0, readBack] at first
    exact ⟨0, (run_one s).trans (first.trans (exec_unpack_of_failed readBack).symm)⟩
  | tokens ts x y =>
    simp only [State.unpackStage0, readBack] at first
    obtain ⟨t, k, answer, decoder⟩ := stage1_run
      (u := ((s.putSums x y).putTokens ts).atRow { s.work with phase := 1 } s.seq)
      readBack busy agenda opc canonicalOb rfl (tbTokens_putTokens _ ts) (fun _ => rfl) (fun _ _ => rfl)
    exact ⟨k, Eq.trans (Runs.head first decoder) answer.symm⟩

end Unpack

/-! ## Every operation -/

/-- CMP is one row after the start (log 20). -/
theorem cmp_meets {s : State} (latched : s.Latched 9) : Meets s (exec .cmp s) :=
  meets_of_rows latched rfl (by decide) fun stepping =>
    meets_of_start latched stepping (seqStart_cmp latched.opc_eq) (exec_cmp s) (Runs.row stepping rfl (.refl _))

/-- Settles O57: the six operations of O51 to O56, the two composites, and CMP. -/
theorem everySequencingMeetsItsOperation : Obligations.EverySequencingMeetsItsOperation := by
  unfold Obligations.EverySequencingMeetsItsOperation
  intro c i s code latched canonical
  rcases decodeCommand_ok code with ⟨rfl, rfl⟩ | ⟨rfl, rfl⟩ | ⟨rfl, rfl⟩ | ⟨rfl, rfl⟩ | ⟨rfl, rfl⟩ | ⟨rfl, rfl⟩ |
    ⟨rfl, rfl⟩ | ⟨rfl, rfl⟩ | ⟨rfl, rfl⟩
  · obtain ⟨rows, whole⟩ := sequencedCrc32MeetsTheOperation s latched
    by_cases grain : s.grain = .micro
    · exact ⟨_, rows grain⟩
    · exact ⟨0, whole grain⟩
  · exact sequencedFindMeetsTheOperation s latched
  · exact sequencedEncodeMeetsTheOperation s latched canonical
  · exact (sequencedDecodeMeetsTheOperation s latched canonical).1
  · exact sequencedSerializeMeetsTheOperation s latched canonical
  · exact sequencedDeserializeMeetsTheOperation s latched canonical
  · exact meets_of_rows latched rfl (by decide) (pack_rows_meet latched canonical)
  · cases grain : s.grain with
    | operation => exact ⟨0, (run_one s).trans (step_latched latched rfl (.inl grain))⟩
    | instruction => exact unpack_instructions_meet latched canonical grain
    | micro => exact unpack_rows_meet latched canonical (latched.stepping grain)
  · exact cmp_meets latched

end Sys2Proof.Machine
